-- ==== Sys2Proof/Word.lean ====
section
/-!
DEFINITION. The word types of the engine: the byte, the 32-bit register word, and the 32 bits of an f32.
-/
namespace Sys2Proof

/-- One byte of a compressed block (R26). -/
abbrev Byte := BitVec 8

/-- The content of one register of the window: 32 bits (R10 `REGW`). -/
abbrev Word := BitVec 32

/-- The 32 bits of an IEEE 754 binary32 value: sign [31], exponent [30:23], fraction [22:0] (R130). -/
abbrev F32 := BitVec 32

end Sys2Proof
end

