-- ==== Sys2Proof/Machine/Float.lean ====
section
/-!
DEFINITION. IEEE 754 binary32: round to nearest with ties to even, gradual underflow, no flags, no traps, one canonical
NaN, nothing fused (R130 to R133). These are the functions that `Config.num` takes for the record `NUM` of R10; the
rules call them through it, by the names of Machine/Num.lean.

Every finite f32 is an integer multiple of 2^-149. An operation computes the exact result in that unit, as a quotient
of integers, and rounds it once.
-/
namespace Sys2Proof.Machine

/-- The canonical quiet NaN (R131). -/
def f32NaN : F32 := 0x7FC00000#32

/-- The bits below the sign. -/
def f32Low (a : F32) : Nat := a.toNat % 0x80000000

/-- The sign bit. -/
def f32Neg (a : F32) : Bool := decide (0x80000000 ≤ a.toNat)

/-- Exponent all ones, fraction not zero. -/
def f32IsNaN (a : F32) : Bool := decide (0x7F800000 < f32Low a)

/-- An infinity of either sign. -/
def f32IsInf (a : F32) : Bool := decide (f32Low a = 0x7F800000)

/-- Neither a NaN nor an infinity. -/
def f32IsFinite (a : F32) : Bool := decide (f32Low a < 0x7F800000)

/-- The magnitude of a finite f32 in units of 2^-149: the fraction of a subnormal, else the significand with its hidden
bit shifted by the exponent. An infinity gets the value one binade above the largest finite f32. -/
def f32Mag (a : F32) : Nat :=
  if f32Low a < 0x800000 then f32Low a
  else (0x800000 + f32Low a % 0x800000) * 2 ^ (f32Low a / 0x800000 - 1)

/-- The signed value in units of 2^-149. -/
def f32Val (a : F32) : Int := if f32Neg a then -(f32Mag a : Int) else (f32Mag a : Int)

/-- A sign and the 31 bits below it. -/
def f32Make (neg : Bool) (low : Nat) : F32 := BitVec.ofNat 32 (if neg then 0x80000000 + low else low)

/-- `num / den` rounded to the nearest integer, ties to even (R131). -/
def roundNearest (num den : Nat) : Nat :=
  if 2 * (num % den) < den then num / den
  else if den < 2 * (num % den) then num / den + 1
  else num / den + num / den % 2

/-- By how many bits the quotient exceeds the 24-bit significand. -/
def excessBits (num den : Nat) : Nat := Nat.log2 (num / den) - 23

/-- The 31 low bits of the f32 nearest to `num / den` units: the quotient rounded at the last bit of its binade, and
infinity when that reaches 2^128 (R131). A significand that rounds up to 2^24 carries into the exponent. -/
def roundLow (num den : Nat) : Nat :=
  min 0x7F800000 (excessBits num den * 0x800000 + roundNearest num (den * 2 ^ excessBits num den))

/-- `fadd`, the correctly rounded sum (R132). An exact zero sum is +0, but for -0 plus -0. -/
def b32Add (a b : F32) : F32 :=
  if f32IsNaN a || f32IsNaN b then f32NaN
  else if f32IsInf a then (if f32IsInf b && f32Neg a != f32Neg b then f32NaN else a)
  else if f32IsInf b then b
  else if f32Val a + f32Val b = 0 then f32Make (f32Neg a && f32Neg b) 0
  else f32Make (decide (f32Val a + f32Val b < 0)) (roundLow (f32Val a + f32Val b).natAbs 1)

/-- A value with its sign bit flipped. -/
def fneg (a : F32) : F32 := a ^^^ 0x80000000#32

/-- `fsub`, the correctly rounded difference (R132). -/
def b32Sub (a b : F32) : F32 := b32Add a (fneg b)

/-- `fmul`, the correctly rounded product (R132). -/
def b32Mul (a b : F32) : F32 :=
  if f32IsNaN a || f32IsNaN b then f32NaN
  else if f32IsInf a || f32IsInf b then
    (if f32Mag a = 0 ∨ f32Mag b = 0 then f32NaN else f32Make (f32Neg a != f32Neg b) 0x7F800000)
  else f32Make (f32Neg a != f32Neg b) (roundLow (f32Mag a * f32Mag b) (2 ^ 149))

/-- `fdiv`, the correctly rounded quotient; a finite non-zero value over a zero is an infinity, zero over zero a NaN
(R132). -/
def b32Div (a b : F32) : F32 :=
  if f32IsNaN a || f32IsNaN b then f32NaN
  else if f32IsInf a then (if f32IsInf b then f32NaN else f32Make (f32Neg a != f32Neg b) 0x7F800000)
  else if f32IsInf b then f32Make (f32Neg a != f32Neg b) 0
  else if f32Mag b = 0 then
    (if f32Mag a = 0 then f32NaN else f32Make (f32Neg a != f32Neg b) 0x7F800000)
  else f32Make (f32Neg a != f32Neg b) (roundLow (f32Mag a * 2 ^ 149) (f32Mag b))

/-- `flt`: neither is a NaN and a < b, with -0 = +0 (R133). -/
def b32Lt (a b : F32) : Bool := !f32IsNaN a && !f32IsNaN b && decide (f32Val a < f32Val b)

/-- `feq`: neither is a NaN and a = b, with -0 = +0 (R133). -/
def b32Eq (a b : F32) : Bool := !f32IsNaN a && !f32IsNaN b && decide (f32Val a = f32Val b)

/-- `i2f`: the f32 of an integer, exact for |n| < 2^24 (R133). -/
def b32OfInt (n : Int) : F32 := f32Make (decide (n < 0)) (roundLow (n.natAbs * 2 ^ 149) 1)

/-- `f2i`: the fraction discarded, a NaN as 0, saturating at -2^31 and 2^31 - 1 (R133). -/
def b32ToInt (a : F32) : Int :=
  if f32IsNaN a then 0
  else if f32Neg a then -(min (f32Mag a / 2 ^ 149) 0x80000000 : Nat)
  else (min (f32Mag a / 2 ^ 149) 0x7FFFFFFF : Nat)

/-- `fabs`: the sign bit cleared (R133). -/
def b32Abs (a : F32) : F32 := a &&& 0x7FFFFFFF#32

end Sys2Proof.Machine
end

