-- ==== Sys2Proof/Config.lean ====
section
/-!
DEFINITION. The implementation parameters of R10, one field each, at the value this hardware takes, and the two the spec
leaves OPEN (`N_INST`, `BASE[n]`) as constants without a body: nothing in Lean can evaluate them.
-/
namespace Sys2Proof.Config

/-- The parameter `NUM`: a floating-point arithmetic, its format being the type `F` of its values (R10, R136). -/
structure Num (F : Type) where
  /-- the sum -/
  fadd : F → F → F
  /-- the difference -/
  fsub : F → F → F
  /-- the product -/
  fmul : F → F → F
  /-- the quotient -/
  fdiv : F → F → F
  /-- the ordered comparison -/
  flt : F → F → Bool
  /-- equality -/
  feq : F → F → Bool
  /-- the value of an integer -/
  i2f : Int → F
  /-- truncation toward zero to an integer -/
  f2i : F → Int
  /-- the magnitude -/
  fabs : F → F

/-- `REGW`, the width of every register and of every accepted host access (R10, R70). -/
def regWidth : Nat := 32

/-- `WINDOW`, the size of the register window in bytes (R10, R48). -/
def windowSize : Nat := 0x180

/-- `NPIX`, pixels per block (R10). -/
abbrev nPix : Nat := 16

/-- `CHW`, bits per pixel channel (R10). -/
abbrev chW : Nat := 8

/-- The value of one channel of a pixel (R24). -/
abbrev Chan : Type := BitVec chW

/-- One entry for each pixel of a block (R24). -/
abbrev PerPixel (α : Type) : Type := Vector α nPix

/-- `PT_THRESHOLD`: a pixel with an alpha below it is transparent under punch-through (R10, R173). -/
def ptThreshold : Nat := 128

/-- `POWER_ITERS`, the rounds of the power iteration (R10, R12, R217). -/
def powerIters : Nat := 8

/-- `RO_MAX`, the largest re-ordering pass count the command word carries (R10). -/
def roMax : Nat := 15

/-- `NUM`: binary32, round to nearest even, no fused operations (R10, R130 to R136). -/
def num : Num F32 where
  fadd := Machine.b32Add
  fsub := Machine.b32Sub
  fmul := Machine.b32Mul
  fdiv := Machine.b32Div
  flt := Machine.b32Lt
  feq := Machine.b32Eq
  i2f := Machine.b32OfInt
  f2i := Machine.b32ToInt
  fabs := Machine.b32Abs

/-- `PERC.r`, the binary32 value nearest 0.2126 (R10, R134). -/
def percR : F32 := 0x3E59B3D0#32

/-- `PERC.g`, the binary32 value nearest 0.7152 (R10, R134). -/
def percG : F32 := 0x3F371759#32

/-- `PERC.b`, the binary32 value nearest 0.0722 (R10, R134). -/
def percB : F32 := 0x3D93DD98#32

/-- How many engines a chip has beyond the first: `N_INST - 1`, OPEN, any value (R10, R58, log entry 7). -/
opaque extraInstances : Nat

/-- `N_INST`, at least 1 (R10, R432). -/
def instances : Nat := extraInstances + 1

/-- `BASE[n]`, where the platform maps the window of engine `n`, OPEN (R74, log entry 7). -/
opaque base : Nat → Nat

end Sys2Proof.Config
end

