-- ==== Sys2Proof/Syntax.lean ====
section
/-!
DEFINITION. The 16 commands of R96 as one inductive, with the field values of R91 as named constructors. A field an
opcode does not list is ignored by it (R93) and is no argument of its constructor.
-/
namespace Sys2Proof

/-- The five formats of the engine (R2). -/
inductive Format where
  | bc1 | bc2 | bc3 | bc4 | bc5
deriving DecidableEq, Repr

/-- The `FMT` field: one of the five formats, or a selector outside BC1 to BC5 (codes 5 to 7, R91, R97). -/
inductive FmtSel where
  | supported (f : Format)
  | reserved (code : Nat)
deriving DecidableEq, Repr

/-- The `FIT` field: fit quality (R91). -/
inductive FitQuality where
  | rangeFit | clusterFit
deriving DecidableEq, Repr

/-- The `MET` field: colour metric weighting (R91). -/
inductive Metric where
  | uniform | perceptual
deriving DecidableEq, Repr

/-- The level count L of a fit: the `LV` field, and `FIT_LV[0]` (R34, R94). -/
inductive Levels where
  | four | three
deriving DecidableEq, Repr

/-- The `CH` field: a channel of a pixel (R91, R24). -/
inductive Channel where
  | r | g | b | a
deriving DecidableEq, Repr

/-- The `OFF` field: which half of `CBLK` a codec command uses (R91, R26). -/
inductive Half where
  | lower | upper
deriving DecidableEq, Repr

/-- The 16 opcodes of R96, one constructor per row of spec/opcode_table.json. -/
inductive Instr where
  /-- 0x00 `NOP` (R370) -/
  | nop
  /-- 0x01 `CLRERR` (R371) -/
  | clrerr
  /-- 0x02 `SRESET` (R372) -/
  | sreset
  /-- 0x10 `COMPRESS` (R342) -/
  | compress (fmt : FmtSel) (fit : FitQuality) (met : Metric) (pt wa : Bool) (ro : Nat)
  /-- 0x11 `DECOMPRESS` (R350) -/
  | decompress (fmt : FmtSel)
  /-- 0x20 `CSBUILD` (R172) -/
  | csbuild (pt wa : Bool)
  /-- 0x21 `FITSINGLE` (R196) -/
  | fitsingle (lv : Levels) (met : Metric)
  /-- 0x22 `FITRANGE` (R211) -/
  | fitrange (lv : Levels) (met : Metric)
  /-- 0x23 `FITCLUSTER` (R241) -/
  | fitcluster (lv : Levels) (met : Metric) (pt : Bool) (ro : Nat)
  /-- 0x28 `CENC` (R271) -/
  | cenc (off : Half)
  /-- 0x29 `CDEC` (R280) -/
  | cdec (off : Half) (m3 : Bool)
  /-- 0x30 `AENC4` (R301) -/
  | aenc4 (off : Half)
  /-- 0x31 `ADEC4` (R303) -/
  | adec4 (off : Half)
  /-- 0x32 `AFIT` (R307) -/
  | afit (ch : Channel)
  /-- 0x33 `AENC8` (R310) -/
  | aenc8 (off : Half)
  /-- 0x34 `ADEC8` (R313) -/
  | adec8 (off : Half) (ch : Channel)
deriving DecidableEq, Repr

end Sys2Proof
end

