-- ==== Sys2Proof/WellFormed.lean ====
section
/-!
DEFINITION. Which terms of `Instr` a command word can carry: a selector outside BC1 to BC5 is 5, 6 or 7 (R91), and a
pass count is at most `RO_MAX` (R10).
-/
namespace Sys2Proof

/-- A `FMT` field value: three bits, so a reserved selector is 5, 6 or 7 (R91). -/
def FmtSel.wf : FmtSel → Bool
  | .supported _ => true
  | .reserved code => decide (5 ≤ code) && decide (code ≤ 7)

/-- An `RO` field value: four bits (R91, R94). -/
def roWf (ro : Nat) : Bool := decide (ro ≤ Config.roMax)

/-- The instruction is one a 32-bit command word encodes. -/
def Instr.wf : Instr → Bool
  | .compress fmt _ _ _ _ ro => fmt.wf && roWf ro
  | .decompress fmt => fmt.wf
  | .fitcluster _ _ _ ro => roWf ro
  | .nop => true
  | .clrerr => true
  | .sreset => true
  | .csbuild _ _ => true
  | .fitsingle _ _ => true
  | .fitrange _ _ => true
  | .cenc _ => true
  | .cdec _ _ => true
  | .aenc4 _ => true
  | .adec4 _ => true
  | .afit _ => true
  | .aenc8 _ => true
  | .adec8 _ _ => true

end Sys2Proof
end

