-- ==== Sys2Proof/Decode.lean ====
section
/-!
DEFINITION. The command word of R90 to R97: its fields, the opcode map, the decoder (total on every 32-bit word) and the
encoder.
-/
namespace Sys2Proof

/-- Why a command word selects no opcode row (R92 steps 1 and 2, R97). -/
inductive DecodeError where
  /-- `w[31:24] != 0` -/
  | reservedBits
  /-- `w[7:0]` is not one of the 16 opcodes -/
  | unknownOpcode
deriving DecidableEq, Repr

/-- The opcodes of R96. -/
inductive Opcode where
  | nop | clrerr | sreset | compress | decompress | csbuild | fitsingle | fitrange | fitcluster
  | cenc | cdec | aenc4 | adec4 | afit | aenc8 | adec8
deriving DecidableEq, Repr

/-- The `OP` value of each row of R96. -/
def Opcode.code : Opcode → BitVec 8
  | .nop => 0x00#8
  | .clrerr => 0x01#8
  | .sreset => 0x02#8
  | .compress => 0x10#8
  | .decompress => 0x11#8
  | .csbuild => 0x20#8
  | .fitsingle => 0x21#8
  | .fitrange => 0x22#8
  | .fitcluster => 0x23#8
  | .cenc => 0x28#8
  | .cdec => 0x29#8
  | .aenc4 => 0x30#8
  | .adec4 => 0x31#8
  | .afit => 0x32#8
  | .aenc8 => 0x33#8
  | .adec8 => 0x34#8

/-- The rows of R96, in the table's order. -/
def Opcode.all : List Opcode :=
  [.nop, .clrerr, .sreset, .compress, .decompress, .csbuild, .fitsingle, .fitrange, .fitcluster,
   .cenc, .cdec, .aenc4, .adec4, .afit, .aenc8, .adec8]

/-- The row whose opcode is the byte, if any (R92 step 2). -/
def Opcode.ofByte (b : BitVec 8) : Option Opcode := Opcode.all.find? fun op => op.code == b

/-- The fields of the command word (R91). -/
structure Fields where
  op : BitVec 8
  fmt : BitVec 3
  fit : BitVec 1
  met : BitVec 1
  pt : BitVec 1
  wa : BitVec 1
  lv : BitVec 1
  ro : BitVec 4
  ch : BitVec 2
  off : BitVec 1
  m3 : BitVec 1
  rsv : BitVec 8
deriving DecidableEq, Repr

/-- The fields read from a word, each at the bits R91 gives it. -/
def Fields.ofWord (w : Word) : Fields where
  op := w.extractLsb' 0 8
  fmt := w.extractLsb' 8 3
  fit := w.extractLsb' 11 1
  met := w.extractLsb' 12 1
  pt := w.extractLsb' 13 1
  wa := w.extractLsb' 14 1
  lv := w.extractLsb' 15 1
  ro := w.extractLsb' 16 4
  ch := w.extractLsb' 20 2
  off := w.extractLsb' 22 1
  m3 := w.extractLsb' 23 1
  rsv := w.extractLsb' 24 8

/-- The word that carries the fields: each field shifted to its lowest bit of R91. -/
def Fields.toWord (f : Fields) : Word :=
  BitVec.ofNat 32 (f.op.toNat + 2 ^ 8 * f.fmt.toNat + 2 ^ 11 * f.fit.toNat + 2 ^ 12 * f.met.toNat
    + 2 ^ 13 * f.pt.toNat + 2 ^ 14 * f.wa.toNat + 2 ^ 15 * f.lv.toNat + 2 ^ 16 * f.ro.toNat
    + 2 ^ 20 * f.ch.toNat + 2 ^ 22 * f.off.toNat + 2 ^ 23 * f.m3.toNat + 2 ^ 24 * f.rsv.toNat)

/-- The opcode alone, every other field 0 (R100). -/
def Fields.ofOpcode (op : Opcode) : Fields where
  op := op.code
  fmt := 0
  fit := 0
  met := 0
  pt := 0
  wa := 0
  lv := 0
  ro := 0
  ch := 0
  off := 0
  m3 := 0
  rsv := 0

/-- A one-bit field as a truth value. -/
def boolOfBit (b : BitVec 1) : Bool := b == 1#1

/-- A truth value as a one-bit field. -/
def bitOfBool (b : Bool) : BitVec 1 := if b then 1#1 else 0#1

/-- The values of `FMT` (R91): 0 BC1, 1 BC2, 2 BC3, 3 BC4, 4 BC5, 5 to 7 unsupported. -/
def fmtOfField (v : BitVec 3) : FmtSel :=
  if v = 0#3 then .supported .bc1
  else if v = 1#3 then .supported .bc2
  else if v = 2#3 then .supported .bc3
  else if v = 3#3 then .supported .bc4
  else if v = 4#3 then .supported .bc5
  else .reserved v.toNat

/-- The `FMT` value of a selector. -/
def fieldOfFmt : FmtSel → BitVec 3
  | .supported .bc1 => 0#3
  | .supported .bc2 => 1#3
  | .supported .bc3 => 2#3
  | .supported .bc4 => 3#3
  | .supported .bc5 => 4#3
  | .reserved code => BitVec.ofNat 3 code

/-- The values of `FIT` (R91). -/
def fitOfField (v : BitVec 1) : FitQuality := if v = 0#1 then .rangeFit else .clusterFit

/-- The `FIT` value of a fit quality. -/
def fieldOfFit : FitQuality → BitVec 1
  | .rangeFit => 0#1
  | .clusterFit => 1#1

/-- The values of `MET` (R91). -/
def metOfField (v : BitVec 1) : Metric := if v = 0#1 then .uniform else .perceptual

/-- The `MET` value of a metric. -/
def fieldOfMet : Metric → BitVec 1
  | .uniform => 0#1
  | .perceptual => 1#1

/-- The values of `LV` (R91, R94): 0 four levels, 1 three levels. -/
def lvOfField (v : BitVec 1) : Levels := if v = 0#1 then .four else .three

/-- The `LV` value of a level count. -/
def fieldOfLv : Levels → BitVec 1
  | .four => 0#1
  | .three => 1#1

/-- The values of `CH` (R91): 0 r, 1 g, 2 b, 3 a. -/
def chOfField (v : BitVec 2) : Channel :=
  if v = 0#2 then .r else if v = 1#2 then .g else if v = 2#2 then .b else .a

/-- The `CH` value of a channel. -/
def fieldOfCh : Channel → BitVec 2
  | .r => 0#2
  | .g => 1#2
  | .b => 2#2
  | .a => 3#2

/-- The values of `OFF` (R91): 0 bytes 0 to 7, 1 bytes 8 to 15. -/
def offOfField (v : BitVec 1) : Half := if v = 0#1 then .lower else .upper

/-- The `OFF` value of a half. -/
def fieldOfOff : Half → BitVec 1
  | .lower => 0#1
  | .upper => 1#1

/-- The instruction of an opcode row, from the fields the row lists and no others (R93, R94, R96). -/
def assemble (op : Opcode) (f : Fields) : Instr :=
  match op with
  | .nop => .nop
  | .clrerr => .clrerr
  | .sreset => .sreset
  | .compress => .compress (fmtOfField f.fmt) (fitOfField f.fit) (metOfField f.met) (boolOfBit f.pt)
      (boolOfBit f.wa) f.ro.toNat
  | .decompress => .decompress (fmtOfField f.fmt)
  | .csbuild => .csbuild (boolOfBit f.pt) (boolOfBit f.wa)
  | .fitsingle => .fitsingle (lvOfField f.lv) (metOfField f.met)
  | .fitrange => .fitrange (lvOfField f.lv) (metOfField f.met)
  | .fitcluster => .fitcluster (lvOfField f.lv) (metOfField f.met) (boolOfBit f.pt) f.ro.toNat
  | .cenc => .cenc (offOfField f.off)
  | .cdec => .cdec (offOfField f.off) (boolOfBit f.m3)
  | .aenc4 => .aenc4 (offOfField f.off)
  | .adec4 => .adec4 (offOfField f.off)
  | .afit => .afit (chOfField f.ch)
  | .aenc8 => .aenc8 (offOfField f.off)
  | .adec8 => .adec8 (offOfField f.off) (chOfField f.ch)

/-- The instruction the fields select: reserved bits first, then the opcode (R92 steps 1 to 3, R413). -/
def decodeFields (f : Fields) : Except DecodeError Instr :=
  if f.rsv ≠ 0#8 then .error .reservedBits
  else
    match Opcode.ofByte f.op with
    | none => .error .unknownOpcode
    | some op => .ok (assemble op f)

/-- The decoder: every 32-bit word selects exactly one opcode row or is rejected by name (R92). -/
def decode (w : Word) : Except DecodeError Instr := decodeFields (Fields.ofWord w)

/-- The fields of an instruction: its opcode and the fields its row lists, the others 0 (R96, R100). -/
def fieldsOf : Instr → Fields
  | .nop => Fields.ofOpcode .nop
  | .clrerr => Fields.ofOpcode .clrerr
  | .sreset => Fields.ofOpcode .sreset
  | .compress fmt fit met pt wa ro =>
      { Fields.ofOpcode .compress with
        fmt := fieldOfFmt fmt, fit := fieldOfFit fit, met := fieldOfMet met, pt := bitOfBool pt,
        wa := bitOfBool wa, ro := BitVec.ofNat 4 ro }
  | .decompress fmt => { Fields.ofOpcode .decompress with fmt := fieldOfFmt fmt }
  | .csbuild pt wa => { Fields.ofOpcode .csbuild with pt := bitOfBool pt, wa := bitOfBool wa }
  | .fitsingle lv met => { Fields.ofOpcode .fitsingle with lv := fieldOfLv lv, met := fieldOfMet met }
  | .fitrange lv met => { Fields.ofOpcode .fitrange with lv := fieldOfLv lv, met := fieldOfMet met }
  | .fitcluster lv met pt ro =>
      { Fields.ofOpcode .fitcluster with
        lv := fieldOfLv lv, met := fieldOfMet met, pt := bitOfBool pt, ro := BitVec.ofNat 4 ro }
  | .cenc off => { Fields.ofOpcode .cenc with off := fieldOfOff off }
  | .cdec off m3 => { Fields.ofOpcode .cdec with off := fieldOfOff off, m3 := bitOfBool m3 }
  | .aenc4 off => { Fields.ofOpcode .aenc4 with off := fieldOfOff off }
  | .adec4 off => { Fields.ofOpcode .adec4 with off := fieldOfOff off }
  | .afit ch => { Fields.ofOpcode .afit with ch := fieldOfCh ch }
  | .aenc8 off => { Fields.ofOpcode .aenc8 with off := fieldOfOff off }
  | .adec8 off ch => { Fields.ofOpcode .adec8 with off := fieldOfOff off, ch := fieldOfCh ch }

/-- The encoder: the command word of a well-formed instruction (R91, R96). -/
def encode (i : Instr) : Word := (fieldsOf i).toWord

/-- What the decoder reads from an instruction whose low `nbits` bits are `w` and whose other bits are 0. A command is
one 32-bit word (R90), so a row of more bits has no instruction. -/
def decodeTableWord (nbits w : Nat) : Option Instr :=
  if nbits ≤ 32 then (decode (BitVec.ofNat 32 (w % 2 ^ nbits))).toOption else none

end Sys2Proof
end

