-- ==== Sys2Proof/Machine/State.lean ====
section
/-!
DEFINITION. The state of one engine (R20, R21) and of the host's side of its window, as plain data; the state after
reset (R22, R440); the reasons a step can stop.
-/
namespace Sys2Proof.Machine

/-- A pixel: four channels of `CHW` bits (R24). Its word is `r | g << 8 | b << 16 | a << 24`. -/
structure Pixel where
  r : Config.Chan
  g : Config.Chan
  b : Config.Chan
  a : Config.Chan
deriving DecidableEq, Repr

/-- A colour: three channels of `CHW` bits (R29). -/
structure Rgb8 where
  r : Config.Chan
  g : Config.Chan
  b : Config.Chan
deriving DecidableEq, Repr

/-- Three f32 lanes; for colours x, y, z are r, g, b (R140). -/
structure Vec3 where
  x : F32
  y : F32
  z : F32
deriving DecidableEq, Repr

/-- The fields of `STATUS` (R40). -/
structure Status where
  /-- bit 0: the most recent command completed without raising -/
  done : Bool
  /-- bit 1: some command raised since the last CLRERR or reset -/
  err : Bool
  /-- bit 2: the last FITSINGLE was not applicable -/
  sna : Bool
  /-- bits 7:4: the code of the first raise since `ERR` was last clear -/
  code : BitVec 4
deriving DecidableEq, Repr

/-- The Colour Set registers (R28 to R30). A remap entry is the index of a colour of the set, or none: the transparent
sentinel 0xFF. -/
structure ColourSet where
  /-- `CS_COUNT`, 0 to 16 -/
  count : Fin 17
  /-- `CS_TRANSP` -/
  transp : Bool
  /-- `CS_RGB[0..15]` -/
  rgb : Vector Rgb8 16
  /-- `CS_W[0..15]`, f32 -/
  w : Vector F32 16
  /-- `CS_REMAP8[0..15]` -/
  remap : Config.PerPixel (Option (Fin 16))
deriving DecidableEq, Repr

/-- The Fit Result registers (R32 to R34). -/
structure FitRegs where
  /-- `FIT_A` -/
  a : Vec3
  /-- `FIT_B` -/
  b : Vec3
  /-- `FIT_IDX2[0..15]`, the two-bit indices of `FIT_IDX` -/
  idx : Config.PerPixel (BitVec 2)
  /-- `FIT_LV[0]`: 0 four levels, 1 three levels -/
  lv : Levels
  /-- `FIT_ERR`, f32 -/
  err : F32
deriving DecidableEq, Repr

/-- The interpolated-alpha fit registers (R36). -/
structure AlphaRegs where
  /-- `AF_LO` = `AF_END[7:0]` -/
  lo : Config.Chan
  /-- `AF_HI` = `AF_END[15:8]` -/
  hi : Config.Chan
  /-- `AF_K3[0..15]`: the three-bit levels of `AF_K0` (0 to 7) and `AF_K1` (8 to 15) -/
  k : Config.PerPixel (BitVec 3)
deriving DecidableEq, Repr

/-- The complete state of one engine instance: the registers of R21 and nothing else (R20, R49). `CMD` holds nothing. -/
structure Engine where
  /-- `STATUS` -/
  status : Status
  /-- `CLEN[4:0]` -/
  clen : BitVec 5
  /-- `FIT_A`, `FIT_B`, `FIT_IDX`, `FIT_LV`, `FIT_ERR` -/
  fit : FitRegs
  /-- `AF_END`, `AF_K0`, `AF_K1` -/
  af : AlphaRegs
  /-- `CS_INFO`, `CS_RGB`, `CS_W`, `CS_REMAP` -/
  cs : ColourSet
  /-- `PIX[0..15]`, the input block -/
  pix : Config.PerPixel Pixel
  /-- `CBLK8[0..15]`, the bytes of the four `CBLK` words (R26) -/
  cblk : Vector Byte 16
  /-- `DPIX[0..15]`, the decoded block -/
  dpix : Config.PerPixel Pixel
deriving DecidableEq, Repr

/-- What the world outside the engine does to it: one access to its window (R15, R60), or the platform's hardware reset
signal (R441). A width is in bits; only 32 is accepted (R64, R70). -/
inductive HostEvent where
  | read (off width : Nat)
  | write (off width : Nat) (v : Word)
  | reset
deriving DecidableEq, Repr

/-- How the window answers one access (R63, R64): accepted, with the value of a read, or refused. -/
inductive Answer where
  | ok
  | value (v : Word)
  | busErr
deriving DecidableEq, Repr

/-- The machine: one engine, and the host's side of its window. `pending` and `answer` are the model's own fields (log
entry 1): the accesses the host has yet to issue, in its order (R37, R78), and the answer to its latest access. -/
structure State where
  eng : Engine
  pending : List HostEvent
  answer : Option Answer
deriving DecidableEq, Repr

/-- Why a step faults: never. Every step of the engine terminates in a next state (R450), its errors are recorded in
`STATUS` (R400), and a refused access is answered `BUSERR` with the state unchanged (R64). Safe: a run is never cut
short. -/
inductive Fault where
deriving DecidableEq, Repr

/-- Why a step has no meaning. -/
inductive Refusal where
  /-- Raised by an arm of `exec` whose instruction has no meaning yet. Safe: the run stops. No arm answers it now. -/
  | notModelled (mnemonic : String)
deriving DecidableEq, Repr

/-- The pixel (0, 0, 0, 0). -/
def Pixel.zero : Pixel := ⟨0, 0, 0, 0⟩

/-- The colour (0, 0, 0). -/
def Rgb8.zero : Rgb8 := ⟨0, 0, 0⟩

/-- The vector (+0.0, +0.0, +0.0). -/
def Vec3.zero : Vec3 := ⟨0, 0, 0⟩

/-- `STATUS` after reset: 0 (R440). -/
def Status.reset : Status := ⟨false, false, false, 0⟩

/-- The colour-set registers after reset: count 0 and every remap entry 0, not the sentinel (R31, R440). -/
def ColourSet.reset : ColourSet :=
  ⟨0, false, Vector.replicate 16 Rgb8.zero, Vector.replicate 16 0, Vector.replicate 16 (some 0)⟩

/-- The fit registers after reset (R440). -/
def FitRegs.reset : FitRegs := ⟨Vec3.zero, Vec3.zero, Vector.replicate 16 0, .four, 0⟩

/-- The alpha-fit registers after reset (R440). -/
def AlphaRegs.reset : AlphaRegs := ⟨0, 0, Vector.replicate 16 0⟩

/-- The engine after hardware reset and after SRESET: every bit of every register is zero (R22, R440). -/
def Engine.reset : Engine where
  status := Status.reset
  clen := 0
  fit := FitRegs.reset
  af := AlphaRegs.reset
  cs := ColourSet.reset
  pix := Vector.replicate 16 Pixel.zero
  cblk := Vector.replicate 16 0
  dpix := Vector.replicate 16 Pixel.zero

/-- The machine right after reset: the engine of R440, and a host that has issued no access yet (R440, log entry 1). -/
def State.reset : State := ⟨Engine.reset, [], none⟩

end Sys2Proof.Machine
end

