-- ==== Sys2Proof/Machine/Bits.lean ====
section
/-!
DEFINITION. Fixed-size register arrays and little-endian packing: the one place where the byte, pixel and index order of
R13, R24 to R26, R33, R36, R67, R68 is decided.
-/
namespace Sys2Proof.Machine

/-- The pixel and register numbers 0 to 15, ascending (R18). -/
def idx16 : List (Fin 16) := [0, 1, 2, 3, 4, 5, 6, 7, 8, 9, 10, 11, 12, 13, 14, 15]

/-- The array of 16 entries with the given entry at each number. -/
def tab16 {α : Type} (f : Fin 16 → α) : Vector α 16 :=
  #v[f 0, f 1, f 2, f 3, f 4, f 5, f 6, f 7, f 8, f 9, f 10, f 11, f 12, f 13, f 14, f 15]

/-- The array of 8 entries with the given entry at each number. -/
def tab8 {α : Type} (f : Fin 8 → α) : Vector α 8 := #v[f 0, f 1, f 2, f 3, f 4, f 5, f 6, f 7]

/-- The integer whose base-2^k digits are the list, least significant first (R67, R68). -/
def packLE (k : Nat) : List Nat → Nat
  | [] => 0
  | d :: ds => d + 2 ^ k * packLE k ds

/-- Digit `i` in base 2^k: bits [k i + k - 1 : k i] (R13). -/
def digitLE (k i n : Nat) : Nat := n / 2 ^ (k * i) % 2 ^ k

/-- The word of four bytes, the first at bits [7:0] (R26, R68). -/
def wordOfBytes (b0 b1 b2 b3 : Byte) : Word :=
  BitVec.ofNat 32 (packLE 8 [b0.toNat, b1.toNat, b2.toNat, b3.toNat])

/-- Byte `k` of a word (R26). -/
def byteOf (w : Word) (k : Nat) : Byte := BitVec.ofNat 8 (digitLE 8 k w.toNat)

/-- The word of a pixel: red lowest, alpha highest (R24). -/
def Pixel.toWord (p : Pixel) : Word := wordOfBytes p.r p.g p.b p.a

/-- The pixel of a word (R24). -/
def Pixel.ofWord (w : Word) : Pixel := ⟨byteOf w 0, byteOf w 1, byteOf w 2, byteOf w 3⟩

/-- The word of a colour: bits [31:24] zero (R29). -/
def Rgb8.toWord (c : Rgb8) : Word := wordOfBytes c.r c.g c.b 0

/-- `PIX[i].ch(c)`: the channel in the order r, g, b, a (R24). -/
def Pixel.ch (p : Pixel) : Channel → Config.Chan
  | .r => p.r
  | .g => p.g
  | .b => p.b
  | .a => p.a

/-- `DPIX[i].ch(c) <- v`: one channel written, the other three left (R25). -/
def Pixel.setCh (p : Pixel) (c : Channel) (v : Config.Chan) : Pixel :=
  match c with
  | .r => { p with r := v }
  | .g => { p with g := v }
  | .b => { p with b := v }
  | .a => { p with a := v }

/-- The colour of a pixel, without its alpha (R175). -/
def Pixel.rgb (p : Pixel) : Rgb8 := ⟨p.r, p.g, p.b⟩

/-- A decoded colour with the given alpha. -/
def Rgb8.withAlpha (c : Rgb8) (a : Config.Chan) : Pixel := ⟨c.r, c.g, c.b, a⟩

/-- The `FIT_IDX` word: index `i` at bits [2i+1 : 2i] (R33). -/
def wordOfIdx (v : Vector (BitVec 2) 16) : Word :=
  BitVec.ofNat 32 (packLE 2 (v.toList.map BitVec.toNat))

/-- The indices of a `FIT_IDX` word (R33). -/
def idxOfWord (w : Word) : Vector (BitVec 2) 16 := tab16 fun i => BitVec.ofNat 2 (digitLE 2 i w.toNat)

/-- The `AF_K0` word: levels of pixels 0 to 7 at bits [3i+2 : 3i], bits [31:24] zero (R21, R36). -/
def wordOfK0 (v : Vector (BitVec 3) 16) : Word :=
  BitVec.ofNat 32 (packLE 3 ((v.toList.take 8).map BitVec.toNat))

/-- The `AF_K1` word: levels of pixels 8 to 15 (R21, R36). -/
def wordOfK1 (v : Vector (BitVec 3) 16) : Word :=
  BitVec.ofNat 32 (packLE 3 ((v.toList.drop 8).map BitVec.toNat))

/-- The levels with those of pixels 0 to 7 taken from an `AF_K0` word. -/
def setK0 (v : Vector (BitVec 3) 16) (w : Word) : Vector (BitVec 3) 16 :=
  tab16 fun i => if i < 8 then BitVec.ofNat 3 (digitLE 3 i w.toNat) else v[i]

/-- The levels with those of pixels 8 to 15 taken from an `AF_K1` word. -/
def setK1 (v : Vector (BitVec 3) 16) (w : Word) : Vector (BitVec 3) 16 :=
  tab16 fun i => if i < 8 then v[i] else BitVec.ofNat 3 (digitLE 3 (i - 8) w.toNat)

/-- The byte of a remap entry: a set index, or the sentinel 0xFF (R30). -/
def remapByte : Option (Fin 16) → Byte
  | some j => BitVec.ofNat 8 j
  | none => 0xFF#8

/-- `CS_REMAP8[i]` (R30). -/
def ColourSet.remap8 (cs : ColourSet) (i : Fin 16) : Byte := remapByte cs.remap[i]

end Sys2Proof.Machine
end

