-- ==== Sys2Proof/Machine/Flags.lean ====
section
/-!
DEFINITION. `STATUS`: its word, its updates, and the error kinds (R40, R401, R410).
-/
namespace Sys2Proof.Machine

/-- The kinds of error (R16, R401). -/
inductive ErrorKind where
  /-- `FMT` in 5 to 7, raised by COMPRESS and DECOMPRESS -/
  | unsupportedFormat
  /-- `CLEN` is not the format's size, raised by DECOMPRESS -/
  | invalidBlockLength
  /-- has a code and is never raised by the engine (R404) -/
  | imageDimensionMismatch
  /-- a word with reserved bits set or with an unknown opcode -/
  | illegalCommand
deriving DecidableEq, Repr

/-- The code of a kind (R401). -/
def ErrorKind.code : ErrorKind → BitVec 4
  | .unsupportedFormat => 1#4
  | .invalidBlockLength => 2#4
  | .imageDimensionMismatch => 3#4
  | .illegalCommand => 4#4

/-- The `STATUS` word: `DONE` at 0, `ERR` at 1, `SNA` at 2, `CODE` at 7:4, the others zero (R40). -/
def Status.toWord (s : Status) : Word :=
  BitVec.ofNat 32 (s.done.toNat + 2 * s.err.toNat + 4 * s.sna.toNat + 16 * s.code.toNat)

/-- A command completed: `DONE <- 1` (R92 step 4). -/
def Status.complete (s : Status) : Status := { s with done := true }

/-- The `STATUS` part of `raise`: `DONE <- 0`; `ERR` and `CODE` are written only when `ERR` was 0 (R410, R411). -/
def Status.raise (k : ErrorKind) (s : Status) : Status :=
  { s with done := false, err := true, code := if s.err then s.code else k.code }

/-- `ERR <- 0; CODE <- 0` (R371). -/
def Status.clearErr (s : Status) : Status := { s with err := false, code := 0 }

/-- `SNA <- b` (R196). -/
def Status.setSna (b : Bool) (s : Status) : Status := { s with sna := b }

end Sys2Proof.Machine
end

