-- ==== Sys2Proof/Machine/Num.lean ====
section
/-!
DEFINITION. The arithmetic the rules are written in: the functions of `NUM` (R17, R136), taken from the configuration, what
R135 builds on them, and the constants of R134.
-/
namespace Sys2Proof.Machine

/-- `fadd` of `NUM` (R132). -/
def fadd (a b : F32) : F32 := Config.num.fadd a b

/-- `fsub` of `NUM` (R132). -/
def fsub (a b : F32) : F32 := Config.num.fsub a b

/-- `fmul` of `NUM` (R132). -/
def fmul (a b : F32) : F32 := Config.num.fmul a b

/-- `fdiv` of `NUM` (R132). -/
def fdiv (a b : F32) : F32 := Config.num.fdiv a b

/-- `flt` of `NUM`: the ordered comparison (R133). -/
def flt (a b : F32) : Bool := Config.num.flt a b

/-- `feq` of `NUM`: equality (R133). -/
def feq (a b : F32) : Bool := Config.num.feq a b

/-- `i2f` of `NUM`: the value of an integer (R133). -/
def i2f (n : Int) : F32 := Config.num.i2f n

/-- `f2i` of `NUM`: truncation toward zero (R133). -/
def f2i (a : F32) : Int := Config.num.f2i a

/-- `fabs` of `NUM`: the magnitude (R133). -/
def fabs (a : F32) : F32 := Config.num.fabs a

/-- `fmax(a,b) = b if flt(a,b) else a` (R135). -/
def fmax (a b : F32) : F32 := if flt a b then b else a

/-- `fmin(a,b) = a if flt(a,b) else b` (R135). -/
def fmin (a b : F32) : F32 := if flt a b then a else b

/-- +0.0 (R134). -/
def f0 : F32 := 0x00000000#32
/-- 0.25 (R134). -/
def fQuarter : F32 := 0x3E800000#32
/-- 0.5 (R134). -/
def fHalf : F32 := 0x3F000000#32
/-- 1.0 (R134). -/
def f1 : F32 := 0x3F800000#32
/-- 31.0 (R134). -/
def f31 : F32 := 0x41F80000#32
/-- 63.0 (R134). -/
def f63 : F32 := 0x427C0000#32
/-- 255.0 (R134). -/
def f255 : F32 := 0x437F0000#32
/-- 1/3 (R134). -/
def fThird : F32 := 0x3EAAAAAB#32
/-- 2/3 (R134). -/
def fTwoThirds : F32 := 0x3F2AAAAB#32
/-- 1/9 (R134). -/
def fNinth : F32 := 0x3DE38E39#32
/-- 2/9 (R134). -/
def fTwoNinths : F32 := 0x3E638E39#32
/-- 4/9 (R134). -/
def fFourNinths : F32 := 0x3EE38E39#32

/-- `clamp01(x) = fmin(1.0, fmax(0.0, x))`: a NaN and -0.0 go to +0.0 (R135). -/
def clamp01 (x : F32) : F32 := fmin f1 (fmax f0 x)

end Sys2Proof.Machine
end

