-- ==== Sys2Proof/Machine/VectorMath.lean ====
section
/-!
DEFINITION. The Vector Math unit: lane-wise operations on Vec3 and Vec4, the channel quantiser, the grid, the metric
distance, the 565 expansion and the reconstruction levels (R140 to R152, R275, R276).
-/
namespace Sys2Proof.Machine

/-- `add(u, v)` (R141). -/
def vadd (u v : Vec3) : Vec3 := ⟨fadd u.x v.x, fadd u.y v.y, fadd u.z v.z⟩

/-- `sub(u, v)` (R141). -/
def vsub (u v : Vec3) : Vec3 := ⟨fsub u.x v.x, fsub u.y v.y, fsub u.z v.z⟩

/-- `scale(s, v)` (R142). -/
def vscale (s : F32) (v : Vec3) : Vec3 := ⟨fmul s v.x, fmul s v.y, fmul s v.z⟩

/-- `dot(u, v)`: three rounded products, added left to right (R143). -/
def vdot (u v : Vec3) : F32 := fadd (fadd (fmul u.x v.x) (fmul u.y v.y)) (fmul u.z v.z)

/-- `componentMin(u, v)` (R144). -/
def vmin (u v : Vec3) : Vec3 := ⟨fmin u.x v.x, fmin u.y v.y, fmin u.z v.z⟩

/-- `componentMax(u, v)` (R144). -/
def vmax (u v : Vec3) : Vec3 := ⟨fmax u.x v.x, fmax u.y v.y, fmax u.z v.z⟩

/-- `clampToUnitRange(v)` (R145). -/
def vclamp (v : Vec3) : Vec3 := ⟨clamp01 v.x, clamp01 v.y, clamp01 v.z⟩

/-- `truncateToInt(v)` (R146). -/
def vtrunc (v : Vec3) : Int × Int × Int := (f2i v.x, f2i v.y, f2i v.z)

/-- Four f32 lanes (R140). No rule of the engine uses one (R147). -/
structure Vec4 where
  x : F32
  y : F32
  z : F32
  w : F32
deriving DecidableEq, Repr

/-- `add` on four lanes (R147). -/
def vadd4 (u v : Vec4) : Vec4 := ⟨fadd u.x v.x, fadd u.y v.y, fadd u.z v.z, fadd u.w v.w⟩

/-- `sub` on four lanes (R147). -/
def vsub4 (u v : Vec4) : Vec4 := ⟨fsub u.x v.x, fsub u.y v.y, fsub u.z v.z, fsub u.w v.w⟩

/-- `scale` on four lanes (R147). -/
def vscale4 (s : F32) (v : Vec4) : Vec4 := ⟨fmul s v.x, fmul s v.y, fmul s v.z, fmul s v.w⟩

/-- `dot` on four lanes: the fourth product is added last (R147). -/
def vdot4 (u v : Vec4) : F32 :=
  fadd (fadd (fadd (fmul u.x v.x) (fmul u.y v.y)) (fmul u.z v.z)) (fmul u.w v.w)

/-- `componentMin` on four lanes (R147). -/
def vmin4 (u v : Vec4) : Vec4 := ⟨fmin u.x v.x, fmin u.y v.y, fmin u.z v.z, fmin u.w v.w⟩

/-- `componentMax` on four lanes (R147). -/
def vmax4 (u v : Vec4) : Vec4 := ⟨fmax u.x v.x, fmax u.y v.y, fmax u.z v.z, fmax u.w v.w⟩

/-- `clampToUnitRange` on four lanes (R147). -/
def vclamp4 (v : Vec4) : Vec4 := ⟨clamp01 v.x, clamp01 v.y, clamp01 v.z, clamp01 v.w⟩

/-- `truncateToInt` on four lanes (R147). -/
def vtrunc4 (v : Vec4) : Int × Int × Int × Int := (f2i v.x, f2i v.y, f2i v.z, f2i v.w)

/-- A quantised endpoint: 5, 6, 5 bits (R111). -/
structure Rgb565 where
  r : BitVec 5
  g : BitVec 6
  b : BitVec 5
deriving DecidableEq, Repr

/-- The endpoint (0, 0, 0). -/
def Rgb565.zero : Rgb565 := ⟨0, 0, 0⟩

/-- `Qn(x, n)`: clamp, scale by 2^n - 1, add a half, truncate (R150). -/
def quantize (x : F32) (n : Nat) : Nat :=
  (f2i (fadd (fmul (i2f ((2 ^ n - 1 : Nat) : Int)) (clamp01 x)) fHalf)).toNat

/-- `Q565(v)` (R150). -/
def q565 (v : Vec3) : Rgb565 :=
  ⟨BitVec.ofNat 5 (quantize v.x 5), BitVec.ofNat 6 (quantize v.y 6), BitVec.ofNat 5 (quantize v.z 5)⟩

/-- `Grid(q)`: the endpoint as floats on the quantisation grid (R150). -/
def grid (q : Rgb565) : Vec3 :=
  ⟨fdiv (i2f (q.r.toNat : Int)) f31, fdiv (i2f (q.g.toNat : Int)) f63, fdiv (i2f (q.b.toNat : Int)) f31⟩

/-- One squared, weighted channel difference of `Dist` (R152). -/
def sqDiff (m : F32) (p q : Byte) : F32 :=
  fmul (fmul m (i2f ((p.toNat : Int) - (q.toNat : Int)))) (fmul m (i2f ((p.toNat : Int) - (q.toNat : Int))))

/-- `Dist(p, q, M)`: the metric weight multiplies the difference before squaring (R152). -/
def metricDist (p q : Rgb8) (m : Vec3) : F32 :=
  fadd (fadd (sqDiff m.x p.r q.r) (sqDiff m.y p.g q.g)) (sqDiff m.z p.b q.b)

/-- The float colour of an 8-bit colour: each channel over 255 (R176). -/
def col (c : Rgb8) : Vec3 :=
  ⟨fdiv (i2f (c.r.toNat : Int)) f255, fdiv (i2f (c.g.toNat : Int)) f255, fdiv (i2f (c.b.toNat : Int)) f255⟩

/-- `expand_5` for n = 5 and `expand_6` for n = 6: the top bits replicated into the low bits (R275). -/
def expandBits (n q : Nat) : Nat := q * 2 ^ (8 - n) + q / 2 ^ (2 * n - 8)

/-- `Expand565` (R275). -/
def expand565 (q : Rgb565) : Rgb8 :=
  ⟨BitVec.ofNat 8 (expandBits 5 q.r.toNat), BitVec.ofNat 8 (expandBits 6 q.g.toNat),
   BitVec.ofNat 8 (expandBits 5 q.b.toNat)⟩

/-- The truncating blend `(p a + q b) div (p + q)` of two 8-bit values (R155, R276). -/
def blend (p q : Nat) (a b : Byte) : Byte := BitVec.ofNat 8 ((p * a.toNat + q * b.toNat) / (p + q))

/-- The blend of two colours, channel by channel (R276). -/
def blendRgb (p q : Nat) (a b : Rgb8) : Rgb8 := ⟨blend p q a.r b.r, blend p q a.g b.g, blend p q a.b b.b⟩

/-- `Levels8(qa, qb, L)`: the colours a decoder reconstructs for indices 0, 1, 2 and, for four levels, 3 (R276). -/
def levels8 (qa qb : Rgb565) : Levels → List Rgb8
  | .four => [expand565 qa, expand565 qb, blendRgb 2 1 (expand565 qa) (expand565 qb),
              blendRgb 1 2 (expand565 qa) (expand565 qb)]
  | .three => [expand565 qa, expand565 qb, blendRgb 1 1 (expand565 qa) (expand565 qb)]

end Sys2Proof.Machine
end

