-- ==== Sys2Proof/Machine/Operands.lean ====
section
/-!
DEFINITION. The operands a command forms from its fields (R94), and the views of the registers it reads: the entries of
the colour set, a channel of the block, a half of the compressed block.
-/
namespace Sys2Proof.Machine

/-- The metric vector `M`: (1, 1, 1), or `PERC` (R94). -/
def metricVec : Metric → Vec3
  | .uniform => ⟨f1, f1, f1⟩
  | .perceptual => ⟨Config.percR, Config.percG, Config.percB⟩

/-- The block-half base `8 * OFF` (R94). -/
def halfBase : Half → Nat
  | .lower => 0
  | .upper => 8

/-- `BlockSize(FMT)` (R118). -/
def blockSize : Format → Nat
  | .bc1 => 8
  | .bc2 => 16
  | .bc3 => 16
  | .bc4 => 8
  | .bc5 => 16

/-- The entry numbers 0 to `CS_COUNT` - 1, in set order. -/
def ColourSet.entries (cs : ColourSet) : List (Fin 16) := idx16.take cs.count

/-- `col(i)` (R176). -/
def ColourSet.colAt (cs : ColourSet) (i : Fin 16) : Vec3 := col cs.rgb[i]

/-- The values of one channel of the input block, pixel 0 first (R307). -/
def Engine.channel (e : Engine) (c : Channel) : Vector Byte 16 := tab16 fun i => e.pix[i].ch c

/-- The eight bytes of a half of `CBLK` (R26). -/
def Engine.half (e : Engine) (h : Half) : Vector Byte 8 :=
  match h with
  | .lower => tab8 fun k => e.cblk[k.val]
  | .upper => tab8 fun k => e.cblk[8 + k.val]

/-- A 16-bit packed endpoint from its low and high byte (R110). -/
def word16 (lo hi : Byte) : BitVec 16 := BitVec.ofNat 16 (packLE 8 [lo.toNat, hi.toNat])

/-- `Pack565` (R111): red at [15:11], green at [10:5], blue at [4:0]. -/
def pack565 (q : Rgb565) : BitVec 16 :=
  BitVec.ofNat 16 (2 ^ 11 * q.r.toNat + 2 ^ 5 * q.g.toNat + q.b.toNat)

/-- `Unpack565` (R111). -/
def unpack565 (p : BitVec 16) : Rgb565 :=
  ⟨BitVec.ofNat 5 (p.toNat / 2 ^ 11), BitVec.ofNat 6 (p.toNat / 2 ^ 5), BitVec.ofNat 5 p.toNat⟩

end Sys2Proof.Machine
end

