-- ==== Sys2Proof/Machine/Ops.lean ====
section
/-!
DEFINITION. The shared operations over the registers: raising an error, completing a command, the updates the commands
are made of, and the register window (R21, R63, R64, R410).
-/
namespace Sys2Proof.Machine

/-- `raise <Kind>`: the whole of taking an exception here (R410). `STATUS` records the kind, every other register keeps
its value; nothing is saved, no mode changes, no control moves, and there is nothing to return from (R414). -/
def Engine.raise (k : ErrorKind) (e : Engine) : Engine := { e with status := e.status.raise k }

/-- A command that raises ends with the engine's `raise` (R410). -/
def State.raise (k : ErrorKind) (s : State) : State := { s with eng := s.eng.raise k }

/-- A command's effect on the engine, then `DONE <- 1` (R92 steps 3 and 4). -/
def State.completeWith (f : Engine → Engine) (s : State) : State :=
  { s with eng := { f s.eng with status := (f s.eng).status.complete } }

/-- The half of `CBLK` written with eight bytes, the other half left (R26). -/
def Engine.setHalf (h : Half) (blk : Vector Byte 8) (e : Engine) : Engine :=
  { e with
    cblk :=
      match h with
      | .lower => tab16 fun i => if hi : i.val < 8 then blk[i.val] else e.cblk[i]
      | .upper => tab16 fun i => if hi : 8 ≤ i.val then blk[i.val - 8] else e.cblk[i] }

/-- `Spread`: per-entry indices to per-pixel indices through the remap; an excluded pixel gets 3 whatever L is (R223). -/
def spread (cs : ColourSet) (eidx : Vector (BitVec 2) 16) : Vector (BitVec 2) 16 :=
  tab16 fun i =>
    match cs.remap[i] with
    | none => 3#2
    | some j => eidx[j]

/-- `Commit`: the result of a fit written to `FIT_*` (R223). -/
def Engine.commit (qa qb : Rgb565) (eidx : Vector (BitVec 2) 16) (err : F32) (lv : Levels) (e : Engine) :
    Engine :=
  { e with fit := { a := grid qa, b := grid qb, idx := spread e.cs eidx, lv := lv, err := err } }

/-- A component of a float endpoint: `.r`, `.g`, `.b` (R21). -/
inductive Lane where
  | r | g | b
deriving DecidableEq, Repr

/-- The position of a lane. -/
def Lane.num : Lane → Nat
  | .r => 0
  | .g => 1
  | .b => 2

/-- One lane of a vector. -/
def Vec3.lane (v : Vec3) : Lane → F32
  | .r => v.x
  | .g => v.y
  | .b => v.z

/-- One lane of a vector written. -/
def Vec3.setLane (v : Vec3) (l : Lane) (x : F32) : Vec3 :=
  match l with
  | .r => { v with x := x }
  | .g => { v with y := x }
  | .b => { v with z := x }

/-- The registers of the window, one constructor per row of R21. -/
inductive Reg where
  | cmd | status | clen | fitErr
  | fitA (l : Lane)
  | fitB (l : Lane)
  | fitIdx | fitLv | afEnd | afK0 | afK1 | csInfo
  | pix (i : Fin 16)
  | cblk (j : Fin 4)
  | csRemap (j : Fin 4)
  | dpix (i : Fin 16)
  | csRgb (i : Fin 16)
  | csW (i : Fin 16)
deriving DecidableEq, Repr

/-- The `off` column of R21. -/
def Reg.offset : Reg → Nat
  | .cmd => 0x000
  | .status => 0x004
  | .clen => 0x008
  | .fitErr => 0x00C
  | .fitA l => 0x010 + 4 * l.num
  | .fitB l => 0x01C + 4 * l.num
  | .fitIdx => 0x028
  | .fitLv => 0x02C
  | .afEnd => 0x030
  | .afK0 => 0x034
  | .afK1 => 0x038
  | .csInfo => 0x03C
  | .pix i => 0x040 + 4 * i.val
  | .cblk j => 0x080 + 4 * j.val
  | .csRemap j => 0x090 + 4 * j.val
  | .dpix i => 0x0C0 + 4 * i.val
  | .csRgb i => 0x100 + 4 * i.val
  | .csW i => 0x140 + 4 * i.val

/-- The rows of R21, in the table's order. -/
def Reg.all : List Reg :=
  [.cmd, .status, .clen, .fitErr, .fitA .r, .fitA .g, .fitA .b, .fitB .r, .fitB .g, .fitB .b, .fitIdx, .fitLv,
   .afEnd, .afK0, .afK1, .csInfo]
  ++ idx16.map Reg.pix ++ [0, 1, 2, 3].map Reg.cblk ++ [0, 1, 2, 3].map Reg.csRemap
  ++ idx16.map Reg.dpix ++ idx16.map Reg.csRgb ++ idx16.map Reg.csW

/-- The register at a byte offset, if one is mapped there: an unaligned offset, the hole 0x0A0 to 0x0BC and everything
from 0x180 up have none (R64, R74). -/
def regAt (off : Nat) : Option Reg := Reg.all.find? fun r => r.offset == off

/-- The host's access to a register, the `acc` column of R21. -/
inductive Acc where
  /-- read and write -/
  | rw
  /-- read only: a write changes nothing (R45) -/
  | ro
  /-- write only: a read gives 0 (R45) -/
  | wo
deriving DecidableEq, Repr

/-- The `acc` column of R21. -/
def Reg.acc : Reg → Acc
  | .cmd => .wo
  | .status => .ro
  | .clen => .rw
  | .fitErr => .ro
  | .fitA _ => .rw
  | .fitB _ => .rw
  | .fitIdx => .rw
  | .fitLv => .rw
  | .afEnd => .rw
  | .afK0 => .rw
  | .afK1 => .rw
  | .csInfo => .ro
  | .pix _ => .rw
  | .cblk _ => .rw
  | .csRemap _ => .ro
  | .dpix _ => .ro
  | .csRgb _ => .ro
  | .csW _ => .ro

/-- The 32-bit content of a register, the zero bits of its layout reading 0 (R21, R63). -/
def Engine.readReg (e : Engine) : Reg → Word
  | .cmd => 0#32
  | .status => e.status.toWord
  | .clen => e.clen.setWidth 32
  | .fitErr => e.fit.err
  | .fitA l => e.fit.a.lane l
  | .fitB l => e.fit.b.lane l
  | .fitIdx => wordOfIdx e.fit.idx
  | .fitLv => if e.fit.lv = .four then 0#32 else 1#32
  | .afEnd => wordOfBytes e.af.lo e.af.hi 0 0
  | .afK0 => wordOfK0 e.af.k
  | .afK1 => wordOfK1 e.af.k
  | .csInfo => BitVec.ofNat 32 (e.cs.count.val + 2 ^ 8 * e.cs.transp.toNat)
  | .pix i => e.pix[i].toWord
  | .cblk j => wordOfBytes e.cblk[4 * j.val] e.cblk[4 * j.val + 1] e.cblk[4 * j.val + 2] e.cblk[4 * j.val + 3]
  | .csRemap j =>
      wordOfBytes (e.cs.remap8 ⟨4 * j.val, by omega⟩) (e.cs.remap8 ⟨4 * j.val + 1, by omega⟩)
        (e.cs.remap8 ⟨4 * j.val + 2, by omega⟩) (e.cs.remap8 ⟨4 * j.val + 3, by omega⟩)
  | .dpix i => e.dpix[i].toWord
  | .csRgb i => e.cs.rgb[i].toWord
  | .csW i => e.cs.w[i]

/-- A host write to a register other than `CMD`: an RW register takes the bits its layout stores, an RO register changes
nothing (R45, R63). -/
def Engine.writeReg (e : Engine) (r : Reg) (v : Word) : Engine :=
  match r with
  | .cmd => e
  | .status => e
  | .clen => { e with clen := v.setWidth 5 }
  | .fitErr => e
  | .fitA l => { e with fit := { e.fit with a := e.fit.a.setLane l v } }
  | .fitB l => { e with fit := { e.fit with b := e.fit.b.setLane l v } }
  | .fitIdx => { e with fit := { e.fit with idx := idxOfWord v } }
  | .fitLv => { e with fit := { e.fit with lv := if v.toNat % 2 = 0 then .four else .three } }
  | .afEnd => { e with af := { e.af with lo := byteOf v 0, hi := byteOf v 1 } }
  | .afK0 => { e with af := { e.af with k := setK0 e.af.k v } }
  | .afK1 => { e with af := { e.af with k := setK1 e.af.k v } }
  | .csInfo => e
  | .pix i => { e with pix := e.pix.set i (Pixel.ofWord v) }
  | .cblk j =>
      { e with cblk := tab16 fun k => if k.val / 4 = j.val then byteOf v (k.val % 4) else e.cblk[k] }
  | .csRemap _ => e
  | .dpix _ => e
  | .csRgb _ => e
  | .csW _ => e

/-- The register an access reaches: the access is 32 bits wide and its offset is mapped (R63, R64, R70). -/
def accessReg (off width : Nat) : Option Reg := if width = Config.regWidth then regAt off else none

/-- `HostRead`: the value of the register, or `BUSERR` (R63, R64). -/
def Engine.hostRead (e : Engine) (off width : Nat) : Answer :=
  match accessReg off width with
  | some r => .value (e.readReg r)
  | none => .busErr

/-- The host's next event is taken from its side and the access answered; the engine is not touched. -/
def State.answered (s : State) (rest : List HostEvent) (a : Answer) : State :=
  { s with pending := rest, answer := some a }

end Sys2Proof.Machine
end

