-- ==== Sys2Proof/Machine/AlphaCodec.lean ====
section
/-!
DEFINITION. The Alpha Block Codec: explicit alpha AENC4, ADEC4; the fit AFIT; interpolated alpha AENC8, ADEC8 (R300 to
R316) over the layouts of R113 to R116.
-/
namespace Sys2Proof.Machine

/-- The 4-bit quantiser of explicit alpha, to the nearest multiple of 17 (R301). -/
def quant4 (a : Byte) : Nat := (2 * a.toNat + 17) / 34

/-- The eight bytes of explicit alpha: the even pixel in the low nibble (R113, R301). -/
def encodeAlpha4 (pix : Vector Pixel 16) : Vector Byte 8 :=
  tab8 fun j => BitVec.ofNat 8 (packLE 4 [quant4 pix[2 * j.val].a, quant4 pix[2 * j.val + 1].a])

/-- The alpha of pixel `i` in an explicit block: 17 times its nibble (R303). -/
def decodeAlpha4 (y : Vector Byte 8) (i : Fin 16) : Byte :=
  BitVec.ofNat 8 (17 * digitLE 4 (i.val % 2) y[i.val / 2].toNat)

/-- The smaller of two bytes. -/
def byteMin (a b : Byte) : Byte := if b.toNat < a.toNat then b else a

/-- The larger of two bytes. -/
def byteMax (a b : Byte) : Byte := if a.toNat < b.toNat then b else a

/-- The smallest of sixteen values (R307). -/
def minByte (x : Vector Byte 16) : Byte := x.toList.foldl byteMin x[0]

/-- The largest of sixteen values (R307). -/
def maxByte (x : Vector Byte 16) : Byte := x.toList.foldl byteMax x[0]

/-- `Lk[k]`, the linear levels from `lo` to `hi` (R307). -/
def alphaLevel (lo hi : Byte) (k : Nat) : Nat := ((7 - k) * lo.toNat + k * hi.toNat) / 7

/-- The distance of a value from a linear level (R307). -/
def alphaDist (lo hi x : Byte) (k : Nat) : Nat :=
  x.toNat - alphaLevel lo hi k + (alphaLevel lo hi k - x.toNat)

/-- The nearest of the levels listed: a later one replaces the held one only when strictly nearer (R307). -/
def nearestAlphaFrom (lo hi x : Byte) (bk : Nat) : List Nat → Nat
  | [] => bk
  | k :: ks => nearestAlphaFrom lo hi x (if alphaDist lo hi x k < alphaDist lo hi x bk then k else bk) ks

/-- The linear level of a value: the lowest of the nearest (R307). -/
def nearestAlpha (lo hi x : Byte) : Nat := nearestAlphaFrom lo hi x 0 [1, 2, 3, 4, 5, 6, 7]

/-- The alpha fit of sixteen values (R307). -/
def alphaFit (x : Vector Byte 16) : AlphaRegs where
  lo := minByte x
  hi := maxByte x
  k := tab16 fun i => BitVec.ofNat 3 (nearestAlpha (minByte x) (maxByte x) x[i])

/-- The index remap of the encoder: linear level to wire index, with the larger endpoint first (R310). -/
def wireOfLevel (k : BitVec 3) : Nat := if k = 0#3 then 1 else if k = 7#3 then 0 else 8 - k.toNat

/-- The 48-bit integer of the wire indices (R115, R310). -/
def alphaBits (k : Vector (BitVec 3) 16) : Nat := packLE 3 (k.toList.map wireOfLevel)

/-- The eight bytes of an alpha fit: the larger endpoint, the smaller, the indices (R114, R310). -/
def encodeAlpha8 (f : AlphaRegs) : Vector Byte 8 :=
  #v[f.hi, f.lo,
     BitVec.ofNat 8 (digitLE 8 0 (alphaBits f.k)), BitVec.ofNat 8 (digitLE 8 1 (alphaBits f.k)),
     BitVec.ofNat 8 (digitLE 8 2 (alphaBits f.k)), BitVec.ofNat 8 (digitLE 8 3 (alphaBits f.k)),
     BitVec.ofNat 8 (digitLE 8 4 (alphaBits f.k)), BitVec.ofNat 8 (digitLE 8 5 (alphaBits f.k))]

/-- `ACodes(a0, a1)[w]`: the 8-level scheme when a0 > a1, else the 6-level scheme with 0 and 255 (R116, R312). -/
def alphaCode (a0 a1 : Byte) (w : Nat) : Byte :=
  if w = 0 then a0
  else if w = 1 then a1
  else if a1.toNat < a0.toNat then BitVec.ofNat 8 (((8 - w) * a0.toNat + (w - 1) * a1.toNat) / 7)
  else if w = 6 then 0#8
  else if w = 7 then 255#8
  else BitVec.ofNat 8 (((6 - w) * a0.toNat + (w - 1) * a1.toNat) / 5)

/-- The wire index of pixel `i` in an interpolated block (R115, R313). -/
def alphaWire (y : Vector Byte 8) (i : Fin 16) : Nat :=
  digitLE 3 i (packLE 8 [y[2].toNat, y[3].toNat, y[4].toNat, y[5].toNat, y[6].toNat, y[7].toNat])

/-- The value of pixel `i` in an interpolated block (R313). -/
def decodeAlpha8 (y : Vector Byte 8) (i : Fin 16) : Byte := alphaCode y[0] y[1] (alphaWire y i)

/-- One channel of the decoded block written, the other three left (R25). -/
def Engine.setChannel (ch : Channel) (v : Fin 16 → Byte) (e : Engine) : Engine :=
  { e with dpix := tab16 fun i => e.dpix[i].setCh ch (v i) }

/-- The effect of AENC4 on the registers, without `DONE`. -/
def Engine.alphaEnc4 (off : Half) (e : Engine) : Engine := e.setHalf off (encodeAlpha4 e.pix)

/-- The effect of ADEC4 on the registers, without `DONE`. -/
def Engine.alphaDec4 (off : Half) (e : Engine) : Engine := e.setChannel .a (decodeAlpha4 (e.half off))

/-- The effect of AFIT on the registers, without `DONE`. -/
def Engine.alphaFitCh (ch : Channel) (e : Engine) : Engine := { e with af := alphaFit (e.channel ch) }

/-- The effect of AENC8 on the registers, without `DONE`. -/
def Engine.alphaEnc8 (off : Half) (e : Engine) : Engine := e.setHalf off (encodeAlpha8 e.af)

/-- The effect of ADEC8 on the registers, without `DONE`. -/
def Engine.alphaDec8 (off : Half) (ch : Channel) (e : Engine) : Engine :=
  e.setChannel ch (decodeAlpha8 (e.half off))

/-- AENC4 (R301). -/
def execAenc4 (off : Half) (s : State) : Host.Outcome State Fault Refusal :=
  .next (s.completeWith (Engine.alphaEnc4 off))

/-- ADEC4 (R303). -/
def execAdec4 (off : Half) (s : State) : Host.Outcome State Fault Refusal :=
  .next (s.completeWith (Engine.alphaDec4 off))

/-- AFIT (R307). -/
def execAfit (ch : Channel) (s : State) : Host.Outcome State Fault Refusal :=
  .next (s.completeWith (Engine.alphaFitCh ch))

/-- AENC8 (R310). -/
def execAenc8 (off : Half) (s : State) : Host.Outcome State Fault Refusal :=
  .next (s.completeWith (Engine.alphaEnc8 off))

/-- ADEC8 (R313). -/
def execAdec8 (off : Half) (ch : Channel) (s : State) : Host.Outcome State Fault Refusal :=
  .next (s.completeWith (Engine.alphaDec8 off ch))

end Sys2Proof.Machine
end

