-- ==== Sys2Proof/Machine/RangeFit.lean ====
section
/-!
DEFINITION. The Range Fit unit and its command FITRANGE (R210 to R229): weighted mean, covariance, power iteration,
projection, quantisation, nearest level.
-/
namespace Sys2Proof.Machine

/-- The running sums of the weighted mean: the total weight and the weighted colour sum (R215). -/
structure MeanAcc where
  w : F32
  s : Vec3
deriving DecidableEq, Repr

/-- One entry of `Centroid` (R215). -/
def MeanAcc.add (cs : ColourSet) (acc : MeanAcc) (i : Fin 16) : MeanAcc :=
  ⟨fadd acc.w cs.w[i], vadd acc.s (vscale cs.w[i] (cs.colAt i))⟩

/-- `Centroid()`: the weighted mean, (0, 0, 0) when the total weight is zero (R215). -/
def centroid (cs : ColourSet) : Vec3 :=
  let t := cs.entries.foldl (MeanAcc.add cs) ⟨f0, Vec3.zero⟩
  if feq t.w f0 then Vec3.zero else ⟨fdiv t.s.x t.w, fdiv t.s.y t.w, fdiv t.s.z t.w⟩

/-- The six entries of the symmetric covariance matrix (R216). -/
structure Sym3 where
  xx : F32
  xy : F32
  xz : F32
  yy : F32
  yz : F32
  zz : F32
deriving DecidableEq, Repr

/-- One entry of `Covariance`, from the difference `d` and its weighted form `e` (R216). -/
def Sym3.add (c : Sym3) (d e : Vec3) : Sym3 :=
  ⟨fadd c.xx (fmul d.x e.x), fadd c.xy (fmul d.x e.y), fadd c.xz (fmul d.x e.z),
   fadd c.yy (fmul d.y e.y), fadd c.yz (fmul d.y e.z), fadd c.zz (fmul d.z e.z)⟩

/-- `Covariance(cen)`, not divided by the total weight (R216). -/
def covariance (cs : ColourSet) (cen : Vec3) : Sym3 :=
  cs.entries.foldl
    (fun c i => c.add (vsub (cs.colAt i) cen) (vscale cs.w[i] (vsub (cs.colAt i) cen)))
    ⟨f0, f0, f0, f0, f0, f0⟩

/-- The matrix times a vector, each row a `dot` (R217). -/
def Sym3.mulVec (c : Sym3) (v : Vec3) : Vec3 :=
  ⟨vdot ⟨c.xx, c.xy, c.xz⟩ v, vdot ⟨c.xy, c.yy, c.yz⟩ v, vdot ⟨c.xz, c.yz, c.zz⟩ v⟩

/-- The magnitude of the largest component: `fmax(|x|, fmax(|y|, |z|))` (R217). -/
def largestMag (v : Vec3) : F32 := fmax (fabs v.x) (fmax (fabs v.y) (fabs v.z))

/-- `PowerIterate`: at most `rounds` rounds from `v`, stopping with `v` kept when the product is zero (R217). -/
def powerIterate (c : Sym3) : Nat → Vec3 → Vec3
  | 0, v => v
  | rounds + 1, v =>
    let w := c.mulVec v
    let m := largestMag w
    if feq m f0 then v else powerIterate c rounds ⟨fdiv w.x m, fdiv w.y m, fdiv w.z m⟩

/-- `Axis()`: the principal axis, from the start vector (1, 1, 1) (R214, R217). -/
def axis (cs : ColourSet) : Vec3 :=
  powerIterate (covariance cs (centroid cs)) Config.powerIters ⟨f1, f1, f1⟩

/-- `Proj(i, v)` (R219). -/
def proj (cs : ColourSet) (v : Vec3) (i : Fin 16) : F32 := vdot (cs.colAt i) v

/-- The entries of smallest and largest projection seen so far, with their projections (R219). -/
structure Extremes where
  lo : Fin 16
  hi : Fin 16
  pmin : F32
  pmax : F32
deriving DecidableEq, Repr

/-- One entry of R219: a tie keeps the earlier entry. -/
def Extremes.add (p : Fin 16 → F32) (x : Extremes) (i : Fin 16) : Extremes :=
  { lo := if flt (p i) x.pmin then i else x.lo
    pmin := if flt (p i) x.pmin then p i else x.pmin
    hi := if flt x.pmax (p i) then i else x.hi
    pmax := if flt x.pmax (p i) then p i else x.pmax }

/-- The entries with the extreme projections on an axis, entry 0 first (R219). -/
def extremes (cs : ColourSet) (v : Vec3) : Extremes :=
  (cs.entries.drop 1).foldl (Extremes.add (proj cs v)) ⟨0, 0, proj cs v 0, proj cs v 0⟩

/-- A level index and its distance to the colour looked up. -/
structure Nearest where
  k : BitVec 2
  d : F32
deriving DecidableEq, Repr

/-- The levels from index `k` on, a later one held only when strictly nearer (R222). -/
def nearestFrom (c : Rgb8) (m : Vec3) (best : Nearest) (k : Nat) : List Rgb8 → Nearest
  | [] => best
  | l :: ls =>
    nearestFrom c m (if flt (metricDist c l m) best.d then ⟨BitVec.ofNat 2 k, metricDist c l m⟩ else best) (k + 1) ls

/-- The nearest level of a colour: level 0 first, ties to the lower index (R222). -/
def nearestLevel (c : Rgb8) (m : Vec3) (qa qb : Rgb565) (lv : Levels) : Nearest :=
  nearestFrom c m ⟨0, metricDist c (expand565 qa) m⟩ 1 ((levels8 qa qb lv).drop 1)

/-- The result of a colour fit before it is committed: quantised endpoints, per-entry indices, error (R225). -/
structure FitCore where
  qa : Rgb565
  qb : Rgb565
  eidx : Vector (BitVec 2) 16
  err : F32
deriving DecidableEq, Repr

/-- `err`: the weighted sum of the least distances, in set order (R224). -/
def rangeErr (cs : ColourSet) (near : Fin 16 → Nearest) : F32 :=
  cs.entries.foldl (fun acc i => fadd acc (fmul cs.w[i] (near i).d)) f0

/-- `RangeFitCore(L, M)` (R225): the empty set gives endpoints (0, 0, 0) and error +0.0. -/
def rangeFitCore (cs : ColourSet) (lv : Levels) (m : Vec3) : FitCore :=
  if cs.count.val = 0 then ⟨Rgb565.zero, Rgb565.zero, Vector.replicate 16 0, f0⟩
  else
    let x := extremes cs (axis cs)
    let qa := q565 (vclamp (cs.colAt x.lo))
    let qb := q565 (vclamp (cs.colAt x.hi))
    let near := fun i : Fin 16 => nearestLevel cs.rgb[i] m qa qb lv
    { qa := qa
      qb := qb
      eidx := tab16 fun i => if i.val < cs.count.val then (near i).k else 0
      err := rangeErr cs near }

/-- The effect of FITRANGE on the registers, without `DONE`. -/
def Engine.fitRange (lv : Levels) (met : Metric) (e : Engine) : Engine :=
  let c := rangeFitCore e.cs lv (metricVec met)
  e.commit c.qa c.qb c.eidx c.err lv

/-- FITRANGE (R211). -/
def execFitrange (lv : Levels) (met : Metric) (s : State) : Host.Outcome State Fault Refusal :=
  .next (s.completeWith (Engine.fitRange lv met))

end Sys2Proof.Machine
end

