-- ==== Sys2Proof/Machine/ClusterFit.lean ====
section
/-!
DEFINITION. The Cluster Fit unit and its command FITCLUSTER (R240 to R263): the order along the principal axis, the
splits, the least-squares solve, the evaluated error, the re-ordering passes.
-/
namespace Sys2Proof.Machine

/-- Insertion of an entry into a sorted order kept last-first: it moves past every entry of strictly larger
projection and stops at the first that is not (R242). -/
def insertByProj (p : Fin 16 → F32) (x : Fin 16) : List (Fin 16) → List (Fin 16)
  | [] => [x]
  | y :: ys => if flt (p x) (p y) then y :: insertByProj p x ys else x :: y :: ys

/-- `SortByProjection(v)`: ascending, entries of equal projection in entry order (R242). -/
def sortByProjection (cs : ColourSet) (v : Vec3) : List (Fin 16) :=
  (cs.entries.foldl (fun acc x => insertByProj (proj cs v) x acc) []).reverse

/-- A weight sum and a weighted colour sum (R243). -/
structure GroupAcc where
  w : F32
  x : Vec3
deriving DecidableEq, Repr

/-- The empty sums. -/
def GroupAcc.zero : GroupAcc := ⟨f0, Vec3.zero⟩

/-- `PW`, `PX` over an order: the sums before each position and after the last (R243). -/
def prefixSums (cs : ColourSet) (acc : GroupAcc) : List (Fin 16) → List GroupAcc
  | [] => [acc]
  | i :: o =>
    acc :: prefixSums cs ⟨fadd acc.w cs.w[i], vadd acc.x (vscale cs.w[i] (cs.colAt i))⟩ o

/-- The prefix sums up to a position. -/
def sumAt (pre : List GroupAcc) (t : Nat) : GroupAcc := (pre[t]?).getD GroupAcc.zero

/-- `GroupSum(lo, hi)`: the sums of positions lo to hi - 1 as a rounded difference of prefix sums (R243). -/
def groupSum (pre : List GroupAcc) (lo hi : Nat) : GroupAcc :=
  ⟨fsub (sumAt pre hi).w (sumAt pre lo).w, vsub (sumAt pre hi).x (sumAt pre lo).x⟩

/-- The cut positions of a split (R244 to R246). -/
structure Cuts where
  i : Nat
  j : Nat
  k : Nat
deriving DecidableEq, Repr

/-- The integers lo, lo + 1, ..., hi (R18). -/
def rangeIncl (lo hi : Nat) : List Nat := (List.range (hi + 1 - lo)).map fun d => lo + d

/-- The splits of an order of `n` entries, in enumeration order: triples for four levels (R244), pairs with `k = j` for
three (R245), single cuts with `j = k = i` for three with punch-through (R246). -/
def splits (lv : Levels) (pt : Bool) (n : Nat) : List Cuts :=
  match lv, pt with
  | .four, _ =>
    (rangeIncl 0 n).flatMap fun i => (rangeIncl i n).flatMap fun j => (rangeIncl j n).map fun k => ⟨i, j, k⟩
  | .three, false => (rangeIncl 0 n).flatMap fun i => (rangeIncl i n).map fun j => ⟨i, j, j⟩
  | .three, true => (rangeIncl 0 n).map fun i => ⟨i, i, i⟩

/-- `widx[t]`: the groups receive the fit indices 0, 2, 3, 1 in this order (R244). -/
def groupIdx (c : Cuts) (t : Nat) : BitVec 2 :=
  if t < c.i then 0#2 else if t < c.j then 2#2 else if t < c.k then 3#2 else 1#2

/-- The coefficients of the normal equations of a split (R247). -/
structure NormalEq where
  a2 : F32
  b2 : F32
  ab : F32
  ax : Vec3
  bx : Vec3
deriving DecidableEq, Repr

/-- The coefficients from the sums of the four groups (R247). -/
def normalEq (lv : Levels) (g0 g1 g2 g3 : GroupAcc) : NormalEq :=
  match lv with
  | .four =>
    { a2 := fadd (fadd g0.w (fmul fFourNinths g1.w)) (fmul fNinth g2.w)
      b2 := fadd (fadd g3.w (fmul fFourNinths g2.w)) (fmul fNinth g1.w)
      ab := fmul fTwoNinths (fadd g1.w g2.w)
      ax := vadd (vadd g0.x (vscale fTwoThirds g1.x)) (vscale fThird g2.x)
      bx := vadd (vadd g3.x (vscale fTwoThirds g2.x)) (vscale fThird g1.x) }
  | .three =>
    { a2 := fadd g0.w (fmul fQuarter g1.w)
      b2 := fadd g3.w (fmul fQuarter g1.w)
      ab := fmul fQuarter g1.w
      ax := vadd g0.x (vscale fHalf g1.x)
      bx := vadd g3.x (vscale fHalf g1.x) }

/-- `det` (R247). -/
def NormalEq.det (q : NormalEq) : F32 := fsub (fmul q.a2 q.b2) (fmul q.ab q.ab)

/-- One component of an endpoint by Cramer's rule: `(p s - q t) / det` (R247). -/
def cramer (p s q t det : F32) : F32 := fdiv (fsub (fmul p s) (fmul q t)) det

/-- Endpoint a (R247). -/
def NormalEq.solveA (q : NormalEq) : Vec3 :=
  ⟨cramer q.ax.x q.b2 q.bx.x q.ab q.det, cramer q.ax.y q.b2 q.bx.y q.ab q.det,
   cramer q.ax.z q.b2 q.bx.z q.ab q.det⟩

/-- Endpoint b (R247). -/
def NormalEq.solveB (q : NormalEq) : Vec3 :=
  ⟨cramer q.bx.x q.a2 q.ax.x q.ab q.det, cramer q.bx.y q.a2 q.ax.y q.ab q.det,
   cramer q.bx.z q.a2 q.ax.z q.ab q.det⟩

/-- The normal equations of a split of an order of `n` entries. -/
def splitEq (lv : Levels) (pre : List GroupAcc) (n : Nat) (c : Cuts) : NormalEq :=
  normalEq lv (groupSum pre 0 c.i) (groupSum pre c.i c.j) (groupSum pre c.j c.k) (groupSum pre c.k n)

/-- The level an index selects among the reconstructed levels. -/
def levelAt (lvs : List Rgb8) (k : BitVec 2) : Rgb8 := (lvs[k.toNat]?).getD Rgb8.zero

/-- The error of a split from position `t` on, in order position (R250). -/
def splitErrFrom (cs : ColourSet) (m : Vec3) (lvs : List Rgb8) (c : Cuts) (acc : F32) (t : Nat) :
    List (Fin 16) → F32
  | [] => acc
  | i :: o =>
    splitErrFrom cs m lvs c
      (fadd acc (fmul cs.w[i] (metricDist cs.rgb[i] (levelAt lvs (groupIdx c t)) m))) (t + 1) o

/-- `eidx` of a partition from position `t` on: each entry of the order gets the index of its group, the others 0
(R251). -/
def assignFrom (c : Cuts) (eidx : Vector (BitVec 2) 16) (t : Nat) : List (Fin 16) → Vector (BitVec 2) 16
  | [] => eidx
  | i :: o => assignFrom c (eidx.set i (groupIdx c t)) (t + 1) o

/-- The incumbent of the search: a fit, with the order and cuts it came from, none for the Range Fit seed (R241). -/
structure Best where
  fit : FitCore
  part : Option (List (Fin 16) × Cuts)
deriving DecidableEq, Repr

/-- The fit of one split: solved (R247), quantised (R249) and evaluated (R250); none when it is degenerate (R248). -/
def evalSplit (cs : ColourSet) (o : List (Fin 16)) (pre : List GroupAcc) (lv : Levels) (m : Vec3) (c : Cuts) :
    Option FitCore :=
  let q := splitEq lv pre o.length c
  if feq q.det f0 then none
  else
    let qa := q565 q.solveA
    let qb := q565 q.solveB
    some
      { qa := qa
        qb := qb
        eidx := assignFrom c (Vector.replicate 16 0) 0 o
        err := splitErrFrom cs m (levels8 qa qb lv) c f0 0 o }

/-- The search while it runs: the incumbent, and whether it was replaced in this search (R252). -/
structure Search where
  best : Best
  improved : Bool
deriving DecidableEq, Repr

/-- One split: kept only when its error is strictly smaller than the incumbent's (R251). -/
def Search.trySplit (cs : ColourSet) (o : List (Fin 16)) (pre : List GroupAcc) (lv : Levels) (m : Vec3)
    (s : Search) (c : Cuts) : Search :=
  match evalSplit cs o pre lv m c with
  | none => s
  | some f => if flt f.err s.best.fit.err then ⟨⟨f, some (o, c)⟩, true⟩ else s

/-- `SplitSearch(o, L, PT, M, best)` (R252). -/
def splitSearch (cs : ColourSet) (lv : Levels) (pt : Bool) (m : Vec3) (o : List (Fin 16)) (s : Search) : Search :=
  (splits lv pt o.length).foldl (Search.trySplit cs o (prefixSums cs GroupAcc.zero o) lv m) s

/-- `o` with the entries at positions c - 1 and c exchanged (R253). -/
def swapAt (o : List (Fin 16)) (c : Nat) : List (Fin 16) :=
  match o.drop (c - 1) with
  | x :: y :: rest => o.take (c - 1) ++ y :: x :: rest
  | _ => o

/-- The distinct cuts that are > 0 and < n, ascending; `i <= j <= k` (R253). -/
def interiorCuts (n : Nat) (c : Cuts) : List Nat :=
  (if 0 < c.i ∧ c.i < n then [c.i] else [])
  ++ (if 0 < c.j ∧ c.j < n ∧ c.j ≠ c.i then [c.j] else [])
  ++ (if 0 < c.k ∧ c.k < n ∧ c.k ≠ c.j ∧ c.k ≠ c.i then [c.k] else [])

/-- One re-ordering pass over the interior cuts of the order and cuts held at its start (R253). -/
def reorderPass (cs : ColourSet) (lv : Levels) (pt : Bool) (m : Vec3) (o : List (Fin 16)) (c : Cuts) (b : Best) :
    Search :=
  (interiorCuts o.length c).foldl (fun s p => splitSearch cs lv pt m (swapAt o p) s) ⟨b, false⟩

/-- `ReorderPasses(RO, L, PT, M, best)`: stops when the seed is still the best, or a pass did not improve (R253). -/
def reorderPasses (cs : ColourSet) (lv : Levels) (pt : Bool) (m : Vec3) : Nat → Best → Best
  | 0, b => b
  | ro + 1, b =>
    match b.part with
    | none => b
    | some (o, c) =>
      let s := reorderPass cs lv pt m o c b
      if s.improved then reorderPasses cs lv pt m ro s.best else s.best

/-- The whole fit: the Range Fit seed, the search of the principal-axis order, the passes (R241). -/
def clusterFitCore (cs : ColourSet) (lv : Levels) (m : Vec3) (pt : Bool) (ro : Nat) : FitCore :=
  let seed : Best := ⟨rangeFitCore cs lv m, none⟩
  if cs.count.val = 0 then seed.fit
  else
    let s := splitSearch cs lv pt m (sortByProjection cs (axis cs)) ⟨seed, false⟩
    (reorderPasses cs lv pt m ro s.best).fit

/-- The effect of FITCLUSTER on the registers, without `DONE`. -/
def Engine.fitCluster (lv : Levels) (met : Metric) (pt : Bool) (ro : Nat) (e : Engine) : Engine :=
  let c := clusterFitCore e.cs lv (metricVec met) pt ro
  e.commit c.qa c.qb c.eidx c.err lv

/-- FITCLUSTER (R241). -/
def execFitcluster (lv : Levels) (met : Metric) (pt : Bool) (ro : Nat) (s : State) :
    Host.Outcome State Fault Refusal :=
  .next (s.completeWith (Engine.fitCluster lv met pt ro))

end Sys2Proof.Machine
end

