-- ==== Sys2Proof/Machine/ColourCodec.lean ====
section
/-!
DEFINITION. The Colour Block Codec: commands CENC and CDEC (R270 to R286) over the block layout of R110 to R112.
-/
namespace Sys2Proof.Machine

/-- A colour block taken apart: the packed endpoints and the sixteen wire indices (R110). -/
structure ColourBlock where
  a : BitVec 16
  b : BitVec 16
  x : Vector (BitVec 2) 16
deriving DecidableEq, Repr

/-- The index remap of an exchange in a four-level block: 0 and 1, and 2 and 3, change places (R273). -/
def flip4 (k : BitVec 2) : BitVec 2 := k ^^^ 1#2

/-- The index remap of an exchange in a three-level block: 0 and 1 change places, 2 and 3 stay (R273). -/
def flip3 (k : BitVec 2) : BitVec 2 := if k.toNat < 2 then k ^^^ 1#2 else k

/-- The endpoint order that carries the mode: a > b after a four-level fit, or equal endpoints with every index 0;
a <= b after a three-level fit (R271, R273). -/
def orderBlock (lv : Levels) (blk : ColourBlock) : ColourBlock :=
  match lv with
  | .four =>
    if blk.a.toNat < blk.b.toNat then ⟨blk.b, blk.a, tab16 fun i => flip4 blk.x[i]⟩
    else if blk.a = blk.b then { blk with x := Vector.replicate 16 0 }
    else blk
  | .three =>
    if blk.b.toNat < blk.a.toNat then ⟨blk.b, blk.a, tab16 fun i => flip3 blk.x[i]⟩ else blk

/-- An index byte: four two-bit indices from number `i` on, the first at bits [1:0] (R110, R274). -/
def idxByte (x : Vector (BitVec 2) 16) (j : Fin 4) : Byte :=
  BitVec.ofNat 8 (packLE 2
    [x[4 * j.val].toNat, x[4 * j.val + 1].toNat, x[4 * j.val + 2].toNat, x[4 * j.val + 3].toNat])

/-- The eight bytes of a colour block (R110). -/
def ColourBlock.toBytes (c : ColourBlock) : Vector Byte 8 :=
  #v[BitVec.ofNat 8 (digitLE 8 0 c.a.toNat), BitVec.ofNat 8 (digitLE 8 1 c.a.toNat),
     BitVec.ofNat 8 (digitLE 8 0 c.b.toNat), BitVec.ofNat 8 (digitLE 8 1 c.b.toNat),
     idxByte c.x 0, idxByte c.x 1, idxByte c.x 2, idxByte c.x 3]

/-- The colour block of eight bytes (R110, R280). -/
def ColourBlock.ofBytes (y : Vector Byte 8) : ColourBlock where
  a := word16 y[0] y[1]
  b := word16 y[2] y[3]
  x := tab16 fun i => BitVec.ofNat 2 (digitLE 2 (i.val % 4) y[4 + i.val / 4].toNat)

/-- `encode`: the block of a fit result, its endpoints quantised again (R271, R272). -/
def encodeColour (f : FitRegs) : Vector Byte 8 :=
  (orderBlock f.lv ⟨pack565 (q565 f.a), pack565 (q565 f.b), f.idx⟩).toBytes

/-- Whether a block is in 3-colour mode: the BC1 rule is active and a <= b (R112, R281). -/
def ColourBlock.mode3 (m3 : Bool) (c : ColourBlock) : Bool := m3 && decide (c.a.toNat ≤ c.b.toNat)

/-- The pixel of a wire index: a reconstructed level with alpha 255, or transparent black where the mode has no such
level, index 3 in 3-colour mode (R112, R280). -/
def ColourBlock.pixel (m3 : Bool) (c : ColourBlock) (k : BitVec 2) : Pixel :=
  match (levels8 (unpack565 c.a) (unpack565 c.b) (if c.mode3 m3 then .three else .four))[k.toNat]? with
  | some l => l.withAlpha 255#8
  | none => Pixel.zero

/-- `decode` and reconstruct: the sixteen pixels of eight bytes (R280). -/
def decodeColour (m3 : Bool) (bytes : Vector Byte 8) : Vector Pixel 16 :=
  tab16 fun i => (ColourBlock.ofBytes bytes).pixel m3 (ColourBlock.ofBytes bytes).x[i]

/-- The effect of CENC on the registers, without `DONE`. -/
def Engine.colourEnc (off : Half) (e : Engine) : Engine := e.setHalf off (encodeColour e.fit)

/-- The effect of CDEC on the registers, without `DONE`. -/
def Engine.colourDec (off : Half) (m3 : Bool) (e : Engine) : Engine :=
  { e with dpix := decodeColour m3 (e.half off) }

/-- CENC (R271). -/
def execCenc (off : Half) (s : State) : Host.Outcome State Fault Refusal :=
  .next (s.completeWith (Engine.colourEnc off))

/-- CDEC (R280). -/
def execCdec (off : Half) (m3 : Bool) (s : State) : Host.Outcome State Fault Refusal :=
  .next (s.completeWith (Engine.colourDec off m3))

end Sys2Proof.Machine
end

