-- ==== Sys2Proof/Machine/ColourSet.lean ====
section
/-!
DEFINITION. The Colour Set unit and its command CSBUILD (R170 to R179).
-/
namespace Sys2Proof.Machine

/-- A colour of the set while it is built: its channels, its occurrence count and the sum of its alphas (R172). -/
structure SetEntry where
  rgb : Rgb8
  n : Nat
  asum : Nat
deriving DecidableEq, Repr

/-- The set while it is built: its entries in order of first occurrence, and the remap of the pixels seen so far. -/
structure SetBuilder where
  entries : List SetEntry
  remap : List (Option (Fin 16))
deriving DecidableEq, Repr

/-- A pixel is excluded exactly when `PT = 1` and its alpha is below the threshold (R173). -/
def excluded (pt : Bool) (p : Pixel) : Bool := pt && decide (p.a.toNat < Config.ptThreshold)

/-- The entry with one more pixel of the given alpha (R172). -/
def SetEntry.count (x : SetEntry) (a : Byte) : SetEntry := { x with n := x.n + 1, asum := x.asum + a.toNat }

/-- The first entry that carries the colour, alpha not compared (R175). -/
def SetBuilder.find (b : SetBuilder) (c : Rgb8) : Option Nat := b.entries.findIdx? fun x => x.rgb == c

/-- One pixel of R172: excluded, counted in the entry of its colour, or appended as a new entry. -/
def SetBuilder.add (pt : Bool) (b : SetBuilder) (p : Pixel) : SetBuilder :=
  if excluded pt p then { b with remap := b.remap ++ [none] }
  else
    match b.find p.rgb with
    | some j =>
        { entries := b.entries.modify j fun x => x.count p.a, remap := b.remap ++ [some (Fin.ofNat 16 j)] }
    | none =>
        { entries := b.entries ++ [⟨p.rgb, 1, p.a.toNat⟩],
          remap := b.remap ++ [some (Fin.ofNat 16 b.entries.length)] }

/-- The weight of an entry: its count, or the sum of its alphas over 255 in one rounding (R174). -/
def SetEntry.weight (wa : Bool) (x : SetEntry) : F32 :=
  if wa then fdiv (i2f (x.asum : Int)) f255 else i2f (x.n : Int)

/-- The registers of a built set: zero at and above the count (R172). -/
def SetBuilder.finish (wa : Bool) (b : SetBuilder) : ColourSet where
  count := Fin.ofNat 17 b.entries.length
  transp := b.remap.contains none
  rgb := tab16 fun j => (b.entries[j.val]?).elim Rgb8.zero fun x => x.rgb
  w := tab16 fun j => (b.entries[j.val]?).elim f0 fun x => x.weight wa
  remap := tab16 fun i => (b.remap[i.val]?).getD none

/-- `build`: the colour set of a block (R170, R172). -/
def buildSet (pt wa : Bool) (pix : Vector Pixel 16) : ColourSet :=
  (pix.toList.foldl (SetBuilder.add pt) ⟨[], []⟩).finish wa

/-- The effect of CSBUILD on the registers, without `DONE`. -/
def Engine.csBuild (pt wa : Bool) (e : Engine) : Engine := { e with cs := buildSet pt wa e.pix }

/-- CSBUILD (R171, R172). -/
def execCsbuild (pt wa : Bool) (s : State) : Host.Outcome State Fault Refusal :=
  .next (s.completeWith (Engine.csBuild pt wa))

end Sys2Proof.Machine
end

