-- ==== Sys2Proof/Machine/SingleColourFit.lean ====
section
/-!
DEFINITION. The single-colour tables `SCL` and the command FITSINGLE (R190 to R199). R192 defines the tables by a rule;
the listing of R382 and R383 is derived from it.
-/
namespace Sys2Proof.Machine

/-- The index choices of the tables: k = 0 (endpoint A) and k = 2 (the first interpolated level) (R191). -/
inductive IndexChoice where
  | k0 | k2
deriving DecidableEq, Repr

/-- The fit index of a choice. -/
def IndexChoice.idx : IndexChoice → BitVec 2
  | .k0 => 0#2
  | .k2 => 2#2

/-- `|a - b|` on non-negative integers. -/
def absDiff (a b : Nat) : Nat := a - b + (b - a)

/-- `lvl(n, L, k, s, e)`: the value a decoder reconstructs from the endpoint pair at the index choice (R192). -/
def scLevel (n : Nat) (lv : Levels) (k : IndexChoice) (s e : Nat) : Nat :=
  match k, lv with
  | .k0, _ => expandBits n s
  | .k2, .four => (2 * expandBits n s + expandBits n e) / 3
  | .k2, .three => (expandBits n s + expandBits n e) / 2

/-- The first member of a list of least error: a later one replaces the held one only when its error is strictly
smaller (R192). -/
def firstLeast {α : Type} (err : α → Nat) (best : α) : List α → α
  | [] => best
  | x :: xs => if err x < err best then firstLeast err x xs else firstLeast err best xs

/-- The candidate pairs of an index choice, in R192's order: equal endpoints for k = 0, else start outer, end inner. -/
def scPairs (n : Nat) : IndexChoice → List (Nat × Nat)
  | .k0 => (List.range (2 ^ n)).map fun s => (s, s)
  | .k2 => (List.range (2 ^ n)).flatMap fun s => (List.range (2 ^ n)).map fun e => (s, e)

/-- `RomRead(n, L, k, v)` = `SCL[n][L][k][v]`: the first pair of least error (R65, R192). -/
def romRead (n : Nat) (lv : Levels) (k : IndexChoice) (v : Nat) : Nat × Nat :=
  firstLeast (fun p => absDiff (scLevel n lv k p.1 p.2) v) (0, 0) (scPairs n k)

/-- The start and end endpoints of a colour at an index choice (R196). -/
def scEndpoints (lv : Levels) (k : IndexChoice) (c : Rgb8) : Rgb565 × Rgb565 :=
  let r := romRead 5 lv k c.r.toNat
  let g := romRead 6 lv k c.g.toNat
  let b := romRead 5 lv k c.b.toNat
  (⟨BitVec.ofNat 5 r.1, BitVec.ofNat 6 g.1, BitVec.ofNat 5 b.1⟩,
   ⟨BitVec.ofNat 5 r.2, BitVec.ofNat 6 g.2, BitVec.ofNat 5 b.2⟩)

/-- The level an index choice reconstructs: `Levels8(qa, qb, L)[k]` (R196). -/
def scColour (lv : Levels) (q : Rgb565 × Rgb565) : IndexChoice → Rgb8
  | .k0 => expand565 q.1
  | .k2 =>
    match lv with
    | .four => blendRgb 2 1 (expand565 q.1) (expand565 q.2)
    | .three => blendRgb 1 1 (expand565 q.1) (expand565 q.2)

/-- `d[k]`: the metric distance of a choice (R196). -/
def scDist (lv : Levels) (m : Vec3) (c : Rgb8) (k : IndexChoice) : F32 :=
  metricDist c (scColour lv (scEndpoints lv k c) k) m

/-- `kbest`: k = 2 only when its distance is strictly smaller (R196). -/
def scBest (lv : Levels) (m : Vec3) (c : Rgb8) : IndexChoice :=
  if flt (scDist lv m c .k2) (scDist lv m c .k0) then .k2 else .k0

/-- The effect of FITSINGLE on the registers, without `DONE`: "none" sets `SNA` and touches no `FIT_*` register;
otherwise `SNA` is cleared and the fit committed (R196). -/
def Engine.fitSingle (lv : Levels) (met : Metric) (e : Engine) : Engine :=
  if e.cs.count.val ≠ 1 then { e with status := e.status.setSna true }
  else
    let c := e.cs.rgb[0]
    let k := scBest lv (metricVec met) c
    let q := scEndpoints lv k c
    Engine.commit q.1 q.2 (Vector.replicate 16 k.idx) (fmul e.cs.w[0] (scDist lv (metricVec met) c k)) lv
      { e with status := e.status.setSna false }

/-- FITSINGLE (R195, R196). -/
def execFitsingle (lv : Levels) (met : Metric) (s : State) : Host.Outcome State Fault Refusal :=
  .next (s.completeWith (Engine.fitSingle lv met))

end Sys2Proof.Machine
end

