-- ==== Sys2Proof/Machine/Orchestrator.lean ====
section
/-!
DEFINITION. The Orchestrator: commands COMPRESS and DECOMPRESS as fixed sequences of the component operations (R340 to
R356).
-/
namespace Sys2Proof.Machine

/-- `FitDispatch`: Single-Colour Fit for a set of one colour, else the configured fit, an empty set always to Range Fit
(R344). -/
def Engine.fitDispatch (lv : Levels) (fit : FitQuality) (met : Metric) (pt : Bool) (ro : Nat) (e : Engine) :
    Engine :=
  if e.cs.count.val = 1 then e.fitSingle lv met
  else if fit = .rangeFit ∨ e.cs.count.val = 0 then e.fitRange lv met
  else e.fitCluster lv met pt ro

/-- The colour part of a block: set, fit, codec (R342). -/
def Engine.colourPart (lv : Levels) (fit : FitQuality) (met : Metric) (pt wa : Bool) (ro : Nat) (off : Half)
    (e : Engine) : Engine :=
  ((e.csBuild pt wa).fitDispatch lv fit met pt ro).colourEnc off

/-- An interpolated-alpha part of a block: fit, codec (R342). -/
def Engine.alphaPart (ch : Channel) (off : Half) (e : Engine) : Engine := (e.alphaFitCh ch).alphaEnc8 off

/-- `CLEN <- n` (R346). -/
def Engine.setLen (n : Nat) (e : Engine) : Engine := { e with clen := BitVec.ofNat 5 n }

/-- `CBLK8[8..15] <- 0` (R346). -/
def Engine.clearUpper (e : Engine) : Engine := e.setHalf .upper (Vector.replicate 8 0)

/-- `L = 3` exactly for punch-through (R343). -/
def levelsOfPt (pt : Bool) : Levels := if pt then .three else .four

/-- `compressBlock` (R340, R342): alpha bytes first for BC2 and BC3 (R117); punch-through for BC1 only (R343); channels
by R345; length by R346. -/
def Engine.compressBlock (f : Format) (fit : FitQuality) (met : Metric) (pt wa : Bool) (ro : Nat) (e : Engine) :
    Engine :=
  match f with
  | .bc1 => ((e.colourPart (levelsOfPt pt) fit met pt wa ro .lower).clearUpper).setLen (blockSize .bc1)
  | .bc2 => ((e.alphaEnc4 .lower).colourPart .four fit met false wa ro .upper).setLen (blockSize .bc2)
  | .bc3 => ((e.alphaPart .a .lower).colourPart .four fit met false wa ro .upper).setLen (blockSize .bc3)
  | .bc4 => ((e.alphaPart .r .lower).clearUpper).setLen (blockSize .bc4)
  | .bc5 => ((e.alphaPart .r .lower).alphaPart .g .upper).setLen (blockSize .bc5)

/-- Every decoded pixel opaque black: `DPIX[i] <- 0xFF000000` (R350, R351). -/
def Engine.fillOpaqueBlack (e : Engine) : Engine := { e with dpix := Vector.replicate 16 ⟨0, 0, 0, 255⟩ }

/-- `decompressBlock` (R340, R350): the colour half first, since CDEC writes all four channels. -/
def Engine.decompressBlock (f : Format) (e : Engine) : Engine :=
  match f with
  | .bc1 => e.colourDec .lower true
  | .bc2 => (e.colourDec .upper false).alphaDec4 .lower
  | .bc3 => (e.colourDec .upper false).alphaDec8 .lower .a
  | .bc4 => e.fillOpaqueBlack.alphaDec8 .lower .r
  | .bc5 => (e.fillOpaqueBlack.alphaDec8 .lower .r).alphaDec8 .upper .g

/-- COMPRESS: `UnsupportedFormat` before anything is written, else `compressBlock` (R342, R349). -/
def execCompress (fmt : FmtSel) (fit : FitQuality) (met : Metric) (pt wa : Bool) (ro : Nat) (s : State) :
    Host.Outcome State Fault Refusal :=
  match fmt with
  | .reserved _ => .next (s.raise .unsupportedFormat)
  | .supported f => .next (s.completeWith (Engine.compressBlock f fit met pt wa ro))

/-- DECOMPRESS: `UnsupportedFormat`, then `InvalidBlockLength`, each before anything is written, else `decompressBlock`
(R350, R352, R353). -/
def execDecompress (fmt : FmtSel) (s : State) : Host.Outcome State Fault Refusal :=
  match fmt with
  | .reserved _ => .next (s.raise .unsupportedFormat)
  | .supported f =>
    if s.eng.clen.toNat ≠ blockSize f then .next (s.raise .invalidBlockLength)
    else .next (s.completeWith (Engine.decompressBlock f))

end Sys2Proof.Machine
end

