-- ==== Sys2Proof/Machine/System.lean ====
section
/-!
DEFINITION. The system commands NOP, CLRERR, SRESET (R370 to R373).
-/
namespace Sys2Proof.Machine

/-- NOP: `DONE <- 1`, nothing else (R370). -/
def execNop (s : State) : Host.Outcome State Fault Refusal := .next (s.completeWith id)

/-- CLRERR: `ERR` and `CODE` cleared, `DONE <- 1` (R371). -/
def execClrerr (s : State) : Host.Outcome State Fault Refusal :=
  .next (s.completeWith fun e => { e with status := e.status.clearErr })

/-- SRESET: every register at its reset value, `DONE` included: the one command that completes without setting it
(R92, R372). -/
def execSreset (s : State) : Host.Outcome State Fault Refusal := .next { s with eng := Engine.reset }

end Sys2Proof.Machine
end

