-- ==== Sys2Proof/Machine/Dispatch.lean ====
section
/-!
DEFINITION. The meaning of every instruction, one arm per constructor (R92 step 3).
-/
namespace Sys2Proof.Machine

def exec (i : Instr) (s : State) : Host.Outcome State Fault Refusal :=
  match i with
  | .nop => Sys2Proof.Machine.execNop s
  | .clrerr => Sys2Proof.Machine.execClrerr s
  | .sreset => Sys2Proof.Machine.execSreset s
  | .compress fmt fit met pt wa ro => Sys2Proof.Machine.execCompress fmt fit met pt wa ro s
  | .decompress fmt => Sys2Proof.Machine.execDecompress fmt s
  | .csbuild pt wa => Sys2Proof.Machine.execCsbuild pt wa s
  | .fitsingle lv met => Sys2Proof.Machine.execFitsingle lv met s
  | .fitrange lv met => Sys2Proof.Machine.execFitrange lv met s
  | .fitcluster lv met pt ro => Sys2Proof.Machine.execFitcluster lv met pt ro s
  | .cenc off => Sys2Proof.Machine.execCenc off s
  | .cdec off m3 => Sys2Proof.Machine.execCdec off m3 s
  | .aenc4 off => Sys2Proof.Machine.execAenc4 off s
  | .adec4 off => Sys2Proof.Machine.execAdec4 off s
  | .afit ch => Sys2Proof.Machine.execAfit ch s
  | .aenc8 off => Sys2Proof.Machine.execAenc8 off s
  | .adec8 off ch => Sys2Proof.Machine.execAdec8 off ch s

end Sys2Proof.Machine
end

