-- ==== Sys2Proof/Machine/Access.lean ====
section
/-!
DEFINITION. What one host write does: the command a write to `CMD` starts, or the register it writes (R63, R64, R92).
-/
namespace Sys2Proof.Machine

/-- `HostWrite(0x000, w)` once accepted: the word is decoded and its instruction executed, or `IllegalCommand` raised
(R92). -/
def runCommand (w : Word) (s : State) : Host.Outcome State Fault Refusal :=
  match decode w with
  | .ok i => exec i s
  | .error _ => .next (s.raise .illegalCommand)

/-- An accepted or refused `HostWrite` (R63, R64): to `CMD` it runs the command, to another register it writes it, and
to no register it changes nothing and is answered `BUSERR`. -/
def hostWrite (off width : Nat) (v : Word) (rest : List HostEvent) (s : State) :
    Host.Outcome State Fault Refusal :=
  match accessReg off width with
  | none => .next (s.answered rest .busErr)
  | some .cmd => runCommand v (s.answered rest .ok)
  | some r => .next { s.answered rest .ok with eng := s.eng.writeReg r v }

end Sys2Proof.Machine
end

