-- ==== Sys2Proof/Machine/Step.lean ====
section
/-!
DEFINITION. One step: the host's next access to the window, with the whole command a write to `CMD` starts (R60, R71,
R450), or the platform's reset between steps (R441).
-/
namespace Sys2Proof.Machine

/-- The step. With no access pending nothing happens: the state stays as it is (R60, decision D47). -/
def step (s : State) : Host.Outcome State Fault Refusal :=
  match s.pending with
  | [] => .next s
  | .read off width :: rest => .next (s.answered rest (s.eng.hostRead off width))
  | .write off width v :: rest => hostWrite off width v rest s
  | .reset :: rest => .next { s with eng := Engine.reset, pending := rest }

/-- The state with a write of the command word to `CMD` as the host's next access: where the engine takes its next
instruction from (R37, R81). -/
def State.withFetchWord (s : State) (nbits w : Nat) : State :=
  { s with pending := .write (Reg.offset .cmd) Config.regWidth (BitVec.ofNat 32 (w % 2 ^ nbits)) :: s.pending }

end Sys2Proof.Machine
end

