-- ==== Sys2Proof/Machine/Platform.lean ====
section
/-!
DEFINITION. Several engines on one chip (R10, R58, R74, R432): independent copies of the machine, interleaved in any way,
each with its own window in the host's address space.
-/
namespace Sys2Proof.Machine

/-- The engines of a chip, engine 0 first. Each is a whole `State`: they share the constant tables and nothing else
(R58, R433). -/
structure Platform where
  engines : List State
deriving DecidableEq, Repr

/-- A chip of `n` engines right after reset: each is ready, with no start-up protocol (R432). -/
def Platform.reset (n : Nat) : Platform := ⟨List.replicate n State.reset⟩

/-- This chip right after reset (R10). -/
def Platform.chipReset : Platform := Platform.reset Config.instances

/-- One step of engine `k`. A number without an engine has none. -/
def Platform.stepAt (k : Nat) (p : Platform) : Host.Outcome Platform Fault Refusal :=
  match p.engines[k]? with
  | none => .next p
  | some s =>
    match step s with
    | .next s' => .next ⟨p.engines.set k s'⟩
    | .fault r => .fault r
    | .refused r => .refused r

/-- Whether the window mapped at `b` holds an address (R48). -/
def inWindow (b addr : Nat) : Bool := decide (b ≤ addr) && decide (addr < b + Config.windowSize)

/-- The engine and the window offset an address of the host selects, for `n` windows mapped by `base` (R74). -/
def locate (base : Nat → Nat) (n addr : Nat) : Option (Nat × Nat) :=
  ((List.range n).find? fun k => inWindow (base k) addr).map fun k => (k, addr - base k)

/-- What a mapping must satisfy (D41): windows 4-byte aligned and not overlapping. -/
def mappingOk (base : Nat → Nat) (n : Nat) : Prop :=
  (∀ k, k < n → base k % 4 = 0) ∧
  ∀ j k, j < n → k < n → j ≠ k → base j + Config.windowSize ≤ base k ∨ base k + Config.windowSize ≤ base j

/-- The engine and offset an address selects on this chip. -/
def chipLocate (addr : Nat) : Option (Nat × Nat) := locate Config.base Config.instances addr

end Sys2Proof.Machine
end

