-- ==== Sys2Proof/Machine/Script.lean ====
section
/-!
DEFINITION. The script lines and pseudo-commands of R100 and R101 as host events: how a host program reaches the engine.
-/
namespace Sys2Proof.Machine

/-- `WR <reg>, v` (R100). -/
def wr (r : Reg) (v : Word) : HostEvent := .write r.offset Config.regWidth v

/-- `RD <reg>` (R100). -/
def rd (r : Reg) : HostEvent := .read r.offset Config.regWidth

/-- `<MNEMONIC> [f=v] ...`: a write of the command word to `CMD`, unnamed fields 0 (R100). -/
def command (i : Instr) : HostEvent := wr .cmd (encode i)

/-- `LDPIX i, r, g, b, a` (R101). -/
def ldpix (i : Fin 16) (p : Pixel) : HostEvent := wr (.pix i) p.toWord

/-- `LDPIXALL r, g, b, a` (R101). -/
def ldpixAll (p : Pixel) : List HostEvent := idx16.map fun i => ldpix i p

/-- `LDBLK8 b0 .. b7` (R101). -/
def ldblk8 (b : Vector Byte 8) : List HostEvent :=
  [wr (.cblk 0) (wordOfBytes b[0] b[1] b[2] b[3]), wr (.cblk 1) (wordOfBytes b[4] b[5] b[6] b[7]), wr .clen 8#32]

/-- `LDBLK16 b0 .. b15` (R101). -/
def ldblk16 (b : Vector Byte 16) : List HostEvent :=
  [wr (.cblk 0) (wordOfBytes b[0] b[1] b[2] b[3]), wr (.cblk 1) (wordOfBytes b[4] b[5] b[6] b[7]),
   wr (.cblk 2) (wordOfBytes b[8] b[9] b[10] b[11]), wr (.cblk 3) (wordOfBytes b[12] b[13] b[14] b[15]),
   wr .clen 16#32]

/-- The machine with the lines of a script as the host's next accesses, in their order (R37, R78). -/
def State.withScript (s : State) (lines : List HostEvent) : State := { s with pending := lines ++ s.pending }

end Sys2Proof.Machine
end

