-- ==== Sys2Proof/Safety.lean ====
section
/-!
DEFINITION. The terms the statements about the engine are written in: what a legal state is, which registers a command may
write, which errors it can raise, and the component scripts COMPRESS and DECOMPRESS stand for.
-/
namespace Sys2Proof.Machine

/-! ### Legal states -/

/-- R411: `CODE` is not 0 exactly when `ERR` is 1, and it is one of 0, 1, 2, 4. -/
def Status.Legal (st : Status) : Prop :=
  (st.code ≠ 0#4 ↔ st.err = true) ∧ (st.code = 0#4 ∨ st.code = 1#4 ∨ st.code = 2#4 ∨ st.code = 4#4)

/-- 16.0, the largest weight of a colour (R31). -/
def f16 : F32 := 0x41800000#32

/-- The clauses of R31 about a remap entry and about the empty set: the two that the reset registers break. -/
structure ColourSet.Indexed (cs : ColourSet) : Prop where
  remap_lt : ∀ i j : Fin 16, cs.remap[i] = some j → j.val < cs.count.val
  empty_iff : cs.count.val = 0 ↔ ∀ i : Fin 16, cs.remap[i] = none

/-- The colour set of a reachable state (R31), with R29's zeros at and above the count. The clauses of `Indexed` hold, or
the set is empty with every remap entry 0, which is how reset leaves it (log entry 8). That the count is at most 16 is
in its type. -/
structure ColourSet.Legal (cs : ColourSet) : Prop where
  transp_iff : cs.transp = true ↔ ∃ i : Fin 16, cs.remap[i] = none
  remap_onto : ∀ j : Fin 16, j.val < cs.count.val → ∃ i : Fin 16, cs.remap[i] = some j
  colours_differ : ∀ i j : Fin 16, i.val < cs.count.val → j.val < cs.count.val → cs.rgb[i] = cs.rgb[j] → i = j
  weights : ∀ j : Fin 16, f32IsFinite cs.w[j] = true ∧ flt cs.w[j] f0 = false ∧ flt f16 cs.w[j] = false
  zero_above : ∀ j : Fin 16, cs.count.val ≤ j.val → cs.rgb[j] = Rgb8.zero ∧ cs.w[j] = f0
  indexed : cs.Indexed ∨ cs.count.val = 0 ∧ ∀ i : Fin 16, cs.remap[i] = some 0

/-- Two engines hold the same in every register but `STATUS`. -/
def Engine.sameData (e e' : Engine) : Prop := { e with status := e'.status } = e'

/-- The finite f32 `r` is nearest to `num / den` units of 2^-149: no finite f32 is nearer, and where one of another value
is equally near, the last bit of `r` is 0 (R131). -/
def isNearest (den num : Int) (r : F32) : Prop :=
  ∀ x : F32, f32IsFinite x = true →
    (f32Val r * den - num).natAbs ≤ (f32Val x * den - num).natAbs ∧
    ((f32Val r * den - num).natAbs = (f32Val x * den - num).natAbs → f32Val x = f32Val r ∨ r.toNat % 2 = 0)

/-- The sign bit `neg` on the 31 bits of an infinity. -/
def signedInf (neg : Bool) : F32 := if neg then 0xFF800000#32 else 0x7F800000#32

/-- The sign bit `neg` on a zero. -/
def signedZero (neg : Bool) : F32 := if neg then 0x80000000#32 else 0x00000000#32

/-! ### The terms of the colour fits -/

/-- The f32 sum of a term over entries, from +0.0, each addition rounded (R215, R216). -/
def sumOver (es : List (Fin 16)) (term : Fin 16 → F32) : F32 := es.foldl (fun acc i => fadd acc (term i)) f0

/-- `(wx, wy, wz)` of one round of the power iteration (R217). -/
def axisProduct (c : Sym3) (v : Vec3) : Vec3 :=
  ⟨fadd (fadd (fmul c.xx v.x) (fmul c.xy v.y)) (fmul c.xz v.z),
   fadd (fadd (fmul c.xy v.x) (fmul c.yy v.y)) (fmul c.yz v.z),
   fadd (fadd (fmul c.xz v.x) (fmul c.yz v.y)) (fmul c.zz v.z)⟩

/-- The fit of one candidate, an order and a split of it; none where the split is skipped (R247 to R250). -/
def candidateFit (cs : ColourSet) (lv : Levels) (m : Vec3) (x : List (Fin 16) × Cuts) : Option FitCore :=
  evalSplit cs x.1 (prefixSums cs GroupAcc.zero x.1) lv m x.2

/-- Every split of an order, in enumeration order (R252). -/
def candidatesOf (lv : Levels) (pt : Bool) (o : List (Fin 16)) : List (List (Fin 16) × Cuts) :=
  (splits lv pt o.length).map fun c => (o, c)

/-- Every candidate of one re-ordering pass, in enumeration order: the interior cuts ascending, for each the order with
its two neighbours exchanged (R253). -/
def passCandidates (lv : Levels) (pt : Bool) (x : List (Fin 16) × Cuts) : List (List (Fin 16) × Cuts) :=
  (interiorCuts x.1.length x.2).flatMap fun p => candidatesOf lv pt (swapAt x.1 p)

/-- What a search of the candidates leaves of the incumbent `b` (R251, R252): `b` itself when no candidate's error is
below its own; else the candidate found first among those of least error. An error that is a NaN is below none. -/
def KeepsFirstBest (cs : ColourSet) (lv : Levels) (m : Vec3) (xs : List (List (Fin 16) × Cuts)) (b b' : Best) : Prop :=
  (b' = b ∧ ∀ x ∈ xs, ∀ f, candidateFit cs lv m x = some f → flt f.err b.fit.err = false) ∨
  ∃ before x after f, xs = before ++ x :: after ∧ candidateFit cs lv m x = some f ∧ b' = ⟨f, some x⟩ ∧
    flt f.err b.fit.err = true ∧
    (∀ y ∈ before, ∀ g, candidateFit cs lv m y = some g → flt f.err g.err = true ∨ f32IsNaN g.err = true) ∧
    (∀ y ∈ after, ∀ g, candidateFit cs lv m y = some g → flt g.err f.err = false)

/-- What at most `ro` re-ordering passes make of the incumbent `b` (R253): none is made for the seed, which has no order;
a pass searches the candidates of the incumbent at its start; a pass that replaces nothing is the last. -/
def PassesKeep (cs : ColourSet) (lv : Levels) (pt : Bool) (m : Vec3) : Nat → Best → Best → Prop
  | 0, b, b' => b' = b
  | ro + 1, b, b' =>
    match b.part with
    | none => b' = b
    | some x =>
      (KeepsFirstBest cs lv m (passCandidates lv pt x) b b ∧ b' = b) ∨
      ∃ c, c ≠ b ∧ KeepsFirstBest cs lv m (passCandidates lv pt x) b c ∧ PassesKeep cs lv pt m ro c b'

/-! ### Which registers a command writes -/

/-- `FIT_A`, `FIT_B`, `FIT_IDX`, `FIT_LV`, `FIT_ERR`. -/
def Reg.isFit : Reg → Bool
  | .fitErr => true
  | .fitA _ => true
  | .fitB _ => true
  | .fitIdx => true
  | .fitLv => true
  | _ => false

/-- `AF_END`, `AF_K0`, `AF_K1`. -/
def Reg.isAlphaFit : Reg → Bool
  | .afEnd => true
  | .afK0 => true
  | .afK1 => true
  | _ => false

/-- `CS_INFO`, `CS_REMAP`, `CS_RGB`, `CS_W`. -/
def Reg.isColourSet : Reg → Bool
  | .csInfo => true
  | .csRemap _ => true
  | .csRgb _ => true
  | .csW _ => true
  | _ => false

/-- A `CBLK` word. -/
def Reg.isBlock : Reg → Bool
  | .cblk _ => true
  | _ => false

/-- The two `CBLK` words of a half (R26). -/
def Reg.isHalf (h : Half) : Reg → Bool
  | .cblk j => decide (j.val / 2 = halfBase h / 8)
  | _ => false

/-- A `DPIX` word. -/
def Reg.isDecoded : Reg → Bool
  | .dpix _ => true
  | _ => false

/-- The `writers` column of R21, narrowed for the codec commands to the half of `CBLK` that `OFF` names. -/
def commandWrites : Instr → Reg → Bool
  | .nop, r => r == .status
  | .clrerr, r => r == .status
  | .sreset, _ => true
  | .compress _ _ _ _ _ _, r =>
      r == .status || r == .clen || r.isFit || r.isAlphaFit || r.isColourSet || r.isBlock
  | .decompress _, r => r == .status || r.isDecoded
  | .csbuild _ _, r => r == .status || r.isColourSet
  | .fitsingle _ _, r => r == .status || r.isFit
  | .fitrange _ _, r => r == .status || r.isFit
  | .fitcluster _ _ _ _, r => r == .status || r.isFit
  | .cenc off, r => r == .status || r.isHalf off
  | .cdec _ _, r => r == .status || r.isDecoded
  | .aenc4 off, r => r == .status || r.isHalf off
  | .adec4 _, r => r == .status || r.isDecoded
  | .afit _, r => r == .status || r.isAlphaFit
  | .aenc8 off, r => r == .status || r.isHalf off
  | .adec8 _ _, r => r == .status || r.isDecoded

/-- The host's side is as before, and every register outside `W` reads as before. -/
def SameExcept (W : Reg → Bool) (s t : State) : Prop :=
  t.pending = s.pending ∧ t.answer = s.answer ∧ ∀ r : Reg, W r = false → t.eng.readReg r = s.eng.readReg r

/-- The bits of a command word its instruction depends on: the opcode, the reserved bits and the fields its row of R96
lists. -/
def usedBits : Instr → Word
  | .nop => 0xFF0000FF#32
  | .clrerr => 0xFF0000FF#32
  | .sreset => 0xFF0000FF#32
  | .compress _ _ _ _ _ _ => 0xFF0F7FFF#32
  | .decompress _ => 0xFF0007FF#32
  | .csbuild _ _ => 0xFF0060FF#32
  | .fitsingle _ _ => 0xFF0090FF#32
  | .fitrange _ _ => 0xFF0090FF#32
  | .fitcluster _ _ _ _ => 0xFF0FB0FF#32
  | .cenc _ => 0xFF4000FF#32
  | .cdec _ _ => 0xFFC000FF#32
  | .aenc4 _ => 0xFF4000FF#32
  | .adec4 _ => 0xFF4000FF#32
  | .afit _ => 0xFF3000FF#32
  | .aenc8 _ => 0xFF4000FF#32
  | .adec8 _ _ => 0xFF7000FF#32

/-- The 16 opcode bytes of R96. -/
def opcodeBytes : List (BitVec 8) :=
  [0x00#8, 0x01#8, 0x02#8, 0x10#8, 0x11#8, 0x20#8, 0x21#8, 0x22#8, 0x23#8, 0x28#8, 0x29#8, 0x30#8, 0x31#8, 0x32#8,
   0x33#8, 0x34#8]

/-- Every word with the opcode byte `op` and no reserved bit set is the instruction `f` reads from its fields. -/
def selects (op : BitVec 8) (f : Word → Instr) : Prop :=
  ∀ w : Word, w.extractLsb' 0 8 = op → w.extractLsb' 24 8 = 0#8 → decode w = .ok (f w)

/-- The bits a host write stores in a register; the others stay zero (R21, R45). -/
def Reg.storedBits : Reg → Word
  | .clen => 0x0000001F#32
  | .fitLv => 0x00000001#32
  | .afEnd => 0x0000FFFF#32
  | .afK0 => 0x00FFFFFF#32
  | .afK1 => 0x00FFFFFF#32
  | _ => 0xFFFFFFFF#32

/-! ### Which errors a command raises -/

/-- The columns of R402, for a word that decodes: the kind a command raises in a state, if any. -/
def raisesIn (i : Instr) (s : State) : Option ErrorKind :=
  match i with
  | .compress (.reserved _) _ _ _ _ _ => some .unsupportedFormat
  | .decompress (.reserved _) => some .unsupportedFormat
  | .decompress (.supported f) => if s.eng.clen.toNat = blockSize f then none else some .invalidBlockLength
  | _ => none

/-! ### Sequences of commands -/

/-- The next outcome after a step that completed. -/
def andThen (o : Host.Outcome State Fault Refusal) (f : State → Host.Outcome State Fault Refusal) :
    Host.Outcome State Fault Refusal :=
  match o with
  | .next s => f s
  | .fault r => .fault r
  | .refused r => .refused r

/-- Commands executed one after the other. -/
def runAll : List Instr → State → Host.Outcome State Fault Refusal
  | [], s => .next s
  | i :: is, s => andThen (exec i s) (runAll is)

/-- The fit command R344 chooses for a colour set of `n` colours. -/
def fitCommand (lv : Levels) (fit : FitQuality) (met : Metric) (pt : Bool) (ro n : Nat) : Instr :=
  if n = 1 then .fitsingle lv met
  else if fit = .rangeFit ∨ n = 0 then .fitrange lv met
  else .fitcluster lv met pt ro

/-- CSBUILD, the fit command for the set it built, CENC (R342). -/
def colourScript (lv : Levels) (fit : FitQuality) (met : Metric) (pt wa : Bool) (ro : Nat) (off : Half) (s : State) :
    Host.Outcome State Fault Refusal :=
  andThen (exec (.csbuild pt wa) s) fun u =>
    runAll [fitCommand lv fit met pt ro u.eng.cs.count.val, .cenc off] u

/-- The component commands of R342, in its order, with the operands it shows. -/
def compressScript (f : Format) (fit : FitQuality) (met : Metric) (pt wa : Bool) (ro : Nat) (s : State) :
    Host.Outcome State Fault Refusal :=
  match f with
  | .bc1 => colourScript (if pt then .three else .four) fit met pt wa ro .lower s
  | .bc2 => andThen (runAll [.aenc4 .lower] s) (colourScript .four fit met false wa ro .upper)
  | .bc3 => andThen (runAll [.afit .a, .aenc8 .lower] s) (colourScript .four fit met false wa ro .upper)
  | .bc4 => runAll [.afit .r, .aenc8 .lower] s
  | .bc5 => runAll [.afit .r, .aenc8 .lower, .afit .g, .aenc8 .upper] s

/-- The sixteen bytes of a block of which only the first eight count: the others 0 (R346). -/
def lowerOnly (b : Vector Byte 16) : Vector Byte 16 := tab16 fun k => if k.val < 8 then b[k] else 0#8

/-- Every decoded pixel 0xFF000000 (R350). -/
def State.blackened (s : State) : State :=
  { s with eng := { s.eng with dpix := tab16 fun _ => ⟨0, 0, 0, 255⟩ } }

/-- The component commands of R350, in its order, with the operands it shows. -/
def decompressScript (f : Format) (s : State) : Host.Outcome State Fault Refusal :=
  match f with
  | .bc1 => runAll [.cdec .lower true] s
  | .bc2 => runAll [.cdec .upper false, .adec4 .lower] s
  | .bc3 => runAll [.cdec .upper false, .adec8 .lower .a] s
  | .bc4 => runAll [.adec8 .lower .r] s.blackened
  | .bc5 => runAll [.adec8 .lower .r, .adec8 .upper .g] s.blackened

/-! ### The wire layouts -/

/-- The wire index of pixel `i` in a colour block (R110). -/
def wireIndex2 (y : Vector Byte 8) (i : Fin 16) : Nat := y[4 + i.val / 4].toNat / 4 ^ (i.val % 4) % 4

/-- The 4-bit value of pixel `i` in an explicit alpha block (R113). -/
def wireNibble (y : Vector Byte 8) (i : Fin 16) : Nat := y[i.val / 2].toNat / 16 ^ (i.val % 2) % 16

/-- The wire index of pixel `i` in an interpolated alpha block (R115). -/
def wireIndex3 (y : Vector Byte 8) (i : Fin 16) : Nat :=
  (y[2].toNat + 2 ^ 8 * y[3].toNat + 2 ^ 16 * y[4].toNat + 2 ^ 24 * y[5].toNat + 2 ^ 32 * y[6].toNat
    + 2 ^ 40 * y[7].toNat) / 8 ^ i.val % 8

/-- The value `k` sevenths of the way from `lo` to `hi`, truncated (R307). -/
def linearLevel (lo hi : Byte) (k : Nat) : Nat := ((7 - k) * lo.toNat + k * hi.toNat) / 7

/-- The code a wire index selects for the endpoints `a0`, `a1` (R312). -/
def wireCode (a0 a1 w : Nat) : Nat :=
  if w = 0 then a0 else if w = 1 then a1
  else if a1 < a0 then ((8 - w) * a0 + (w - 1) * a1) / 7
  else if w = 6 then 0 else if w = 7 then 255 else ((6 - w) * a0 + (w - 1) * a1) / 5

/-- The distance of two integers. -/
def natDist (a b : Nat) : Nat := a - b + (b - a)

end Sys2Proof.Machine
end

