-- ==== Sys2Proof/Certificates/Slice0/Obligations.lean ====
section
/-!
DEFINITION. The statements about the engine, one `def Obligations.<Name> : Prop` each. A docstring names the rule of spec/
a statement formalises; where it rests on an inference the spec marks as its own, or on a choice of the model, it says so.
-/

open Sys2Proof Sys2Proof.Machine

/-! ### The command word (30_encoding.md) -/

/-- Decode and encode agree: every well-formed instruction, with every operand at every value its field admits, is what
the decoder reads from its word (R91, R94, R96). -/
def Obligations.DecodeOfEncodeIsTheInstruction : Prop :=
  ∀ i : Instr, i.wf = true → decode (encode i) = .ok i

/-- R93: a field the opcode's row does not list is ignored. Two words that agree on the bits of the row, the opcode and
the reserved bits decode to one instruction; and only those last two can keep a word from decoding. -/
def Obligations.UnlistedFieldsAreIgnored : Prop :=
  (∀ (w w' : Word) (i : Instr), decode w = .ok i → w' &&& usedBits i = w &&& usedBits i → decode w' = .ok i) ∧
  (∀ w : Word, (∃ i, decode w = .ok i) ↔ w.extractLsb' 24 8 = 0#8 ∧ w.extractLsb' 0 8 ∈ opcodeBytes)

/-- What a word decodes to is an instruction that a word can carry, and what is illegal is named by its cause, the
reserved bits first (R92 steps 1 and 2). -/
def Obligations.DecodeIsTotalAndNamesTheCause : Prop :=
  ∀ w : Word,
    (∀ i, decode w = .ok i → i.wf = true) ∧
    (decode w = .error .reservedBits ↔ w.extractLsb' 24 8 ≠ 0#8) ∧
    (decode w = .error .unknownOpcode ↔ w.extractLsb' 24 8 = 0#8 ∧ w.extractLsb' 0 8 ∉ opcodeBytes)

/-- Words written out from R91 and R96, one of each family and one with every ignored bit set. -/
def Obligations.SampleWordsDecode : Prop :=
  decode 0x00FFFF00#32 = .ok .nop ∧
  decode 0x00004A10#32 = .ok (.compress (.supported .bc3) .clusterFit .uniform false true 0) ∧
  decode 0x00000711#32 = .ok (.decompress (.reserved 7)) ∧
  decode 0x00006020#32 = .ok (.csbuild true true) ∧
  decode 0x00009021#32 = .ok (.fitsingle .three .perceptual) ∧
  decode 0x00001022#32 = .ok (.fitrange .four .perceptual) ∧
  decode 0x0003A023#32 = .ok (.fitcluster .three .uniform true 3) ∧
  decode 0x00400028#32 = .ok (.cenc .upper) ∧
  decode 0x00C00029#32 = .ok (.cdec .upper true) ∧
  decode 0x00400030#32 = .ok (.aenc4 .upper) ∧
  decode 0x00200032#32 = .ok (.afit .b) ∧
  decode 0x00500034#32 = .ok (.adec8 .upper .g) ∧
  decode 0x01000710#32 = .error .reservedBits ∧
  decode 0x00000012#32 = .error .unknownOpcode

/-- R92: a write of an illegal word to `CMD` raises `IllegalCommand`: the access is answered, `STATUS` records the raise,
no other register changes. -/
def Obligations.IllegalWordsRaiseIllegalCommand : Prop :=
  ∀ (s : State) (w : Word) (rest : List HostEvent), s.pending = .write 0x000 32 w :: rest →
    w.extractLsb' 24 8 ≠ 0#8 ∨ w.extractLsb' 0 8 ∉ opcodeBytes →
    ∃ t, step s = .next t ∧ t.pending = rest ∧ t.answer = some .ok ∧
      t.eng.status = ⟨false, true, s.eng.status.sna, if s.eng.status.err then s.eng.status.code else 4#4⟩ ∧
      s.eng.sameData t.eng

/-! ### The step and the register window (20_memory.md, 70_reset_and_hazards.md) -/

/-- A step runs the decoded instruction: when the host's next access is a 32-bit write of `w` to `CMD` and `w` decodes to
`i`, the step is `exec i` in the state with that access taken and answered `OK`; and so it runs the word of any
well-formed instruction put where the step takes its next one from (R92, R450). That the accesses to come wait in `pending`
is the model's choice, log entry 1. -/
def Obligations.StepRunsTheDecodedInstruction : Prop :=
  (∀ (s : State) (w : Word) (i : Instr) (rest : List HostEvent), s.pending = .write 0x000 32 w :: rest →
    decode w = .ok i → step s = exec i { s with pending := rest, answer := some .ok }) ∧
  (∀ (s : State) (i : Instr), i.wf = true →
    step (s.withFetchWord 32 (encode i).toNat) = exec i { s with answer := some .ok })

/-- Every step terminates in a next state: no fault, no refusal, whatever the state (R450); and a hardware reset between two
accesses leaves the reset engine (R441). That a refused access is a next state with its answer, and that hardware reset is
an event among the host's accesses, are the model's choices, log entries 2 and 6. -/
def Obligations.EveryStepHasANextState : Prop :=
  (∀ s : State, ∃ t, step s = .next t) ∧
  (∀ (s : State) (rest : List HostEvent), s.pending = .reset :: rest →
    ∃ t, step s = .next t ∧ t.pending = rest ∧ t.eng = State.reset.eng)

/-- The offsets a register answers at are those of R21: a multiple of 4 below 0x180 and outside 0x0A0 to 0x0BC, each
register at one offset of its own (R64, R74). -/
def Obligations.WindowMapIsTheRegisterTable : Prop :=
  (∀ (off : Nat) (r : Reg), regAt off = some r ↔ r.offset = off) ∧
  (∀ off : Nat, (∃ r, regAt off = some r) ↔ off % 4 = 0 ∧ off < 0x180 ∧ ¬(0x0A0 ≤ off ∧ off ≤ 0x0BC))

/-- R64: an access that is not 32 bits wide, not aligned, in the hole or past the window is refused: it answers `BUSERR`,
with no value, and no engine state changes, not even `STATUS`. -/
def Obligations.RefusedAccessesAnswerBusErr : Prop :=
  ∀ (s : State) (off width : Nat) (v : Word) (rest : List HostEvent),
    off % 4 ≠ 0 ∨ (0x0A0 ≤ off ∧ off ≤ 0x0BC) ∨ 0x180 ≤ off ∨ width ≠ 32 →
    (s.pending = .read off width :: rest → step s = .next ⟨s.eng, rest, some .busErr⟩) ∧
    (s.pending = .write off width v :: rest → step s = .next ⟨s.eng, rest, some .busErr⟩)

/-- R63, reads: a 32-bit read of a register answers its content and changes nothing in the engine; `CMD` reads 0. The
content has the layout the spec gives it, bit by bit: `STATUS` (R40), `CLEN` (R27), the f32 registers (R32, R34, R29),
`FIT_IDX` (R33), `FIT_LV` (R34), `AF_END`, `AF_K0`, `AF_K1` (R36), `CS_INFO` (R28), `PIX` and `DPIX` with their channels
in the order r, g, b, a (R24, R25), `CBLK` (R26), `CS_REMAP` with the sentinel 0xFF (R30), `CS_RGB` (R29). -/
def Obligations.ReadsAnswerTheRegisterAndChangeNothing : Prop :=
  (∀ (s : State) (r : Reg) (rest : List HostEvent), s.pending = .read r.offset 32 :: rest →
    step s = .next ⟨s.eng, rest, some (.value (s.eng.readReg r))⟩) ∧
  ∀ e : Engine,
    e.readReg .cmd = 0#32 ∧
    ((e.readReg .status).extractLsb' 0 1 = BitVec.ofBool e.status.done ∧
      (e.readReg .status).extractLsb' 1 1 = BitVec.ofBool e.status.err ∧
      (e.readReg .status).extractLsb' 2 1 = BitVec.ofBool e.status.sna ∧
      (e.readReg .status).extractLsb' 3 1 = 0#1 ∧
      (e.readReg .status).extractLsb' 4 4 = e.status.code ∧
      (e.readReg .status).extractLsb' 8 24 = 0#24) ∧
    ((e.readReg .clen).extractLsb' 0 5 = e.clen ∧ (e.readReg .clen).extractLsb' 5 27 = 0#27) ∧
    e.readReg .fitErr = e.fit.err ∧
    (e.readReg (.fitA .r) = e.fit.a.x ∧ e.readReg (.fitA .g) = e.fit.a.y ∧ e.readReg (.fitA .b) = e.fit.a.z) ∧
    (e.readReg (.fitB .r) = e.fit.b.x ∧ e.readReg (.fitB .g) = e.fit.b.y ∧ e.readReg (.fitB .b) = e.fit.b.z) ∧
    (∀ i : Fin 16, (e.readReg .fitIdx).extractLsb' (2 * i.val) 2 = e.fit.idx[i]) ∧
    (e.fit.lv = .four → e.readReg .fitLv = 0#32) ∧ (e.fit.lv = .three → e.readReg .fitLv = 1#32) ∧
    ((e.readReg .afEnd).extractLsb' 0 8 = e.af.lo ∧ (e.readReg .afEnd).extractLsb' 8 8 = e.af.hi ∧
      (e.readReg .afEnd).extractLsb' 16 16 = 0#16) ∧
    (∀ i : Fin 16, i.val < 8 → (e.readReg .afK0).extractLsb' (3 * i.val) 3 = e.af.k[i]) ∧
    (∀ i : Fin 16, 8 ≤ i.val → (e.readReg .afK1).extractLsb' (3 * (i.val - 8)) 3 = e.af.k[i]) ∧
    ((e.readReg .afK0).extractLsb' 24 8 = 0#8 ∧ (e.readReg .afK1).extractLsb' 24 8 = 0#8) ∧
    (((e.readReg .csInfo).extractLsb' 0 5).toNat = e.cs.count.val ∧ (e.readReg .csInfo).extractLsb' 5 3 = 0#3 ∧
      (e.readReg .csInfo).extractLsb' 8 1 = BitVec.ofBool e.cs.transp ∧ (e.readReg .csInfo).extractLsb' 9 23 = 0#23) ∧
    (∀ i : Fin 16,
      (e.readReg (.pix i)).extractLsb' 0 8 = e.pix[i].r ∧ (e.readReg (.pix i)).extractLsb' 8 8 = e.pix[i].g ∧
      (e.readReg (.pix i)).extractLsb' 16 8 = e.pix[i].b ∧ (e.readReg (.pix i)).extractLsb' 24 8 = e.pix[i].a ∧
      (e.readReg (.dpix i)).extractLsb' 0 8 = e.dpix[i].r ∧ (e.readReg (.dpix i)).extractLsb' 8 8 = e.dpix[i].g ∧
      (e.readReg (.dpix i)).extractLsb' 16 8 = e.dpix[i].b ∧ (e.readReg (.dpix i)).extractLsb' 24 8 = e.dpix[i].a) ∧
    (∀ (i : Fin 16) (c : Channel),
      (e.readReg (.pix i)).extractLsb' (8 * (fieldOfCh c).toNat) 8 = e.pix[i].ch c ∧
      (e.readReg (.dpix i)).extractLsb' (8 * (fieldOfCh c).toNat) 8 = e.dpix[i].ch c) ∧
    (∀ k : Fin 16, (e.readReg (.cblk ⟨k.val / 4, by omega⟩)).extractLsb' (8 * (k.val % 4)) 8 = e.cblk[k]) ∧
    (∀ i : Fin 16,
      (e.cs.remap[i] = none →
        (e.readReg (.csRemap ⟨i.val / 4, by omega⟩)).extractLsb' (8 * (i.val % 4)) 8 = 0xFF#8) ∧
      (∀ j : Fin 16, e.cs.remap[i] = some j →
        ((e.readReg (.csRemap ⟨i.val / 4, by omega⟩)).extractLsb' (8 * (i.val % 4)) 8).toNat = j.val)) ∧
    ∀ i : Fin 16,
      (e.readReg (.csRgb i)).extractLsb' 0 8 = e.cs.rgb[i].r ∧ (e.readReg (.csRgb i)).extractLsb' 8 8 = e.cs.rgb[i].g ∧
      (e.readReg (.csRgb i)).extractLsb' 16 8 = e.cs.rgb[i].b ∧ (e.readReg (.csRgb i)).extractLsb' 24 8 = 0#8 ∧
      e.readReg (.csW i) = e.cs.w[i]

/-- R63, writes to a register other than `CMD`: the access is answered `OK`; a read/write register then reads the bits of
the value its layout stores, and 0 elsewhere; a read-only register reads as before; every other register reads as
before. -/
def Obligations.WritesStoreTheWritableBits : Prop :=
  ∀ (s : State) (r : Reg) (v : Word) (rest : List HostEvent), r ≠ .cmd →
    s.pending = .write r.offset 32 v :: rest →
    ∃ t, step s = .next t ∧ t.pending = rest ∧ t.answer = some .ok ∧
      (r.acc = .rw → t.eng.readReg r = v &&& r.storedBits) ∧
      (r.acc = .ro → t.eng = s.eng) ∧
      (∀ q : Reg, q ≠ r → t.eng.readReg q = s.eng.readReg q)

/-- R20: the registers of the window are the complete state of an engine: two engines that read the same at every
register are equal. -/
def Obligations.TheWindowShowsTheWholeEngine : Prop :=
  ∀ e e' : Engine, (∀ r : Reg, e.readReg r = e'.readReg r) → e = e'

/-! ### Reset (10_state.md, 70_reset_and_hazards.md) -/

/-- R22: after hardware reset and after SRESET every register reads 0. -/
def Obligations.ResetLeavesEveryRegisterZero : Prop :=
  (∀ r : Reg, State.reset.eng.readReg r = 0#32) ∧
  (∀ s : State, ∃ t, exec .sreset s = .next t ∧ ∀ r : Reg, t.eng.readReg r = 0#32)

/-! ### What a command may write -/

/-- The writers column of R21, for every command at once: what `exec` does not list it as writing reads as before, the
host's side too; the other half of `CBLK` is among what a codec command leaves. -/
def Obligations.CommandsWriteOnlyTheirRegisters : Prop :=
  ∀ (i : Instr) (s t : State), exec i s = .next t → SameExcept (commandWrites i) s t

/-- R402 and R92 step 4: a command raises exactly the kind the table gives it in that state; one that raises nothing
completes with `DONE` set, SRESET with all of `STATUS` zero. -/
def Obligations.CommandsRaiseWhatTheTableLists : Prop :=
  ∀ (i : Instr) (s : State),
    (∀ k, raisesIn i s = some k → exec i s = .next (s.raise k)) ∧
    (raisesIn i s = none → ∃ t, exec i s = .next t ∧
      (i = .sreset → t.eng.status = Status.reset) ∧ (i ≠ .sreset → t.eng.status.done = true))

/-! ### Errors (60_exceptions.md) -/

/-- R410: `raise` clears `DONE`; it records its code, and `ERR`, only when `ERR` was 0; `SNA` and every other register
keep their values; the host's side too. -/
def Obligations.RaiseRecordsTheFirstError : Prop :=
  ∀ (k : ErrorKind) (s : State),
    (s.raise k).eng.status.done = false ∧ (s.raise k).eng.status.err = true ∧
    (s.raise k).eng.status.sna = s.eng.status.sna ∧
    (s.eng.status.err = false → (s.raise k).eng.status.code = k.code) ∧
    (s.eng.status.err = true → (s.raise k).eng.status.code = s.eng.status.code) ∧
    SameExcept (fun r => r == .status) s (s.raise k)

/-- R413: the priority of the causes in one command word, highest first; a word none of them applies to raises nothing. -/
def Obligations.ErrorPriorityInOneWord : Prop :=
  ∀ (s : State) (w : Word) (rest : List HostEvent), s.pending = .write 0x000 32 w :: rest →
    if w.extractLsb' 24 8 ≠ 0#8 ∨ w.extractLsb' 0 8 ∉ opcodeBytes then
      step s = .next (State.raise .illegalCommand ⟨s.eng, rest, some .ok⟩)
    else if (w.extractLsb' 0 8 = 0x10#8 ∨ w.extractLsb' 0 8 = 0x11#8) ∧ 4 < (w.extractLsb' 8 3).toNat then
      step s = .next (State.raise .unsupportedFormat ⟨s.eng, rest, some .ok⟩)
    else if w.extractLsb' 0 8 = 0x11#8 ∧
        s.eng.clen.toNat ≠ (if w.extractLsb' 8 3 = 0#3 ∨ w.extractLsb' 8 3 = 3#3 then 8 else 16) then
      step s = .next (State.raise .invalidBlockLength ⟨s.eng, rest, some .ok⟩)
    else ∃ t, step s = .next t ∧ (w.extractLsb' 0 8 ≠ 0x02#8 → t.eng.status.done = true)

/-- The invariant of R411, kept by every step from every state: `CODE` is not 0 exactly when `ERR` is 1, and it is 0, 1,
2 or 4. -/
def Obligations.StatusStaysLegal : Prop :=
  ∀ s t : State, s.eng.status.Legal → step s = .next t → t.eng.status.Legal

/-- `STATUS` is legal at reset (R411, R440). -/
def Obligations.StatusIsLegalAtReset : Prop := State.reset.eng.status.Legal

/-- R411: the first error wins. While `ERR` is 1, a step leaves `ERR` and `CODE` alone unless it executes CLRERR or
SRESET or is the hardware reset, an event by the model's choice (log entry 6). -/
def Obligations.FirstErrorStaysRecorded : Prop :=
  ∀ s t : State, step s = .next t → s.eng.status.err = true →
    (t.eng.status.err = true ∧ t.eng.status.code = s.eng.status.code) ∨
    (∃ rest, s.pending = .reset :: rest) ∨
    (∃ w rest, s.pending = .write 0x000 32 w :: rest ∧ (decode w = .ok .clrerr ∨ decode w = .ok .sreset))

/-- R412 and R40: an error blocks nothing, and no command reads a flag: not `DONE`, `ERR`, `SNA` or `CODE`, nor `CS_TRANSP`.
From two states that differ in `STATUS` and `CS_TRANSP` alone, a command completes or raises alike and leaves the same in
every other register; `CS_TRANSP` and `SNA` it writes alike or not at all. -/
def Obligations.CommandsDoNotReadTheFlags : Prop :=
  ∀ (i : Instr) (s : State) (st : Status) (b : Bool),
    ∃ t t', exec i s = .next t ∧
      exec i { s with eng := { s.eng with status := st, cs := { s.eng.cs with transp := b } } } = .next t' ∧
      t'.pending = t.pending ∧ t'.answer = t.answer ∧
      (∀ r : Reg, r ≠ .status → r ≠ .csInfo → t'.eng.readReg r = t.eng.readReg r) ∧
      t'.eng.cs.count = t.eng.cs.count ∧
      (t'.eng.cs.transp = t.eng.cs.transp ∨ t.eng.cs.transp = s.eng.cs.transp ∧ t'.eng.cs.transp = b) ∧
      t'.eng.status.done = t.eng.status.done ∧
      (t'.eng.status.sna = t.eng.status.sna ∨ t.eng.status.sna = s.eng.status.sna ∧ t'.eng.status.sna = st.sna)

/-! ### System commands (48_system_commands.md) -/

/-- R370: NOP sets `DONE` and changes nothing else; bits [23:8] of its word are ignored, and with a reserved bit set it
raises `IllegalCommand`. -/
def Obligations.NopSetsOnlyDone : Prop :=
  (∀ s : State, exec .nop s = .next { s with eng := { s.eng with status := { s.eng.status with done := true } } }) ∧
  selects 0x00#8 (fun _ => .nop) ∧
  (∀ (s : State) (w : Word) (rest : List HostEvent), s.pending = .write 0x000 32 w :: rest →
    w.extractLsb' 0 8 = 0x00#8 → w.extractLsb' 24 8 ≠ 0#8 →
    step s = .next (State.raise .illegalCommand ⟨s.eng, rest, some .ok⟩))

/-- R371: CLRERR clears `ERR` and `CODE` and sets `DONE`; `SNA` and every other register stay; with a reserved bit set it
clears nothing. -/
def Obligations.ClrerrClearsTheRecord : Prop :=
  (∀ s : State, exec .clrerr s = .next { s with eng := { s.eng with status := ⟨true, false, s.eng.status.sna, 0#4⟩ } }) ∧
  selects 0x01#8 (fun _ => .clrerr) ∧
  (∀ (s : State) (w : Word) (rest : List HostEvent), s.pending = .write 0x000 32 w :: rest →
    w.extractLsb' 0 8 = 0x01#8 → w.extractLsb' 24 8 ≠ 0#8 →
    step s = .next (State.raise .illegalCommand ⟨s.eng, rest, some .ok⟩))

/-- R372: SRESET leaves exactly the engine of hardware reset, `DONE` included, and the host's side alone; a DECOMPRESS
after it raises `InvalidBlockLength`; with a reserved bit set nothing is reset. -/
def Obligations.SresetGivesTheResetEngine : Prop :=
  (∀ s : State, exec .sreset s = .next { s with eng := State.reset.eng }) ∧
  selects 0x02#8 (fun _ => .sreset) ∧
  (∀ (s : State) (f : Format), exec (.decompress (.supported f)) { s with eng := State.reset.eng }
    = .next (State.raise .invalidBlockLength { s with eng := State.reset.eng })) ∧
  (∀ (s : State) (w : Word) (rest : List HostEvent), s.pending = .write 0x000 32 w :: rest →
    w.extractLsb' 0 8 = 0x02#8 → w.extractLsb' 24 8 ≠ 0#8 →
    step s = .next (State.raise .illegalCommand ⟨s.eng, rest, some .ok⟩))

/-! ### Numerics (40_vector_math_numerics.md) -/

/-- Addition, subtraction, multiplication and division are correctly rounded to nearest, ties to even: when the operands and
the result are finite, and a divisor is not zero, no finite f32 is nearer to the exact value than the result, and if one
of another value is equally near the last bit of the result is 0 (R131, R132). Values are in units of 2^-149. -/
def Obligations.ArithmeticIsCorrectlyRounded : Prop :=
  ∀ a b : F32, f32IsFinite a = true → f32IsFinite b = true →
    (f32IsFinite (fadd a b) = true → isNearest 1 (f32Val a + f32Val b) (fadd a b)) ∧
    (f32IsFinite (fsub a b) = true → isNearest 1 (f32Val a - f32Val b) (fsub a b)) ∧
    (f32IsFinite (fmul a b) = true → isNearest (2 ^ 149) (f32Val a * f32Val b) (fmul a b)) ∧
    (f32Val b ≠ 0 → f32IsFinite (fdiv a b) = true → isNearest (f32Val b) (f32Val a * 2 ^ 149) (fdiv a b))

/-- What R131 and R132 say of the results that rounding does not settle. On finite operands no operation gives a NaN, but
zero over zero; a result is an infinity exactly when the exact value is at least half a unit above the largest finite f32,
or a value other than zero is divided by a zero; the sign of a sum or a difference other than zero is that of the exact
value, an exact zero is +0 but for -0 plus -0 and -0 minus +0; the sign of a product or a quotient is minus exactly when
the operands' signs differ, of a zero or an infinity too. On an infinite operand: infinities of opposite sign added or of
one sign subtracted, an infinity times a zero and an infinity over an infinity are NaN; any other sum or difference is
the infinity, a product or a quotient of an infinity is the infinity and a quotient by one is the zero, of the operands'
sign. An operand that is a NaN gives a NaN, and every NaN delivered is 0x7FC00000. -/
def Obligations.OverflowAndNanFollowTheFormat : Prop :=
  ∀ a b : F32,
    (f32IsFinite a = true → f32IsFinite b = true →
      (f32IsNaN (fadd a b) = false ∧
        (f32IsInf (fadd a b) = true ↔ (2 ^ 25 - 1) * 2 ^ 252 ≤ (f32Val a + f32Val b).natAbs) ∧
        (f32Val a + f32Val b ≠ 0 → f32Neg (fadd a b) = decide (f32Val a + f32Val b < 0)) ∧
        (f32Val a + f32Val b = 0 → fadd a b = signedZero (f32Neg a && f32Neg b))) ∧
      (f32IsNaN (fsub a b) = false ∧
        (f32IsInf (fsub a b) = true ↔ (2 ^ 25 - 1) * 2 ^ 252 ≤ (f32Val a - f32Val b).natAbs) ∧
        (f32Val a - f32Val b ≠ 0 → f32Neg (fsub a b) = decide (f32Val a - f32Val b < 0)) ∧
        (f32Val a - f32Val b = 0 → fsub a b = signedZero (f32Neg a && !f32Neg b))) ∧
      (f32IsNaN (fmul a b) = false ∧
        (f32IsInf (fmul a b) = true ↔ (2 ^ 25 - 1) * 2 ^ 401 ≤ (f32Val a * f32Val b).natAbs) ∧
        f32Neg (fmul a b) = (f32Neg a != f32Neg b)) ∧
      (f32Val b ≠ 0 → f32IsNaN (fdiv a b) = false ∧
        (f32IsInf (fdiv a b) = true ↔
          (2 ^ 25 - 1) * 2 ^ 252 * (f32Val b).natAbs ≤ (f32Val a).natAbs * 2 ^ 149) ∧
        f32Neg (fdiv a b) = (f32Neg a != f32Neg b)) ∧
      (f32Val b = 0 → f32Val a ≠ 0 → fdiv a b = signedInf (f32Neg a != f32Neg b)) ∧
      (f32Val b = 0 → f32Val a = 0 → fdiv a b = 0x7FC00000#32)) ∧
    (f32IsInf a = true → f32IsInf b = true →
      fadd a b = (if f32Neg a = f32Neg b then a else 0x7FC00000#32) ∧
      fsub a b = (if f32Neg a = f32Neg b then 0x7FC00000#32 else a) ∧
      fmul a b = signedInf (f32Neg a != f32Neg b) ∧ fdiv a b = 0x7FC00000#32) ∧
    (f32IsInf a = true → f32IsFinite b = true →
      fadd a b = a ∧ fsub a b = a ∧
      fmul a b = (if f32Val b = 0 then 0x7FC00000#32 else signedInf (f32Neg a != f32Neg b)) ∧
      fdiv a b = signedInf (f32Neg a != f32Neg b)) ∧
    (f32IsFinite a = true → f32IsInf b = true →
      fadd a b = b ∧ fsub a b = signedInf (!f32Neg b) ∧
      fmul a b = (if f32Val a = 0 then 0x7FC00000#32 else signedInf (f32Neg a != f32Neg b)) ∧
      fdiv a b = signedZero (f32Neg a != f32Neg b)) ∧
    (f32IsNaN a = true ∨ f32IsNaN b = true →
      fadd a b = 0x7FC00000#32 ∧ fsub a b = 0x7FC00000#32 ∧ fmul a b = 0x7FC00000#32 ∧ fdiv a b = 0x7FC00000#32)

/-- The conversions: an integer below 2^24 in magnitude has an f32 of exactly its value, and truncation gives it back
(R133; R136 P2). -/
def Obligations.SmallIntegersConvertExactly : Prop :=
  ∀ n : Int, -(2 ^ 24) < n → n < 2 ^ 24 → f32Val (i2f n) = n * 2 ^ 149 ∧ f2i (i2f n) = n

/-- The quantiser stays in range for every f32, NaN and infinities included, and gives a grid value back (R150; R136 P6:
the spec marks the range as its own inference from R135). -/
def Obligations.QuantiserIsInRangeAndKeepsTheGrid : Prop :=
  (∀ x : F32, quantize x 5 ≤ 31 ∧ quantize x 6 ≤ 63) ∧ (∀ q : Rgb565, q565 (grid q) = q)

/-- The quantiser on the 8-bit colours of a set, in integers: R151, which the spec marks as its own inference from
R150. -/
def Obligations.ColoursQuantiseByIntegers : Prop :=
  ∀ p : Rgb8,
    (q565 (col p)).r.toNat = (62 * p.r.toNat + 255) / 510 ∧ (q565 (col p)).g.toNat = (126 * p.g.toNat + 255) / 510 ∧
    (q565 (col p)).b.toNat = (62 * p.b.toNat + 255) / 510

/-- The uniform distance of two colours is the exact integer sum of squares: the inference of R152 from R136 P1. -/
def Obligations.UniformDistanceIsExact : Prop :=
  ∀ p q : Rgb8, metricDist p q (metricVec .uniform)
    = i2f ((natDist p.r.toNat q.r.toNat ^ 2 + natDist p.g.toNat q.g.toNat ^ 2 + natDist p.b.toNat q.b.toNat ^ 2 : Nat) : Int)

/-! ### The colour set (41_colour_set.md) -/

/-- CSBUILD, complete (R172 to R175): it completes in every state; it writes the colour-set registers and `DONE` alone; a
pixel is excluded exactly when punch-through is on and its alpha is below 128; every other pixel maps to the entry of its
colour; entries are distinct, all used, in order of first occurrence; a weight is the number of the entry's pixels, or
the sum of their alphas over 255 in one rounding; everything at and above the count is zero. -/
def Obligations.CsbuildCollectsTheDistinctColours : Prop :=
  ∀ (pt wa : Bool) (s : State), ∃ t, exec (.csbuild pt wa) s = .next t ∧
    SameExcept (commandWrites (.csbuild pt wa)) s t ∧
    t.eng.status = { s.eng.status with done := true } ∧
    (∀ i : Fin 16, t.eng.cs.remap[i] = none ↔ pt = true ∧ s.eng.pix[i].a.toNat < 128) ∧
    (t.eng.cs.transp = true ↔ ∃ i : Fin 16, t.eng.cs.remap[i] = none) ∧
    (∀ i j : Fin 16, t.eng.cs.remap[i] = some j → j.val < t.eng.cs.count.val ∧ t.eng.cs.rgb[j] = s.eng.pix[i].rgb) ∧
    (∀ j : Fin 16, j.val < t.eng.cs.count.val → ∃ i : Fin 16, t.eng.cs.remap[i] = some j) ∧
    (∀ j k : Fin 16, j < k → k.val < t.eng.cs.count.val → t.eng.cs.rgb[j] ≠ t.eng.cs.rgb[k]) ∧
    (∀ i j k : Fin 16, t.eng.cs.remap[i] = some k → j < k → ∃ h : Fin 16, h < i ∧ t.eng.cs.remap[h] = some j) ∧
    (∀ j : Fin 16, j.val < t.eng.cs.count.val → t.eng.cs.w[j] =
      if wa then
        fdiv (i2f (((idx16.filter fun i => t.eng.cs.remap[i] == some j).map fun i => s.eng.pix[i].a.toNat).sum : Nat)) f255
      else i2f ((idx16.filter fun i => t.eng.cs.remap[i] == some j).length : Nat)) ∧
    (∀ j : Fin 16, t.eng.cs.count.val ≤ j.val → t.eng.cs.rgb[j] = Rgb8.zero ∧ t.eng.cs.w[j] = f0)

/-- The invariant of R31, kept by every step from every state: every clause, or every clause but those about remap entries
and the empty set, with the set empty and the entries 0 as reset leaves them (R31 is the spec's own inference from R22
and R172; which clauses reset breaks is log entry 8). -/
def Obligations.ColourSetStaysLegal : Prop :=
  ∀ s t : State, s.eng.cs.Legal → step s = .next t → t.eng.cs.Legal

/-- Which clauses of R31 the reset registers meet, and which they break: the count is at most 16, `CS_TRANSP` agrees with
the remap entries, every entry of the set is used, the colours differ, every weight is finite and in range; but no remap
entry is the sentinel or below the count, and a count of 0 does not come with sixteen sentinels. So they meet the
invariant by its clause for reset alone (R31, the spec's own inference; that its words 'the last two clauses' mean these
two is log entry 8). -/
def Obligations.ResetColourSetBreaksTheRemapClauses : Prop :=
  State.reset.eng.cs.Legal ∧
  State.reset.eng.cs.count.val ≤ 16 ∧
  (State.reset.eng.cs.transp = true ↔ ∃ i : Fin 16, State.reset.eng.cs.remap[i] = none) ∧
  (∀ j : Fin 16, j.val < State.reset.eng.cs.count.val → ∃ i : Fin 16, State.reset.eng.cs.remap[i] = some j) ∧
  (∀ i j : Fin 16, i.val < State.reset.eng.cs.count.val → j.val < State.reset.eng.cs.count.val →
    State.reset.eng.cs.rgb[i] = State.reset.eng.cs.rgb[j] → i = j) ∧
  (∀ j : Fin 16, f32IsFinite State.reset.eng.cs.w[j] = true ∧ flt State.reset.eng.cs.w[j] f0 = false ∧
    flt f16 State.reset.eng.cs.w[j] = false) ∧
  (∀ i : Fin 16, State.reset.eng.cs.remap[i] ≠ none ∧
    ∀ j : Fin 16, State.reset.eng.cs.remap[i] = some j → ¬ j.val < State.reset.eng.cs.count.val) ∧
  State.reset.eng.cs.count.val = 0 ∧ ¬ State.reset.eng.cs.Indexed

/-! ### Single-colour fit (42_single_colour_fit.md) -/

/-- R192: a table entry is the first candidate pair, in the rule's order, of least absolute error; for k = 0 the pair of
one value with itself. -/
def Obligations.TableEntriesAreTheFirstOfLeastError : Prop :=
  ∀ (n : Nat) (lv : Levels) (v s e : Nat), n = 5 ∨ n = 6 → v < 256 → s < 2 ^ n → e < 2 ^ n →
    ((romRead n lv .k0 v).1 < 2 ^ n ∧ (romRead n lv .k0 v).2 = (romRead n lv .k0 v).1 ∧
      natDist (expandBits n (romRead n lv .k0 v).1) v ≤ natDist (expandBits n s) v ∧
      (s < (romRead n lv .k0 v).1 →
        natDist (expandBits n (romRead n lv .k0 v).1) v < natDist (expandBits n s) v)) ∧
    ((romRead n lv .k2 v).1 < 2 ^ n ∧ (romRead n lv .k2 v).2 < 2 ^ n ∧
      natDist (scLevel n lv .k2 (romRead n lv .k2 v).1 (romRead n lv .k2 v).2) v ≤ natDist (scLevel n lv .k2 s e) v ∧
      (s < (romRead n lv .k2 v).1 ∨ s = (romRead n lv .k2 v).1 ∧ e < (romRead n lv .k2 v).2 →
        natDist (scLevel n lv .k2 (romRead n lv .k2 v).1 (romRead n lv .k2 v).2) v
          < natDist (scLevel n lv .k2 s e) v))

/-- R196, complete: FITSINGLE completes in every state. With a set of another size than one it sets `SNA` and `DONE` and
nothing else; with one colour it clears `SNA`, takes k = 2 exactly when its distance is strictly smaller, and commits
that choice's endpoints, its index for every pixel not excluded and 3 for the excluded ones, the level count, and the
weight times the distance; no other register changes. -/
def Obligations.FitsingleTakesTheNearerTableChoice : Prop :=
  selects 0x21#8 (fun w => .fitsingle (lvOfField (w.extractLsb' 15 1)) (metOfField (w.extractLsb' 12 1))) ∧
  ∀ (lv : Levels) (met : Metric) (s : State), ∃ t, exec (.fitsingle lv met) s = .next t ∧
    SameExcept (commandWrites (.fitsingle lv met)) s t ∧
    (s.eng.cs.count.val ≠ 1 →
      t = { s with eng := { s.eng with status := { s.eng.status with done := true, sna := true } } }) ∧
    (s.eng.cs.count.val = 1 →
      ∃ q0 q2 : Rgb565 × Rgb565, ∃ l0 l2 : Rgb8,
        q0 = scEndpoints lv .k0 s.eng.cs.rgb[0] ∧ q2 = scEndpoints lv .k2 s.eng.cs.rgb[0] ∧
        (levels8 q0.1 q0.2 lv)[0]? = some l0 ∧ (levels8 q2.1 q2.2 lv)[2]? = some l2 ∧
        t.eng.status = { s.eng.status with done := true, sna := false } ∧
        t.eng.fit.lv = lv ∧
        if flt (metricDist s.eng.cs.rgb[0] l2 (metricVec met)) (metricDist s.eng.cs.rgb[0] l0 (metricVec met)) then
          t.eng.fit.a = grid q2.1 ∧ t.eng.fit.b = grid q2.2 ∧
          t.eng.fit.err = fmul s.eng.cs.w[0] (metricDist s.eng.cs.rgb[0] l2 (metricVec met)) ∧
          ∀ i : Fin 16, t.eng.fit.idx[i] = if s.eng.cs.remap[i] = none then 3#2 else 2#2
        else
          t.eng.fit.a = grid q0.1 ∧ t.eng.fit.b = grid q0.2 ∧
          t.eng.fit.err = fmul s.eng.cs.w[0] (metricDist s.eng.cs.rgb[0] l0 (metricVec met)) ∧
          ∀ i : Fin 16, t.eng.fit.idx[i] = if s.eng.cs.remap[i] = none then 3#2 else 0#2)

/-! ### Range fit (43_range_fit.md) -/

/-- R222: the level chosen for a colour is a nearest one of the levels the decoder will reconstruct, the lowest index on
equal distance, and the distance held is its distance. -/
def Obligations.NearestLevelIsTheFirstOfLeastDistance : Prop :=
  ∀ (p : Rgb8) (m : Vec3) (qa qb : Rgb565) (lv : Levels) (k : Nat) (l : Rgb8), (levels8 qa qb lv)[k]? = some l →
    (∃ b : Rgb8, (levels8 qa qb lv)[(nearestLevel p m qa qb lv).k.toNat]? = some b ∧
      (nearestLevel p m qa qb lv).d = metricDist p b m) ∧
    flt (metricDist p l m) (nearestLevel p m qa qb lv).d = false ∧
    (k < (nearestLevel p m qa qb lv).k.toNat → feq (metricDist p l m) (nearestLevel p m qa qb lv).d = false)

/-- FITRANGE, complete (R211, R219 to R225): it completes in every state and writes the fit registers and `DONE` alone.
With an empty set both endpoints are (0, 0, 0), the error +0.0 and every pixel not excluded has index 0; otherwise the
endpoints are the quantised colours of the first entries with the smallest and the largest projection on the principal
axis, an entry's pixels have the index of its nearest level, and the error is the weighted sum of the distances in set
order. An excluded pixel always has index 3. -/
def Obligations.FitrangeTakesTheExtremesOfTheAxis : Prop :=
  ∀ (lv : Levels) (met : Metric) (s : State), ∃ t, exec (.fitrange lv met) s = .next t ∧
    SameExcept (commandWrites (.fitrange lv met)) s t ∧
    t.eng.status = { s.eng.status with done := true } ∧ t.eng.fit.lv = lv ∧
    (∀ i : Fin 16, s.eng.cs.remap[i] = none → t.eng.fit.idx[i] = 3#2) ∧
    (s.eng.cs.count.val = 0 →
      t.eng.fit.a = grid Rgb565.zero ∧ t.eng.fit.b = grid Rgb565.zero ∧ t.eng.fit.err = f0 ∧
      ∀ i : Fin 16, s.eng.cs.remap[i] ≠ none → t.eng.fit.idx[i] = 0#2) ∧
    (s.eng.cs.count.val ≠ 0 → ∃ lo hi : Fin 16,
      lo.val < s.eng.cs.count.val ∧ hi.val < s.eng.cs.count.val ∧
      (∀ i : Fin 16, i.val < s.eng.cs.count.val →
        flt (proj s.eng.cs (axis s.eng.cs) i) (proj s.eng.cs (axis s.eng.cs) lo) = false ∧
        flt (proj s.eng.cs (axis s.eng.cs) hi) (proj s.eng.cs (axis s.eng.cs) i) = false ∧
        (i < lo → feq (proj s.eng.cs (axis s.eng.cs) i) (proj s.eng.cs (axis s.eng.cs) lo) = false) ∧
        (i < hi → feq (proj s.eng.cs (axis s.eng.cs) i) (proj s.eng.cs (axis s.eng.cs) hi) = false)) ∧
      t.eng.fit.a = grid (q565 (vclamp (col s.eng.cs.rgb[lo]))) ∧
      t.eng.fit.b = grid (q565 (vclamp (col s.eng.cs.rgb[hi]))) ∧
      (∀ i j : Fin 16, s.eng.cs.remap[i] = some j → j.val < s.eng.cs.count.val →
        t.eng.fit.idx[i] = (nearestLevel s.eng.cs.rgb[j] (metricVec met) (q565 (vclamp (col s.eng.cs.rgb[lo])))
          (q565 (vclamp (col s.eng.cs.rgb[hi]))) lv).k) ∧
      t.eng.fit.err = (idx16.take s.eng.cs.count.val).foldl
        (fun acc i => fadd acc (fmul s.eng.cs.w[i] (nearestLevel s.eng.cs.rgb[i] (metricVec met)
          (q565 (vclamp (col s.eng.cs.rgb[lo]))) (q565 (vclamp (col s.eng.cs.rgb[hi]))) lv).d)) f0)

/-! ### Cluster fit (44_cluster_fit.md) -/

/-- R244 to R246: which splits are searched, each once, in lexicographic order: all `i <= j <= k <= n` for four levels,
all `i <= j <= n` with `k = j` for three, all `i <= n` with `j = k = i` for three with punch-through. -/
def Obligations.SplitsAreEnumeratedLexicographically : Prop :=
  ∀ (lv : Levels) (pt : Bool) (n : Nat),
    (∀ x : Cuts, x ∈ splits lv pt n ↔
      x.i ≤ x.j ∧ x.j ≤ x.k ∧ x.k ≤ n ∧ (lv = .three → x.k = x.j) ∧ (lv = .three → pt = true → x.j = x.i)) ∧
    (splits lv pt n).Pairwise fun x y => x.i < y.i ∨ x.i = y.i ∧ (x.j < y.j ∨ x.j = y.j ∧ x.k < y.k)

/-- R242: the candidate order lists every entry of the set once, ascending by projection, entries of equal projection in
entry order, whenever no projection is a NaN; and for a legal colour set the projections on its own principal axis, which
FITCLUSTER sorts by, are finite, the reset registers included (R212, R217, R242; R31's invariant is the premise). -/
def Obligations.PrincipalAxisOrderIsSorted : Prop :=
  (∀ cs : ColourSet, cs.Legal → ∀ i : Fin 16, f32IsFinite (proj cs (axis cs) i) = true) ∧
  ∀ (cs : ColourSet) (v : Vec3), (∀ i ∈ cs.entries, f32IsNaN (proj cs v i) = false) →
    (sortByProjection cs v).Perm cs.entries ∧
    (sortByProjection cs v).Pairwise fun x y =>
      flt (proj cs v x) (proj cs v y) = true ∨ feq (proj cs v x) (proj cs v y) = true ∧ x < y

/-- FITCLUSTER (R241, R251 to R253): it completes in every state and writes the fit registers and `DONE` alone, the empty
set's result being Range Fit's. Otherwise the search starts from Range Fit's result and takes every split of the
principal-axis order in enumeration order, the first of least error replacing the incumbent when strictly below it; then
come the passes, each over the incumbent's order with the neighbours at one interior cut exchanged, the cuts ascending, at
most `ro` of them and none after one that replaces nothing. The fit left last is committed, a split's with the indices of
its partition. What a cut is interior to and what an exchange does are the last two clauses. An excluded pixel has
index 3. The error of a split is the model's `evalSplit` (R247 to R250). -/
def Obligations.FitclusterKeepsTheBestSplit : Prop :=
  (∀ (lv : Levels) (met : Metric) (pt : Bool) (ro : Nat) (s : State), ∃ t r,
    exec (.fitcluster lv met pt ro) s = .next t ∧ exec (.fitrange lv met) s = .next r ∧
    SameExcept (commandWrites (.fitcluster lv met pt ro)) s t ∧
    t.eng.status = { s.eng.status with done := true } ∧ t.eng.fit.lv = lv ∧
    (∀ i : Fin 16, s.eng.cs.remap[i] = none → t.eng.fit.idx[i] = 3#2) ∧
    (s.eng.cs.count.val = 0 → t = r) ∧
    (s.eng.cs.count.val ≠ 0 → ∃ (seed : FitCore) (b b' : Best),
      r.eng.fit = ⟨grid seed.qa, grid seed.qb, spread s.eng.cs seed.eidx, lv, seed.err⟩ ∧
      KeepsFirstBest s.eng.cs lv (metricVec met) (candidatesOf lv pt (sortByProjection s.eng.cs (axis s.eng.cs)))
        ⟨seed, none⟩ b ∧
      PassesKeep s.eng.cs lv pt (metricVec met) ro b b' ∧
      t.eng.fit = ⟨grid b'.fit.qa, grid b'.fit.qb, spread s.eng.cs b'.fit.eidx, lv, b'.fit.err⟩)) ∧
  (∀ (n : Nat) (c : Cuts), c.i ≤ c.j → c.j ≤ c.k →
    (interiorCuts n c).Pairwise (· < ·) ∧
    ∀ p, p ∈ interiorCuts n c ↔ (p = c.i ∨ p = c.j ∨ p = c.k) ∧ 0 < p ∧ p < n) ∧
  ∀ (o : List (Fin 16)) (p : Nat), 0 < p → p < o.length →
    (swapAt o p).length = o.length ∧
    ∀ q : Nat, (swapAt o p)[q]? = if q = p - 1 then o[p]? else if q = p then o[p - 1]? else o[q]?

/-- Monotonic quality: `FIT_ERR` after FITCLUSTER is not above `FIT_ERR` after FITRANGE, and it does not grow with the
number of passes. The spec marks R257 as its own inference from R241, R251 and R253. -/
def Obligations.ClusterErrorNeverExceedsRangeError : Prop :=
  ∀ (lv : Levels) (met : Metric) (pt : Bool) (ro ro' : Nat) (s : State), ro ≤ ro' →
    ∃ r t t', exec (.fitrange lv met) s = .next r ∧ exec (.fitcluster lv met pt ro) s = .next t ∧
      exec (.fitcluster lv met pt ro') s = .next t' ∧
      flt r.eng.fit.err t.eng.fit.err = false ∧ flt t.eng.fit.err t'.eng.fit.err = false

/-! ### Colour block codec (45_colour_block_codec.md) -/

/-- R271, complete: CENC completes in every state; it stores the two packed endpoints in the order that carries the mode
and the sixteen indices remapped with them, low byte and low pixel first, in one half of `CBLK`; nothing else changes
but `DONE`. -/
def Obligations.CencStoresTheFitInModeOrder : Prop :=
  selects 0x28#8 (fun w => .cenc (offOfField (w.extractLsb' 22 1))) ∧
  ∀ (off : Half) (s : State), ∃ (t : State) (a b : BitVec 16) (x : Fin 16 → BitVec 2),
    exec (.cenc off) s = .next t ∧ SameExcept (commandWrites (.cenc off)) s t ∧
    t.eng.status = { s.eng.status with done := true } ∧
    (match s.eng.fit.lv with
      | .four =>
        if (pack565 (q565 s.eng.fit.a)).toNat < (pack565 (q565 s.eng.fit.b)).toNat then
          a = pack565 (q565 s.eng.fit.b) ∧ b = pack565 (q565 s.eng.fit.a) ∧ ∀ i, x i = s.eng.fit.idx[i] ^^^ 1#2
        else
          a = pack565 (q565 s.eng.fit.a) ∧ b = pack565 (q565 s.eng.fit.b) ∧
          ∀ i, x i = if a = b then 0#2 else s.eng.fit.idx[i]
      | .three =>
        if (pack565 (q565 s.eng.fit.b)).toNat < (pack565 (q565 s.eng.fit.a)).toNat then
          a = pack565 (q565 s.eng.fit.b) ∧ b = pack565 (q565 s.eng.fit.a) ∧
          ∀ i, x i = if s.eng.fit.idx[i].toNat < 2 then s.eng.fit.idx[i] ^^^ 1#2 else s.eng.fit.idx[i]
        else
          a = pack565 (q565 s.eng.fit.a) ∧ b = pack565 (q565 s.eng.fit.b) ∧ ∀ i, x i = s.eng.fit.idx[i]) ∧
    (t.eng.half off)[0].toNat = a.toNat % 256 ∧ (t.eng.half off)[1].toNat = a.toNat / 256 ∧
    (t.eng.half off)[2].toNat = b.toNat % 256 ∧ (t.eng.half off)[3].toNat = b.toNat / 256 ∧
    ∀ j : Fin 4, (t.eng.half off)[4 + j.val].toNat
      = (x ⟨4 * j.val, by omega⟩).toNat + 4 * (x ⟨4 * j.val + 1, by omega⟩).toNat
        + 16 * (x ⟨4 * j.val + 2, by omega⟩).toNat + 64 * (x ⟨4 * j.val + 3, by omega⟩).toNat

/-- R280, complete: CDEC completes in every state and writes all four channels of the sixteen decoded pixels and `DONE`
alone. In 3-colour mode, `m3` set and the first endpoint not above the second, index 3 is transparent black; every other
index is its reconstructed level with alpha 255. -/
def Obligations.CdecReconstructsEveryPixel : Prop :=
  selects 0x29#8 (fun w => .cdec (offOfField (w.extractLsb' 22 1)) (boolOfBit (w.extractLsb' 23 1))) ∧
  ∀ (off : Half) (m3 : Bool) (s : State), ∃ (t : State) (a b : BitVec 16) (mode3 : Prop),
    exec (.cdec off m3) s = .next t ∧ SameExcept (commandWrites (.cdec off m3)) s t ∧
    t.eng.status = { s.eng.status with done := true } ∧
    a.toNat = (s.eng.half off)[0].toNat + 256 * (s.eng.half off)[1].toNat ∧
    b.toNat = (s.eng.half off)[2].toNat + 256 * (s.eng.half off)[3].toNat ∧
    (mode3 ↔ m3 = true ∧ a.toNat ≤ b.toNat) ∧
    ∀ i : Fin 16,
      (mode3 → wireIndex2 (s.eng.half off) i = 3 → t.eng.dpix[i] = ⟨0#8, 0#8, 0#8, 0#8⟩) ∧
      (mode3 → wireIndex2 (s.eng.half off) i ≠ 3 →
        ∃ l, (levels8 (unpack565 a) (unpack565 b) .three)[wireIndex2 (s.eng.half off) i]? = some l ∧
          t.eng.dpix[i] = ⟨l.r, l.g, l.b, 255#8⟩) ∧
      (¬mode3 → ∃ l, (levels8 (unpack565 a) (unpack565 b) .four)[wireIndex2 (s.eng.half off) i]? = some l ∧
        t.eng.dpix[i] = ⟨l.r, l.g, l.b, 255#8⟩)

/-- Decode is the exact inverse of the packing, both ways: endpoints, indices and bytes (R270; the spec marks R282 as its
own inference from R271 and R280). -/
def Obligations.ColourBlockPackingIsInvertible : Prop :=
  (∀ q : Rgb565, unpack565 (pack565 q) = q) ∧ (∀ p : BitVec 16, pack565 (unpack565 p) = p) ∧
  (∀ x : ColourBlock, ColourBlock.ofBytes x.toBytes = x) ∧
  (∀ y : Vector Byte 8, (ColourBlock.ofBytes y).toBytes = y)

/-- Fit, encode, decode: with the endpoints on the grid, CENC then CDEC in the matching mode gives every pixel the level
its fit index names, or transparent black for index 3 of a three-level fit; for a four-level fit with equal endpoints,
the one colour all its levels are (R283, which the spec marks as its own inference from R271, R276 and R280). -/
def Obligations.EncodedFitDecodesToItsLevels : Prop :=
  ∀ (s : State) (off : Half) (m3 : Bool) (qa qb : Rgb565), s.eng.fit.a = grid qa → s.eng.fit.b = grid qb →
    (s.eng.fit.lv = .three → m3 = true) →
    ∃ t, runAll [.cenc off, .cdec off m3] s = .next t ∧
      ∀ i : Fin 16,
        (s.eng.fit.lv = .three → s.eng.fit.idx[i] = 3#2 → t.eng.dpix[i] = Pixel.zero) ∧
        (s.eng.fit.lv = .three → s.eng.fit.idx[i] ≠ 3#2 →
          ∃ l, (levels8 qa qb .three)[s.eng.fit.idx[i].toNat]? = some l ∧ t.eng.dpix[i] = l.withAlpha 255#8) ∧
        (s.eng.fit.lv = .four →
          ∃ l, (levels8 qa qb .four)[s.eng.fit.idx[i].toNat]? = some l ∧ t.eng.dpix[i] = l.withAlpha 255#8)

/-! ### Alpha block codec (46_alpha_block_codec.md) -/

/-- R301, complete: AENC4 completes in every state; the nibble of a pixel, the even pixel's the low one, is the value
whose reconstruction 17 q is nearest to its alpha; it writes one half of `CBLK` and `DONE` alone. -/
def Obligations.Aenc4StoresTheNearestNibbles : Prop :=
  selects 0x30#8 (fun w => .aenc4 (offOfField (w.extractLsb' 22 1))) ∧
  ∀ (off : Half) (s : State), ∃ t, exec (.aenc4 off) s = .next t ∧ SameExcept (commandWrites (.aenc4 off)) s t ∧
    t.eng.status = { s.eng.status with done := true } ∧
    ∀ i : Fin 16, wireNibble (t.eng.half off) i = (2 * s.eng.pix[i].a.toNat + 17) / 34 ∧
      ∀ m : Nat, m ≠ wireNibble (t.eng.half off) i →
        natDist (17 * wireNibble (t.eng.half off) i) s.eng.pix[i].a.toNat < natDist (17 * m) s.eng.pix[i].a.toNat

/-- R303, complete: ADEC4 completes in every state; the alpha of a decoded pixel is 17 times its nibble, its other
channels stay; it writes `DPIX` and `DONE` alone. -/
def Obligations.Adec4ExpandsTheNibbles : Prop :=
  selects 0x31#8 (fun w => .adec4 (offOfField (w.extractLsb' 22 1))) ∧
  ∀ (off : Half) (s : State), ∃ t, exec (.adec4 off) s = .next t ∧ SameExcept (commandWrites (.adec4 off)) s t ∧
    t.eng.status = { s.eng.status with done := true } ∧
    ∀ i : Fin 16, t.eng.dpix[i].rgb = s.eng.dpix[i].rgb ∧
      t.eng.dpix[i].a.toNat = 17 * wireNibble (s.eng.half off) i

/-- Explicit alpha comes back within 8, a multiple of 17 exactly: AENC4 then ADEC4 of the same half (R302, which the spec
marks as its own inference from R301). -/
def Obligations.ExplicitAlphaComesBackWithinEight : Prop :=
  ∀ (off : Half) (s : State), ∃ t, runAll [.aenc4 off, .adec4 off] s = .next t ∧
    ∀ i : Fin 16, natDist t.eng.dpix[i].a.toNat s.eng.pix[i].a.toNat ≤ 8 ∧
      (s.eng.pix[i].a.toNat % 17 = 0 → t.eng.dpix[i].a = s.eng.pix[i].a)

/-- R307, complete: AFIT completes in every state; `AF_LO` and `AF_HI` are the smallest and the largest value of the
channel, and a pixel's level is the lowest of the nearest of the eight linear levels between them; it writes the
alpha-fit registers and `DONE` alone. -/
def Obligations.AfitTakesTheNearestLinearLevels : Prop :=
  selects 0x32#8 (fun w => .afit (chOfField (w.extractLsb' 20 2))) ∧
  ∀ (ch : Channel) (s : State), ∃ t, exec (.afit ch) s = .next t ∧ SameExcept (commandWrites (.afit ch)) s t ∧
    t.eng.status = { s.eng.status with done := true } ∧
    (∀ i : Fin 16, t.eng.af.lo.toNat ≤ (s.eng.pix[i].ch ch).toNat ∧ (s.eng.pix[i].ch ch).toNat ≤ t.eng.af.hi.toNat) ∧
    (∃ i : Fin 16, t.eng.af.lo = s.eng.pix[i].ch ch) ∧ (∃ i : Fin 16, t.eng.af.hi = s.eng.pix[i].ch ch) ∧
    ∀ (i : Fin 16) (k : Nat), k < 8 →
      natDist (s.eng.pix[i].ch ch).toNat (linearLevel t.eng.af.lo t.eng.af.hi t.eng.af.k[i].toNat)
        ≤ natDist (s.eng.pix[i].ch ch).toNat (linearLevel t.eng.af.lo t.eng.af.hi k) ∧
      (k < t.eng.af.k[i].toNat →
        natDist (s.eng.pix[i].ch ch).toNat (linearLevel t.eng.af.lo t.eng.af.hi t.eng.af.k[i].toNat)
          < natDist (s.eng.pix[i].ch ch).toNat (linearLevel t.eng.af.lo t.eng.af.hi k))

/-- R310, complete: AENC8 completes in every state; it stores the larger-end register first, then the other, then the
sixteen remapped wire indices as one 48-bit little-endian integer, in one half of `CBLK`; nothing else changes but
`DONE`. -/
def Obligations.Aenc8PacksTheWireIndices : Prop :=
  selects 0x33#8 (fun w => .aenc8 (offOfField (w.extractLsb' 22 1))) ∧
  ∀ (off : Half) (s : State), ∃ t, exec (.aenc8 off) s = .next t ∧ SameExcept (commandWrites (.aenc8 off)) s t ∧
    t.eng.status = { s.eng.status with done := true } ∧
    (t.eng.half off)[0] = s.eng.af.hi ∧ (t.eng.half off)[1] = s.eng.af.lo ∧
    ∀ i : Fin 16, wireIndex3 (t.eng.half off) i =
      if s.eng.af.k[i] = 0#3 then 1 else if s.eng.af.k[i] = 7#3 then 0 else 8 - s.eng.af.k[i].toNat

/-- R313 with the codes of R312, complete: ADEC8 completes in every state; a decoded pixel's channel is the code its
three-bit wire index selects, in the 8-level scheme when the first endpoint is the larger and in the 6-level scheme with 0
and 255 otherwise; the other channels stay; it writes `DPIX` and `DONE` alone. -/
def Obligations.Adec8InterpolatesTheCodes : Prop :=
  selects 0x34#8 (fun w => .adec8 (offOfField (w.extractLsb' 22 1)) (chOfField (w.extractLsb' 20 2))) ∧
  ∀ (off : Half) (ch : Channel) (s : State), ∃ t, exec (.adec8 off ch) s = .next t ∧
    SameExcept (commandWrites (.adec8 off ch)) s t ∧ t.eng.status = { s.eng.status with done := true } ∧
    ∀ i : Fin 16,
      (∀ c : Channel, c ≠ ch → t.eng.dpix[i].ch c = s.eng.dpix[i].ch c) ∧
      (t.eng.dpix[i].ch ch).toNat
        = wireCode (s.eng.half off)[0].toNat (s.eng.half off)[1].toNat (wireIndex3 (s.eng.half off) i)

/-- Fit, encode, decode one channel: AFIT, AENC8 and ADEC8 of one half give every pixel the linear level its fit chose,
so its error is at most `ceil((hi - lo) / 14)`, and 0 for a value equal to either end (R314 with R308, which the spec
marks as its own inferences from R307, R310, R312 and R313). -/
def Obligations.InterpolatedAlphaComesBackWithinHalfAStep : Prop :=
  ∀ (ch ch' : Channel) (off : Half) (s : State), ∃ t, runAll [.afit ch, .aenc8 off, .adec8 off ch'] s = .next t ∧
    t.eng.af.lo.toNat ≤ t.eng.af.hi.toNat ∧
    ∀ i : Fin 16,
      (t.eng.dpix[i].ch ch').toNat = linearLevel t.eng.af.lo t.eng.af.hi t.eng.af.k[i].toNat ∧
      natDist (t.eng.dpix[i].ch ch').toNat (s.eng.pix[i].ch ch).toNat
        ≤ (t.eng.af.hi.toNat - t.eng.af.lo.toNat + 13) / 14 ∧
      (s.eng.pix[i].ch ch = t.eng.af.lo ∨ s.eng.pix[i].ch ch = t.eng.af.hi →
        t.eng.dpix[i].ch ch' = s.eng.pix[i].ch ch)

/-! ### Orchestrator (47_orchestrator.md) -/

/-- R342: COMPRESS of a supported format completes in every state and leaves exactly what its component commands leave,
one after the other, but for the length it writes and, for the 8-byte formats, the zero bytes above; a reserved format
raises `UnsupportedFormat` and leaves everything else. -/
def Obligations.CompressEqualsItsComponentCommands : Prop :=
  selects 0x10#8 (fun w => .compress (fmtOfField (w.extractLsb' 8 3)) (fitOfField (w.extractLsb' 11 1))
    (metOfField (w.extractLsb' 12 1)) (boolOfBit (w.extractLsb' 13 1)) (boolOfBit (w.extractLsb' 14 1))
    (w.extractLsb' 16 4).toNat) ∧
  (∀ (f : Format) (fit : FitQuality) (met : Metric) (pt wa : Bool) (ro : Nat) (s : State), ∃ t u,
    exec (.compress (.supported f) fit met pt wa ro) s = .next t ∧ compressScript f fit met pt wa ro s = .next u ∧
    t = { u with eng := { u.eng with
      clen := BitVec.ofNat 5 (blockSize f)
      cblk := if blockSize f = 8 then lowerOnly u.eng.cblk else u.eng.cblk } }) ∧
  (∀ (n : Nat) (fit : FitQuality) (met : Metric) (pt wa : Bool) (ro : Nat) (s : State),
    exec (.compress (.reserved n) fit met pt wa ro) s = .next (s.raise .unsupportedFormat))

/-- R346: COMPRESS writes the length of the format, 8 or 16, and zeroes the upper half for an 8-byte format, so that the
whole of `CBLK` depends on `PIX` and the command alone. -/
def Obligations.CompressedBlockDependsOnPixAlone : Prop :=
  ∀ (f : Format) (fit : FitQuality) (met : Metric) (pt wa : Bool) (ro : Nat) (s s' : State), s.eng.pix = s'.eng.pix →
    ∃ t t', exec (.compress (.supported f) fit met pt wa ro) s = .next t ∧
      exec (.compress (.supported f) fit met pt wa ro) s' = .next t' ∧
      t.eng.cblk = t'.eng.cblk ∧
      t.eng.clen.toNat = (match f with | .bc1 => 8 | .bc2 => 16 | .bc3 => 16 | .bc4 => 8 | .bc5 => 16) ∧
      (t.eng.clen.toNat = 8 → ∀ k : Fin 16, 8 ≤ k.val → t.eng.cblk[k] = 0#8)

/-- What COMPRESS leaves alone (R343, R344, R347, R349): punch-through has no effect but on BC1, the colour options none
on BC4 and BC5, which leave the colour set and the fit as they were; BC1 and BC2 leave the alpha fit; `SNA` is never
set. -/
def Obligations.CompressLeavesWhatItDoesNotUse : Prop :=
  ∀ (f : Format) (fit fit' : FitQuality) (met met' : Metric) (pt pt' wa wa' : Bool) (ro ro' : Nat) (s t : State),
    exec (.compress (.supported f) fit met pt wa ro) s = .next t →
    (f ≠ .bc1 → exec (.compress (.supported f) fit met pt' wa ro) s = .next t) ∧
    (f = .bc4 ∨ f = .bc5 → t.eng.cs = s.eng.cs ∧ t.eng.fit = s.eng.fit ∧ t.eng.status.sna = s.eng.status.sna ∧
      exec (.compress (.supported f) fit' met' pt' wa' ro') s = .next t) ∧
    (f = .bc1 ∨ f = .bc2 → t.eng.af = s.eng.af) ∧
    (s.eng.status.sna = false → t.eng.status.sna = false)

/-- R350 with R352: DECOMPRESS checks the format, then the length, each before it writes anything; then it completes and
leaves exactly what its component commands leave, the colour half first, BC4 and BC5 over opaque black. -/
def Obligations.DecompressEqualsItsComponentCommands : Prop :=
  selects 0x11#8 (fun w => .decompress (fmtOfField (w.extractLsb' 8 3))) ∧
  (∀ (n : Nat) (s : State), exec (.decompress (.reserved n)) s = .next (s.raise .unsupportedFormat)) ∧
  (∀ (f : Format) (s : State), s.eng.clen.toNat ≠ blockSize f →
    exec (.decompress (.supported f)) s = .next (s.raise .invalidBlockLength)) ∧
  (∀ (f : Format) (s : State), s.eng.clen.toNat = blockSize f →
    ∃ t, exec (.decompress (.supported f)) s = .next t ∧ decompressScript f s = .next t)

/-- Punch-through correctness: after COMPRESS as BC1 with punch-through and DECOMPRESS as BC1, a pixel with alpha below 128
is (0, 0, 0, 0) and every other pixel has alpha 255, whatever the other options and the state before (R354 (3), which the
spec marks as its own inference from R173, R223 and R283). -/
def Obligations.PunchThroughPixelsDecodeTransparent : Prop :=
  ∀ (fit : FitQuality) (met : Metric) (wa : Bool) (ro : Nat) (s : State), ∃ t,
    runAll [.compress (.supported .bc1) fit met true wa ro, .decompress (.supported .bc1)] s = .next t ∧
    t.eng.status.done = true ∧
    ∀ i : Fin 16, (s.eng.pix[i].a.toNat < 128 → t.eng.dpix[i] = Pixel.zero) ∧
      (128 ≤ s.eng.pix[i].a.toNat → t.eng.dpix[i].a = 255#8)

/-- What the formats with interpolated blocks bring back: BC3 its alpha, BC4 its red, BC5 its red and green, each within
`ceil((hi - lo) / 14)` for bounds `lo`, `hi` that hold the channel, so exactly when it is constant; the other channels of
BC4 and BC5 are 0 and alpha 255 (R351; R354 (6) and R308, the spec's own inferences). -/
def Obligations.InterpolatedFormatsComeBackWithinHalfAStep : Prop :=
  ∀ (f : Format) (fit : FitQuality) (met : Metric) (pt wa : Bool) (ro : Nat) (s : State) (ch : Channel) (lo hi : Nat),
    (f = .bc3 ∧ ch = .a) ∨ (f = .bc4 ∧ ch = .r) ∨ (f = .bc5 ∧ (ch = .r ∨ ch = .g)) →
    (∀ i : Fin 16, lo ≤ (s.eng.pix[i].ch ch).toNat ∧ (s.eng.pix[i].ch ch).toNat ≤ hi) →
    ∃ t, runAll [.compress (.supported f) fit met pt wa ro, .decompress (.supported f)] s = .next t ∧
      t.eng.status.done = true ∧
      ∀ i : Fin 16, natDist (t.eng.dpix[i].ch ch).toNat (s.eng.pix[i].ch ch).toNat ≤ (hi - lo + 13) / 14 ∧
        (f = .bc4 → t.eng.dpix[i].g = 0#8 ∧ t.eng.dpix[i].b = 0#8 ∧ t.eng.dpix[i].a = 255#8) ∧
        (f = .bc5 → t.eng.dpix[i].b = 0#8 ∧ t.eng.dpix[i].a = 255#8)

/-! ### Several engines (10_state.md section 9, 60_exceptions.md section 5) -/

/-- R58: a step of one engine of a chip changes no other, and what it does depends on no other: it is that engine's own
step, alone. An address inside a window selects that window's engine and the offset in it, when the windows are aligned
and do not overlap (R74, D41). The chip as a list of engines is the model's choice, and where the windows sit is left to
the platform: log entry 7. -/
def Obligations.EnginesOfAChipAreIndependent : Prop :=
  (∀ (k : Nat) (p : Platform) (s : State), p.engines[k]? = some s →
    ∃ q t, step s = .next t ∧ p.stepAt k = .next q ∧ q.engines[k]? = some t ∧
      (∀ j, j ≠ k → q.engines[j]? = p.engines[j]?) ∧ q.engines.length = p.engines.length) ∧
  ∀ (base : Nat → Nat) (n k off : Nat), mappingOk base n → k < n → off < 0x180 →
    locate base n (base k + off) = some (k, off)

/-! ### The principal axis (43_range_fit.md section 3) -/

/-- The principal axis, step by step (R214 to R217). The centroid is the weighted mean, channel by channel in set order,
or zero when the total weight is; each covariance entry is the weighted sum of the products of two channels' differences
from it, in set order; the axis is reached from (1, 1, 1) by at most eight rounds, each the matrix times the vector over
the magnitude of the product's largest component, and fewer than eight only where that magnitude is zero. For a legal
colour set the axis' largest component has magnitude 1.0 exactly (R214, R31). -/
def Obligations.PrincipalAxisIsFoundByPowerIteration : Prop :=
  ∀ cs : ColourSet,
    (∃ (es : List (Fin 16)) (W : F32), es = idx16.take cs.count.val ∧ W = sumOver es (fun i => cs.w[i]) ∧
      (feq W f0 = true → centroid cs = ⟨f0, f0, f0⟩) ∧
      (feq W f0 = false → centroid cs =
        ⟨fdiv (sumOver es fun i => fmul cs.w[i] (col cs.rgb[i]).x) W,
         fdiv (sumOver es fun i => fmul cs.w[i] (col cs.rgb[i]).y) W,
         fdiv (sumOver es fun i => fmul cs.w[i] (col cs.rgb[i]).z) W⟩)) ∧
    (∀ cen : Vec3, ∃ (es : List (Fin 16)) (d e : Fin 16 → Vec3), es = idx16.take cs.count.val ∧
      (∀ i, d i = ⟨fsub (col cs.rgb[i]).x cen.x, fsub (col cs.rgb[i]).y cen.y, fsub (col cs.rgb[i]).z cen.z⟩) ∧
      (∀ i, e i = ⟨fmul cs.w[i] (d i).x, fmul cs.w[i] (d i).y, fmul cs.w[i] (d i).z⟩) ∧
      covariance cs cen =
        { xx := sumOver es fun i => fmul (d i).x (e i).x
          xy := sumOver es fun i => fmul (d i).x (e i).y
          xz := sumOver es fun i => fmul (d i).x (e i).z
          yy := sumOver es fun i => fmul (d i).y (e i).y
          yz := sumOver es fun i => fmul (d i).y (e i).z
          zz := sumOver es fun i => fmul (d i).z (e i).z }) ∧
    (∃ (k : Nat) (v w : Nat → Vec3) (m : Nat → F32), k ≤ 8 ∧ v 0 = ⟨f1, f1, f1⟩ ∧ axis cs = v k ∧
      (∀ j, w j = axisProduct (covariance cs (centroid cs)) (v j)) ∧
      (∀ j, m j = fmax (fabs (w j).x) (fmax (fabs (w j).y) (fabs (w j).z))) ∧
      (∀ j, j < k → feq (m j) f0 = false ∧
        v (j + 1) = ⟨fdiv (w j).x (m j), fdiv (w j).y (m j), fdiv (w j).z (m j)⟩) ∧
      (k < 8 → feq (m k) f0 = true)) ∧
    (cs.Legal → fmax (fabs (axis cs).x) (fmax (fabs (axis cs).y) (fabs (axis cs).z)) = f1)
end

