-- ==== Sys2Proof/Laws/Bits.lean ====
section
/-!
SUPPORT. The fixed-size arrays read at an index; packing and its digits are inverse; a block half written and read.
-/
namespace Sys2Proof.Machine

/-- A channel value is below 2^8 (R10 `CHW`). -/
theorem chan_lt (x : Config.Chan) : x.toNat < 256 := x.isLt

/-- Entry `i` of a table is the given entry at `i`. -/
@[simp] theorem tab16_getElem {α : Type} (f : Fin 16 → α) (i : Nat) (h : i < 16) : (tab16 f)[i] = f ⟨i, h⟩ := by
  interval_cases i <;> rfl

@[simp] theorem tab16_getElem_fin {α : Type} (f : Fin 16 → α) (i : Fin 16) : (tab16 f)[i] = f i :=
  tab16_getElem f i.val i.isLt

/-- Entry `i` of a table of eight is the given entry at `i`. -/
@[simp] theorem tab8_getElem {α : Type} (f : Fin 8 → α) (i : Nat) (h : i < 8) : (tab8 f)[i] = f ⟨i, h⟩ := by
  interval_cases i <;> rfl

@[simp] theorem tab8_getElem_fin {α : Type} (f : Fin 8 → α) (i : Fin 8) : (tab8 f)[i] = f i :=
  tab8_getElem f i.val i.isLt

/-- An array is the table of its entries. -/
theorem eq_tab16 {α : Type} (v : Vector α 16) : v = tab16 fun i => v[i] := by
  ext i hi
  simp

/-- An array of eight is the table of its entries. -/
theorem eq_tab8 {α : Type} (v : Vector α 8) : v = tab8 fun i => v[i] := by
  ext i hi
  simp

/-- The digits packed in base 2^k stay below 2^(k * count). -/
theorem packLE_lt (k : Nat) (ds : List Nat) (h : ∀ d ∈ ds, d < 2 ^ k) : packLE k ds < 2 ^ (k * ds.length) := by
  induction ds with
  | nil => simp [packLE]
  | cons d ds ih =>
    have hd : d < 2 ^ k := h d (by simp)
    have hs : packLE k ds < 2 ^ (k * ds.length) := ih fun x hx => h x (by simp [hx])
    rw [packLE, List.length_cons, Nat.mul_succ, Nat.add_comm (k * ds.length), Nat.pow_add]
    calc d + 2 ^ k * packLE k ds < 2 ^ k + 2 ^ k * packLE k ds := by omega
      _ = 2 ^ k * (packLE k ds + 1) := by rw [Nat.mul_add, Nat.mul_one, Nat.add_comm]
      _ ≤ 2 ^ k * 2 ^ (k * ds.length) := Nat.mul_le_mul_left _ hs

/-- A digit of packed digits is the one that was packed; above the last it is 0. -/
theorem digitLE_packLE (k : Nat) (ds : List Nat) (h : ∀ d ∈ ds, d < 2 ^ k) (i : Nat) :
    digitLE k i (packLE k ds) = ds.getD i 0 := by
  induction ds generalizing i with
  | nil => simp [packLE, digitLE]
  | cons d ds ih =>
    have hd : d < 2 ^ k := h d (by simp)
    cases i with
    | zero => simp [packLE, digitLE, Nat.mod_eq_of_lt hd]
    | succ i =>
      have hi := ih (fun x hx => h x (by simp [hx])) i
      have hp : (d + 2 ^ k * packLE k ds) / 2 ^ k = packLE k ds := by
        rw [Nat.add_mul_div_left _ _ (Nat.two_pow_pos k), Nat.div_eq_of_lt hd, Nat.zero_add]
      simp only [packLE, digitLE, List.getD_cons_succ] at hi ⊢
      rw [show k * (i + 1) = k + k * i by rw [Nat.mul_add, Nat.mul_one, Nat.add_comm], Nat.pow_add,
        ← Nat.div_div_eq_div_mul, hp]
      exact hi

/-- Digit by digit, an integer packs back to its value below 2^(k * n). -/
theorem packLE_digits (k n v : Nat) : packLE k ((List.range n).map fun i => digitLE k i v) = v % 2 ^ (k * n) := by
  induction n generalizing v with
  | zero => simp [packLE, Nat.mod_one]
  | succ n ih =>
    have hs : ((List.range n).map fun i => digitLE k (i + 1) v) = (List.range n).map fun i => digitLE k i (v / 2 ^ k) := by
      apply List.map_congr_left
      intro i _
      simp only [digitLE]
      rw [show k * (i + 1) = k + k * i by rw [Nat.mul_add, Nat.mul_one, Nat.add_comm], Nat.pow_add,
        Nat.div_div_eq_div_mul]
    rw [List.range_succ_eq_map, List.map_cons, List.map_map, packLE]
    simp only [Function.comp_def, Nat.succ_eq_add_one]
    rw [hs, ih, show k * (n + 1) = k + k * n by rw [Nat.mul_add, Nat.mul_one, Nat.add_comm], Nat.pow_add,
      Nat.mod_mul]
    simp [digitLE]

/-- The four bytes of a word, packed, are the word. -/
theorem wordOfBytes_byteOf (w : Word) : wordOfBytes (byteOf w 0) (byteOf w 1) (byteOf w 2) (byteOf w 3) = w := by
  apply BitVec.eq_of_toNat_eq
  simp only [wordOfBytes, byteOf, packLE, digitLE, BitVec.toNat_ofNat]
  omega

/-- Byte `k` of a packed word is the byte packed there. -/
theorem byteOf_wordOfBytes (b0 b1 b2 b3 : Byte) :
    byteOf (wordOfBytes b0 b1 b2 b3) 0 = b0 ∧ byteOf (wordOfBytes b0 b1 b2 b3) 1 = b1 ∧
    byteOf (wordOfBytes b0 b1 b2 b3) 2 = b2 ∧ byteOf (wordOfBytes b0 b1 b2 b3) 3 = b3 := by
  refine ⟨?_, ?_, ?_, ?_⟩ <;> apply BitVec.eq_of_toNat_eq <;>
    simp only [wordOfBytes, byteOf, packLE, digitLE, BitVec.toNat_ofNat] <;> omega

/-- The value of a packed word. -/
theorem toNat_wordOfBytes (b0 b1 b2 b3 : Byte) :
    (wordOfBytes b0 b1 b2 b3).toNat = b0.toNat + 2 ^ 8 * b1.toNat + 2 ^ 16 * b2.toNat + 2 ^ 24 * b3.toNat := by
  simp only [wordOfBytes, packLE, BitVec.toNat_ofNat]
  omega

@[simp] theorem Pixel.ofWord_toWord (p : Pixel) : Pixel.ofWord p.toWord = p := by
  obtain ⟨h0, h1, h2, h3⟩ := byteOf_wordOfBytes p.r p.g p.b p.a
  cases p
  simp_all [Pixel.ofWord, Pixel.toWord]

@[simp] theorem Pixel.toWord_ofWord (w : Word) : (Pixel.ofWord w).toWord = w := wordOfBytes_byteOf w

/-- One channel written and read (R25). -/
theorem Pixel.ch_setCh (p : Pixel) (c d : Channel) (v : Byte) : (p.setCh c v).ch d = if d = c then v else p.ch d := by
  cases c <;> cases d <;> rfl

@[simp] theorem remapByte_inj (x y : Option (Fin 16)) : remapByte x = remapByte y ↔ x = y := by
  revert x y
  decide

/-- What a half reads after a half was written (R26). -/
theorem Engine.half_setHalf (h g : Half) (b : Vector Byte 8) (e : Engine) :
    (e.setHalf h b).half g = if g = h then b else e.half g := by
  cases h <;> cases g <;> refine Vector.ext fun i hi => ?_ <;> simp [Engine.half, Engine.setHalf]
  rw [dif_neg (by omega)]

/-- Two blocks with equal halves are equal. -/
theorem Engine.cblk_ext {e e' : Engine} (hl : e.half .lower = e'.half .lower) (hu : e.half .upper = e'.half .upper) :
    e.cblk = e'.cblk := by
  refine Vector.ext fun i hi => ?_
  by_cases h : i < 8
  · have := congrArg (fun v => v[i]) hl
    simpa [Engine.half] using this
  · have := congrArg (fun v => v[i - 8]'(by omega)) hu
    simp only [Engine.half, tab8_getElem] at this
    simpa [show 8 + (i - 8) = i by omega] using this

end Sys2Proof.Machine
end

