-- ==== Sys2Proof/Laws/Decode.lean ====
section
/-!
SUPPORT. The fields of a command word and the word they make are inverse; the opcode map is one to one; each field map is
the inverse of its encoding.
-/
namespace Sys2Proof

/-- The value of the word the fields make. -/
theorem Fields.toNat_toWord (f : Fields) :
    f.toWord.toNat = f.op.toNat + 2 ^ 8 * f.fmt.toNat + 2 ^ 11 * f.fit.toNat + 2 ^ 12 * f.met.toNat
      + 2 ^ 13 * f.pt.toNat + 2 ^ 14 * f.wa.toNat + 2 ^ 15 * f.lv.toNat + 2 ^ 16 * f.ro.toNat + 2 ^ 20 * f.ch.toNat
      + 2 ^ 22 * f.off.toNat + 2 ^ 23 * f.m3.toNat + 2 ^ 24 * f.rsv.toNat := by
  have h0 := f.op.isLt
  have h1 := f.fmt.isLt
  have h2 := f.fit.isLt
  have h3 := f.met.isLt
  have h4 := f.pt.isLt
  have h5 := f.wa.isLt
  have h6 := f.lv.isLt
  have h7 := f.ro.isLt
  have h8 := f.ch.isLt
  have h9 := f.off.isLt
  have h10 := f.m3.isLt
  have h11 := f.rsv.isLt
  simp only [Fields.toWord, BitVec.toNat_ofNat]
  omega

/-- The fields read from the word they make are the fields. -/
theorem Fields.ofWord_toWord (f : Fields) : Fields.ofWord f.toWord = f := by
  have hw := f.toNat_toWord
  have h0 := f.op.isLt
  have h1 := f.fmt.isLt
  have h2 := f.fit.isLt
  have h3 := f.met.isLt
  have h4 := f.pt.isLt
  have h5 := f.wa.isLt
  have h6 := f.lv.isLt
  have h7 := f.ro.isLt
  have h8 := f.ch.isLt
  have h9 := f.off.isLt
  have h10 := f.m3.isLt
  have h11 := f.rsv.isLt
  cases f
  simp only [Fields.ofWord, Fields.mk.injEq]
  refine ⟨?_, ?_, ?_, ?_, ?_, ?_, ?_, ?_, ?_, ?_, ?_, ?_⟩ <;> apply BitVec.eq_of_toNat_eq <;>
    simp only [BitVec.extractLsb'_toNat, hw, Nat.shiftRight_eq_div_pow] <;> omega

/-- Each opcode is the one its byte selects. -/
theorem Opcode.ofByte_code (op : Opcode) : Opcode.ofByte op.code = some op := by
  cases op <;> decide

/-- A byte that selects an opcode is that opcode's. -/
theorem Opcode.code_of_ofByte {b : BitVec 8} {op : Opcode} (h : Opcode.ofByte b = some op) : op.code = b := by
  have := List.find?_some h
  simpa using this

@[simp] theorem boolOfBit_bitOfBool (b : Bool) : boolOfBit (bitOfBool b) = b := by cases b <;> decide

@[simp] theorem fitOfField_fieldOfFit (x : FitQuality) : fitOfField (fieldOfFit x) = x := by cases x <;> decide

@[simp] theorem metOfField_fieldOfMet (x : Metric) : metOfField (fieldOfMet x) = x := by cases x <;> decide

@[simp] theorem lvOfField_fieldOfLv (x : Levels) : lvOfField (fieldOfLv x) = x := by cases x <;> decide

@[simp] theorem chOfField_fieldOfCh (x : Channel) : chOfField (fieldOfCh x) = x := by cases x <;> decide

@[simp] theorem offOfField_fieldOfOff (x : Half) : offOfField (fieldOfOff x) = x := by cases x <;> decide

/-- A well-formed selector is the one its field selects. -/
theorem fmtOfField_fieldOfFmt (x : FmtSel) (h : x.wf = true) : fmtOfField (fieldOfFmt x) = x := by
  cases x with
  | supported f => cases f <;> decide
  | reserved code =>
    simp only [FmtSel.wf, Bool.and_eq_true, decide_eq_true_eq] at h
    obtain ⟨h5, h7⟩ := h
    interval_cases code <;> decide

/-- A well-formed pass count is the value of its field. -/
theorem ro_field (ro : Nat) (h : roWf ro = true) : (BitVec.ofNat 4 ro).toNat = ro := by
  have hr : ro ≤ 15 := of_decide_eq_true h
  simp only [BitVec.toNat_ofNat]
  omega

end Sys2Proof
end

