-- ==== Sys2Proof/Laws/Window.lean ====
section
/-!
SUPPORT. The register window: which offset is which register, and what a read after a write gives.
-/
namespace Sys2Proof.Machine

/-- Every register is listed. -/
theorem Reg.mem_all (r : Reg) : r ∈ Reg.all := by
  cases r with
  | fitA l => cases l <;> decide
  | fitB l => cases l <;> decide
  | pix i => revert i; decide
  | cblk j => revert j; decide
  | csRemap j => revert j; decide
  | dpix i => revert i; decide
  | csRgb i => revert i; decide
  | csW i => revert i; decide
  | _ => decide

/-- No two registers share an offset. -/
theorem Reg.offsets_nodup : (Reg.all.map Reg.offset).Nodup := by decide +kernel

/-- A register's offset is its own. -/
theorem Reg.offset_inj {a b : Reg} (h : a.offset = b.offset) : a = b :=
  List.inj_on_of_nodup_map Reg.offsets_nodup (Reg.mem_all a) (Reg.mem_all b) h

/-- What `regAt` answers is mapped at the offset. -/
theorem offset_of_regAt {off : Nat} {r : Reg} (h : regAt off = some r) : r.offset = off := by
  simpa using List.find?_some h

/-- The register at a register's offset is that register. -/
@[simp] theorem regAt_offset (r : Reg) : regAt r.offset = some r := by
  cases h : regAt r.offset with
  | none =>
    have hn := List.find?_eq_none.mp h r (Reg.mem_all r)
    simp at hn
  | some q => rw [Reg.offset_inj (offset_of_regAt h)]

/-- `CMD` is at offset 0 and nothing else is. -/
theorem regAt_eq_cmd {off : Nat} (h : regAt off = some .cmd) : off = 0 := (offset_of_regAt h).symm

/-- A 32-bit access to a register's offset reaches it. -/
@[simp] theorem accessReg_offset (r : Reg) : accessReg r.offset 32 = some r := by
  simp [accessReg, Config.regWidth]

/-- What an access reaches was asked for at full width, at the register's offset. -/
theorem of_accessReg {off width : Nat} {r : Reg} (h : accessReg off width = some r) : width = 32 ∧ off = r.offset := by
  unfold accessReg Config.regWidth at h
  split at h
  · exact ⟨by assumption, (offset_of_regAt h).symm⟩
  · cases h

/-- The indices of a written `FIT_IDX` word pack back to it. -/
theorem wordOfIdx_idxOfWord (w : Word) : wordOfIdx (idxOfWord w) = w := by
  have h := packLE_digits 2 16 w.toNat
  have hr : List.range 16 = [0, 1, 2, 3, 4, 5, 6, 7, 8, 9, 10, 11, 12, 13, 14, 15] := by decide
  rw [hr] at h
  have hm : ∀ i, (BitVec.ofNat 2 (digitLE 2 i w.toNat)).toNat = digitLE 2 i w.toNat := fun i => by
    simp only [BitVec.toNat_ofNat, digitLE]
    omega
  apply BitVec.eq_of_toNat_eq
  have hl : (idxOfWord w).toList.map BitVec.toNat
      = [0, 1, 2, 3, 4, 5, 6, 7, 8, 9, 10, 11, 12, 13, 14, 15].map fun i => digitLE 2 i w.toNat := by
    simp only [idxOfWord, tab16, Vector.toList_mk, List.map_cons, List.map_nil, hm]
    rfl
  rw [wordOfIdx, hl, h, BitVec.toNat_ofNat]
  have := w.isLt
  omega

/-- The level word of pixels 0 to 7 after it was written: the 24 bits of the value. -/
theorem wordOfK0_setK0 (v : Vector (BitVec 3) 16) (w : Word) : (wordOfK0 (setK0 v w)).toNat = w.toNat % 2 ^ 24 := by
  have h := packLE_digits 3 8 w.toNat
  have hr : List.range 8 = [0, 1, 2, 3, 4, 5, 6, 7] := by decide
  rw [hr] at h
  have hm : ∀ i, (BitVec.ofNat 3 (digitLE 3 i w.toNat)).toNat = digitLE 3 i w.toNat := fun i => by
    simp only [BitVec.toNat_ofNat, digitLE]
    omega
  have hl : ((setK0 v w).toList.take 8).map BitVec.toNat
      = [0, 1, 2, 3, 4, 5, 6, 7].map fun i => digitLE 3 i w.toNat := by
    simp only [setK0, tab16, Vector.toList_mk, List.take_succ_cons, List.take_zero, List.map_cons, List.map_nil]
    simp [hm, Fin.lt_def]
  rw [wordOfK0, hl, h, BitVec.toNat_ofNat]
  omega

/-- The level word of pixels 8 to 15 after it was written: the 24 bits of the value. -/
theorem wordOfK1_setK1 (v : Vector (BitVec 3) 16) (w : Word) : (wordOfK1 (setK1 v w)).toNat = w.toNat % 2 ^ 24 := by
  have h := packLE_digits 3 8 w.toNat
  have hr : List.range 8 = [0, 1, 2, 3, 4, 5, 6, 7] := by decide
  rw [hr] at h
  have hm : ∀ i, (BitVec.ofNat 3 (digitLE 3 i w.toNat)).toNat = digitLE 3 i w.toNat := fun i => by
    simp only [BitVec.toNat_ofNat, digitLE]
    omega
  have hl : ((setK1 v w).toList.drop 8).map BitVec.toNat
      = [0, 1, 2, 3, 4, 5, 6, 7].map fun i => digitLE 3 i w.toNat := by
    simp only [setK1, tab16, Vector.toList_mk, List.drop_succ_cons, List.drop_zero, List.map_cons, List.map_nil]
    simp [hm, Fin.lt_def]
  rw [wordOfK1, hl, h, BitVec.toNat_ofNat]
  omega

end Sys2Proof.Machine
end

