-- ==== Sys2Proof/Laws/Exec.lean ====
section
/-!
SUPPORT. What a step can do, said once: the meaning each arm of `exec` calls, the three ways a command ends, the ways a
host access ends, the ways a step ends.
-/
namespace Sys2Proof.Machine

/-! ### The effect of each command -/

theorem exec_nop (s : State) : exec .nop s = .next (s.completeWith id) := rfl
theorem exec_clrerr (s : State) :
    exec .clrerr s = .next (s.completeWith fun e => { e with status := e.status.clearErr }) := rfl
theorem exec_sreset (s : State) : exec .sreset s = .next { s with eng := Engine.reset } := rfl
theorem exec_compress_reserved (n : Nat) (fit : FitQuality) (met : Metric) (pt wa : Bool) (ro : Nat) (s : State) :
    exec (.compress (.reserved n) fit met pt wa ro) s = .next (s.raise .unsupportedFormat) := rfl
theorem exec_compress_supported (f : Format) (fit : FitQuality) (met : Metric) (pt wa : Bool) (ro : Nat) (s : State) :
    exec (.compress (.supported f) fit met pt wa ro) s
      = .next (s.completeWith (Engine.compressBlock f fit met pt wa ro)) := rfl
theorem exec_decompress_reserved (n : Nat) (s : State) :
    exec (.decompress (.reserved n)) s = .next (s.raise .unsupportedFormat) := rfl
theorem exec_decompress_badLength (f : Format) (s : State) (h : s.eng.clen.toNat ≠ blockSize f) :
    exec (.decompress (.supported f)) s = .next (s.raise .invalidBlockLength) := if_pos h
theorem exec_decompress_supported (f : Format) (s : State) (h : s.eng.clen.toNat = blockSize f) :
    exec (.decompress (.supported f)) s = .next (s.completeWith (Engine.decompressBlock f)) :=
  if_neg fun hn => hn h
theorem exec_csbuild (pt wa : Bool) (s : State) :
    exec (.csbuild pt wa) s = .next (s.completeWith (Engine.csBuild pt wa)) := rfl
theorem exec_fitsingle (lv : Levels) (met : Metric) (s : State) :
    exec (.fitsingle lv met) s = .next (s.completeWith (Engine.fitSingle lv met)) := rfl
theorem exec_fitrange (lv : Levels) (met : Metric) (s : State) :
    exec (.fitrange lv met) s = .next (s.completeWith (Engine.fitRange lv met)) := rfl
theorem exec_fitcluster (lv : Levels) (met : Metric) (pt : Bool) (ro : Nat) (s : State) :
    exec (.fitcluster lv met pt ro) s = .next (s.completeWith (Engine.fitCluster lv met pt ro)) := rfl
theorem exec_cenc (off : Half) (s : State) : exec (.cenc off) s = .next (s.completeWith (Engine.colourEnc off)) := rfl
theorem exec_cdec (off : Half) (m3 : Bool) (s : State) :
    exec (.cdec off m3) s = .next (s.completeWith (Engine.colourDec off m3)) := rfl
theorem exec_aenc4 (off : Half) (s : State) : exec (.aenc4 off) s = .next (s.completeWith (Engine.alphaEnc4 off)) := rfl
theorem exec_adec4 (off : Half) (s : State) : exec (.adec4 off) s = .next (s.completeWith (Engine.alphaDec4 off)) := rfl
theorem exec_afit (ch : Channel) (s : State) : exec (.afit ch) s = .next (s.completeWith (Engine.alphaFitCh ch)) := rfl
theorem exec_aenc8 (off : Half) (s : State) : exec (.aenc8 off) s = .next (s.completeWith (Engine.alphaEnc8 off)) := rfl
theorem exec_adec8 (off : Half) (ch : Channel) (s : State) :
    exec (.adec8 off ch) s = .next (s.completeWith (Engine.alphaDec8 off ch)) := rfl

/-- A command ends in one of three ways: it raises, it resets the engine, or it completes some effect. -/
theorem exec_cases (i : Instr) (s : State) :
    (∃ k, exec i s = .next (s.raise k)) ∨ (i = .sreset ∧ exec i s = .next { s with eng := Engine.reset }) ∨
      ∃ f : Engine → Engine, exec i s = .next (s.completeWith f) := by
  cases i with
  | sreset => exact .inr (.inl ⟨rfl, rfl⟩)
  | compress fmt fit met pt wa ro =>
    cases fmt with
    | reserved n => exact .inl ⟨_, rfl⟩
    | supported f => exact .inr (.inr ⟨_, rfl⟩)
  | decompress fmt =>
    cases fmt with
    | reserved n => exact .inl ⟨_, rfl⟩
    | supported f =>
      by_cases h : s.eng.clen.toNat = blockSize f
      · exact .inr (.inr ⟨_, exec_decompress_supported f s h⟩)
      · exact .inl ⟨_, exec_decompress_badLength f s h⟩
  | _ => exact .inr (.inr ⟨_, rfl⟩)

/-! ### A host access -/

theorem runCommand_ok {w : Word} {i : Instr} (h : decode w = .ok i) (s : State) : runCommand w s = exec i s := by
  simp only [runCommand, h]

theorem runCommand_error {w : Word} {x : DecodeError} (h : decode w = .error x) (s : State) :
    runCommand w s = .next (s.raise .illegalCommand) := by
  simp only [runCommand, h]

theorem hostWrite_refused {off width : Nat} (h : accessReg off width = none) (v : Word) (rest : List HostEvent)
    (s : State) : hostWrite off width v rest s = .next (s.answered rest .busErr) := by
  simp only [hostWrite, h]

theorem hostWrite_cmd (v : Word) (rest : List HostEvent) (s : State) :
    hostWrite 0x000 32 v rest s = runCommand v (s.answered rest .ok) := by
  have h : accessReg 0x000 32 = some .cmd := accessReg_offset .cmd
  simp only [hostWrite, h]

theorem hostWrite_reg {r : Reg} (hr : r ≠ .cmd) (v : Word) (rest : List HostEvent) (s : State) :
    hostWrite r.offset 32 v rest s = .next { s.answered rest .ok with eng := s.eng.writeReg r v } := by
  unfold hostWrite
  rw [accessReg_offset]
  cases r <;> first | rfl | exact absurd rfl hr

/-- A write is refused, runs a command, or writes a register other than `CMD`. -/
theorem hostWrite_cases (off width : Nat) (v : Word) (rest : List HostEvent) (s : State) :
    (accessReg off width = none ∧ hostWrite off width v rest s = .next (s.answered rest .busErr)) ∨
    (off = 0x000 ∧ width = 32 ∧ hostWrite off width v rest s = runCommand v (s.answered rest .ok)) ∨
    ∃ r : Reg, r ≠ .cmd ∧ off = r.offset ∧ width = 32 ∧
      hostWrite off width v rest s = .next { s.answered rest .ok with eng := s.eng.writeReg r v } := by
  cases h : accessReg off width with
  | none => exact .inl ⟨rfl, hostWrite_refused h v rest s⟩
  | some r =>
    obtain ⟨rfl, rfl⟩ := of_accessReg h
    by_cases hr : r = .cmd
    · subst hr
      exact .inr (.inl ⟨rfl, rfl, hostWrite_cmd v rest s⟩)
    · exact .inr (.inr ⟨r, hr, rfl, rfl, hostWrite_reg hr v rest s⟩)

/-! ### A step -/

theorem step_idle {s : State} (h : s.pending = []) : step s = .next s := by simp only [step, h]

theorem step_read {s : State} {off width : Nat} {rest : List HostEvent} (h : s.pending = .read off width :: rest) :
    step s = .next (s.answered rest (s.eng.hostRead off width)) := by simp only [step, h]

theorem step_write {s : State} {off width : Nat} {v : Word} {rest : List HostEvent}
    (h : s.pending = .write off width v :: rest) : step s = hostWrite off width v rest s := by simp only [step, h]

theorem step_hardReset {s : State} {rest : List HostEvent} (h : s.pending = .reset :: rest) :
    step s = .next { s with eng := Engine.reset, pending := rest } := by simp only [step, h]

/-- A write to `CMD` of a word that decodes runs its instruction. -/
theorem step_command {s : State} {w : Word} {i : Instr} {rest : List HostEvent}
    (h : s.pending = .write 0x000 32 w :: rest) (hd : decode w = .ok i) :
    step s = exec i (s.answered rest .ok) := by
  rw [step_write h, hostWrite_cmd, runCommand_ok hd]

/-- A write to `CMD` of a word that does not decode raises `IllegalCommand`. -/
theorem step_illegal {s : State} {w : Word} {x : DecodeError} {rest : List HostEvent}
    (h : s.pending = .write 0x000 32 w :: rest) (hd : decode w = .error x) :
    step s = .next ((s.answered rest .ok).raise .illegalCommand) := by
  rw [step_write h, hostWrite_cmd, runCommand_error hd]

/-- What a step can do: nothing, take an access that leaves the engine alone, write a register, reset the engine, raise
`IllegalCommand`, or execute a decoded instruction. -/
theorem step_cases (s : State) :
    (s.pending = [] ∧ step s = .next s) ∨
    (∃ rest a, step s = .next (s.answered rest a)) ∨
    (∃ r v rest, r ≠ Reg.cmd ∧ s.pending = .write r.offset 32 v :: rest ∧
      step s = .next { s.answered rest .ok with eng := s.eng.writeReg r v }) ∨
    (∃ rest, s.pending = .reset :: rest ∧ step s = .next { s with eng := Engine.reset, pending := rest }) ∨
    (∃ w x rest, s.pending = .write 0x000 32 w :: rest ∧ decode w = .error x ∧
      step s = .next ((s.answered rest .ok).raise .illegalCommand)) ∨
    ∃ w i rest, s.pending = .write 0x000 32 w :: rest ∧ decode w = .ok i ∧ step s = exec i (s.answered rest .ok) := by
  cases hp : s.pending with
  | nil => exact .inl ⟨rfl, step_idle hp⟩
  | cons ev rest =>
    cases ev with
    | read off width => exact .inr (.inl ⟨_, _, step_read hp⟩)
    | reset => exact .inr (.inr (.inr (.inl ⟨rest, rfl, step_hardReset hp⟩)))
    | write off width v =>
      rcases hostWrite_cases off width v rest s with ⟨-, h⟩ | ⟨rfl, rfl, -⟩ | ⟨r, hr, rfl, rfl, h⟩
      · exact .inr (.inl ⟨_, _, (step_write hp).trans h⟩)
      · cases hd : decode v with
        | error x => exact .inr (.inr (.inr (.inr (.inl ⟨v, x, rest, rfl, hd, step_illegal hp hd⟩))))
        | ok i => exact .inr (.inr (.inr (.inr (.inr ⟨v, i, rest, rfl, hd, step_command hp hd⟩))))
      · exact .inr (.inr (.inl ⟨r, v, rest, hr, rfl, (step_write hp).trans h⟩))

end Sys2Proof.Machine
end

