-- ==== Sys2Proof/Laws/Fit.lean ====
section
/-!
SUPPORT. The pieces of the fits, each said once: the spread of indices, the split that replaces the incumbent, the exchange
of two neighbours.
-/
namespace Sys2Proof.Machine

/-- An excluded pixel gets index 3. -/
theorem spread_none {cs : ColourSet} {i : Fin 16} (h : cs.remap[i] = none) (x : Vector (BitVec 2) 16) :
    (spread cs x)[i] = 3#2 := by
  simp only [spread, tab16_getElem_fin, h]

/-- A pixel of an entry gets the entry's index. -/
theorem spread_some {cs : ColourSet} {i j : Fin 16} (h : cs.remap[i] = some j) (x : Vector (BitVec 2) 16) :
    (spread cs x)[i] = x[j] := by
  simp only [spread, tab16_getElem_fin, h]

/-- There is a prefix sum before each position and one after the last. -/
@[simp] theorem prefixSums_length (cs : ColourSet) (acc : GroupAcc) (o : List (Fin 16)) :
    (prefixSums cs acc o).length = o.length + 1 := by
  induction o generalizing acc with
  | nil => rfl
  | cons i o ih => simp only [prefixSums, List.length_cons, ih]

/-- A split leaves the search as it was, or is evaluated and replaces the incumbent by a fit of strictly smaller error. -/
theorem Search.trySplit_cases (cs : ColourSet) (o : List (Fin 16)) (pre : List GroupAcc) (lv : Levels) (m : Vec3)
    (s : Search) (c : Cuts) :
    Search.trySplit cs o pre lv m s c = s ∨
      ∃ f, evalSplit cs o pre lv m c = some f ∧ flt f.err s.best.fit.err = true ∧
        Search.trySplit cs o pre lv m s c = ⟨⟨f, some (o, c)⟩, true⟩ := by
  unfold Search.trySplit
  cases h : evalSplit cs o pre lv m c with
  | none => exact .inl rfl
  | some f =>
    cases hf : flt f.err s.best.fit.err with
    | false => exact .inl (if_neg (by simp [hf]))
    | true => exact .inr ⟨f, rfl, hf, if_pos hf⟩

/-- The exchange of two neighbours permutes the order. -/
theorem swapAt_perm (o : List (Fin 16)) (c : Nat) : (swapAt o c).Perm o := by
  unfold swapAt
  split
  · rename_i x y rest h
    conv_rhs => rw [← List.take_append_drop (c - 1) o, h]
    exact (List.Perm.swap x y rest).append_left _
  · exact List.Perm.refl o

/-- Insertion keeps the members. -/
theorem insertByProj_perm (p : Fin 16 → F32) (x : Fin 16) (ys : List (Fin 16)) :
    (insertByProj p x ys).Perm (x :: ys) := by
  induction ys with
  | nil => exact List.Perm.refl _
  | cons y ys ih =>
    unfold insertByProj
    split
    · exact (ih.cons y).trans (List.Perm.swap x y ys)
    · exact List.Perm.refl _

end Sys2Proof.Machine
end

