-- ==== Sys2Proof/Laws/Float.lean ====
section
/-!
SUPPORT. The comparisons are a strict order and its equality on the values that are no NaN; the selections built on them;
the rounding of a quotient is within half a unit.
-/
namespace Sys2Proof.Machine

/-! ### The arithmetic of the rules is binary32 (R10 `NUM`) -/

theorem fadd_eq (a b : F32) : fadd a b = b32Add a b := rfl
theorem fsub_eq (a b : F32) : fsub a b = b32Sub a b := rfl
theorem fmul_eq (a b : F32) : fmul a b = b32Mul a b := rfl
theorem fdiv_eq (a b : F32) : fdiv a b = b32Div a b := rfl
theorem flt_eq (a b : F32) : flt a b = b32Lt a b := rfl
theorem feq_eq (a b : F32) : feq a b = b32Eq a b := rfl
theorem i2f_eq (n : Int) : i2f n = b32OfInt n := rfl
theorem f2i_eq (a : F32) : f2i a = b32ToInt a := rfl
theorem fabs_eq (a : F32) : fabs a = b32Abs a := rfl

/-! ### Comparisons -/

theorem flt_iff (a b : F32) : flt a b = true ↔ f32IsNaN a = false ∧ f32IsNaN b = false ∧ f32Val a < f32Val b := by
  simp [flt_eq, b32Lt, and_assoc]

theorem feq_iff (a b : F32) : feq a b = true ↔ f32IsNaN a = false ∧ f32IsNaN b = false ∧ f32Val a = f32Val b := by
  simp [feq_eq, b32Eq, and_assoc]

@[simp] theorem flt_self (a : F32) : flt a a = false := by simp [flt_eq, b32Lt]

theorem flt_trans {a b c : F32} (h : flt a b = true) (h' : flt b c = true) : flt a c = true := by
  rw [flt_iff] at *
  exact ⟨h.1, h'.2.1, h.2.2.trans h'.2.2⟩

theorem flt_asymm {a b : F32} (h : flt a b = true) : flt b a = false := by
  by_contra hn
  have := flt_trans h (by simpa using hn)
  simp at this

theorem flt_of_feq_left {a b c : F32} (h : feq a b = true) : flt a c = flt b c := by
  rw [feq_iff] at h
  simp [flt_eq, b32Lt, h.1, h.2.1, h.2.2]

theorem flt_of_feq_right {a b c : F32} (h : feq a b = true) : flt c a = flt c b := by
  rw [feq_iff] at h
  simp [flt_eq, b32Lt, h.1, h.2.1, h.2.2]

/-- Of two values that are no NaN, one is below the other or they are equal. -/
theorem flt_trichotomy {a b : F32} (ha : f32IsNaN a = false) (hb : f32IsNaN b = false) :
    flt a b = true ∨ feq a b = true ∨ flt b a = true := by
  rw [flt_iff, feq_iff, flt_iff]
  rcases lt_trichotomy (f32Val a) (f32Val b) with h | h | h
  · exact .inl ⟨ha, hb, h⟩
  · exact .inr (.inl ⟨ha, hb, h⟩)
  · exact .inr (.inr ⟨hb, ha, h⟩)

/-- Not below, on values that are no NaN, is at or above. -/
theorem flt_eq_false_iff {a b : F32} (ha : f32IsNaN a = false) (hb : f32IsNaN b = false) :
    flt a b = false ↔ f32Val b ≤ f32Val a := by
  rw [← Bool.not_eq_true, flt_iff]
  simp [ha, hb]

/-- A strictly smaller value is not above what the larger one is not above. -/
theorem flt_false_of_flt {a b c : F32} (h : flt a b = true) (h' : flt c b = false) (hc : f32IsNaN c = false) :
    flt c a = false := by
  obtain ⟨ha, hb, hv⟩ := (flt_iff a b).mp h
  rw [flt_eq_false_iff hc hb] at h'
  rw [flt_eq_false_iff hc ha]
  omega

/-- The rounded quotient is within half a unit of the exact one. -/
theorem roundNearest_spec (num den : Nat) (h0 : 0 < den) :
    2 * (roundNearest num den * den) ≤ 2 * num + den ∧ 2 * num ≤ 2 * (roundNearest num den * den) + den := by
  have hdm := Nat.div_add_mod num den
  have hc : den * (num / den) = num / den * den := Nat.mul_comm _ _
  unfold roundNearest
  split
  · omega
  · split
    · rw [Nat.add_mul, Nat.one_mul]
      have := Nat.mod_lt num h0
      omega
    · rcases Nat.mod_two_eq_zero_or_one (num / den) with h | h <;> rw [h]
      · rw [Nat.add_zero]
        omega
      · rw [Nat.add_mul, Nat.one_mul]
        omega

/-- An exact quotient is not changed. -/
theorem roundNearest_exact (q den : Nat) (h : 0 < den) : roundNearest (q * den) den = q := by
  simp [roundNearest, h]

/-- The first of least error is one of the candidates. -/
theorem firstLeast_mem {α : Type} (err : α → Nat) (best : α) (xs : List α) :
    firstLeast err best xs = best ∨ firstLeast err best xs ∈ xs := by
  induction xs generalizing best with
  | nil => exact .inl rfl
  | cons x xs ih =>
    unfold firstLeast
    split
    · rcases ih x with h | h
      · simp [h]
      · exact .inr (List.mem_cons_of_mem _ h)
    · rcases ih best with h | h
      · exact .inl h
      · exact .inr (List.mem_cons_of_mem _ h)

/-- No candidate has a smaller error than the first of least error. -/
theorem firstLeast_le {α : Type} (err : α → Nat) (best : α) (xs : List α) :
    err (firstLeast err best xs) ≤ err best ∧ ∀ x ∈ xs, err (firstLeast err best xs) ≤ err x := by
  induction xs generalizing best with
  | nil => simp [firstLeast]
  | cons x xs ih =>
    unfold firstLeast
    split
    · obtain ⟨hb, hx⟩ := ih x
      exact ⟨by omega, by simpa using ⟨hb, hx⟩⟩
    · obtain ⟨hb, hx⟩ := ih best
      exact ⟨hb, by simpa using ⟨by omega, hx⟩⟩

end Sys2Proof.Machine
end

