-- ==== Sys2Proof/Laws/PerInstr.lean ====
section
/-!
SUPPORT. Statements made instruction by instruction: the word of an instruction carries its row's opcode and no reserved
bit, the mask and match of R96.
-/
namespace Sys2Proof

/-- The row of R96 an instruction belongs to. -/
def Instr.opcode : Instr → Opcode
  | .nop => .nop
  | .clrerr => .clrerr
  | .sreset => .sreset
  | .compress _ _ _ _ _ _ => .compress
  | .decompress _ => .decompress
  | .csbuild _ _ => .csbuild
  | .fitsingle _ _ => .fitsingle
  | .fitrange _ _ => .fitrange
  | .fitcluster _ _ _ _ => .fitcluster
  | .cenc _ => .cenc
  | .cdec _ _ => .cdec
  | .aenc4 _ => .aenc4
  | .adec4 _ => .adec4
  | .afit _ => .afit
  | .aenc8 _ => .aenc8
  | .adec8 _ _ => .adec8

namespace Laws.MatchBits

/-- The opcode byte of the encoded word is the row's, and its reserved byte is 0. -/
def Statement (i : Instr) : Prop :=
  (Fields.ofWord (encode i)).op = i.opcode.code ∧ (Fields.ofWord (encode i)).rsv = 0#8

theorem of_fields (i : Instr) (h : (fieldsOf i).op = i.opcode.code ∧ (fieldsOf i).rsv = 0#8) : Statement i := by
  unfold Statement encode
  rw [Fields.ofWord_toWord]
  exact h

theorem nop : Statement .nop := of_fields _ ⟨rfl, rfl⟩
theorem clrerr : Statement .clrerr := of_fields _ ⟨rfl, rfl⟩
theorem sreset : Statement .sreset := of_fields _ ⟨rfl, rfl⟩
theorem compress (fmt : FmtSel) (fit : FitQuality) (met : Metric) (pt wa : Bool) (ro : Nat) :
    Statement (.compress fmt fit met pt wa ro) := of_fields _ ⟨rfl, rfl⟩
theorem decompress (fmt : FmtSel) : Statement (.decompress fmt) := of_fields _ ⟨rfl, rfl⟩
theorem csbuild (pt wa : Bool) : Statement (.csbuild pt wa) := of_fields _ ⟨rfl, rfl⟩
theorem fitsingle (lv : Levels) (met : Metric) : Statement (.fitsingle lv met) := of_fields _ ⟨rfl, rfl⟩
theorem fitrange (lv : Levels) (met : Metric) : Statement (.fitrange lv met) := of_fields _ ⟨rfl, rfl⟩
theorem fitcluster (lv : Levels) (met : Metric) (pt : Bool) (ro : Nat) : Statement (.fitcluster lv met pt ro) :=
  of_fields _ ⟨rfl, rfl⟩
theorem cenc (off : Half) : Statement (.cenc off) := of_fields _ ⟨rfl, rfl⟩
theorem cdec (off : Half) (m3 : Bool) : Statement (.cdec off m3) := of_fields _ ⟨rfl, rfl⟩
theorem aenc4 (off : Half) : Statement (.aenc4 off) := of_fields _ ⟨rfl, rfl⟩
theorem adec4 (off : Half) : Statement (.adec4 off) := of_fields _ ⟨rfl, rfl⟩
theorem afit (ch : Channel) : Statement (.afit ch) := of_fields _ ⟨rfl, rfl⟩
theorem aenc8 (off : Half) : Statement (.aenc8 off) := of_fields _ ⟨rfl, rfl⟩
theorem adec8 (off : Half) (ch : Channel) : Statement (.adec8 off ch) := of_fields _ ⟨rfl, rfl⟩

end Laws.MatchBits

end Sys2Proof
end

