-- ==== Sys2Proof/Laws/Search.lean ====
section
/-!
SUPPORT. What the split search of Cluster Fit can do, said once: over any list of candidates it keeps the incumbent, or the
first candidate of least error; `splitSearch` and `reorderPass` are such searches.
-/
namespace Sys2Proof.Machine

/-- One candidate tried: its order's prefix sums, its cuts (R252). -/
def Search.tryCandidate (cs : ColourSet) (lv : Levels) (m : Vec3) (s : Search) (x : List (Fin 16) × Cuts) : Search :=
  Search.trySplit cs x.1 (prefixSums cs GroupAcc.zero x.1) lv m s x.2

theorem Search.tryCandidate_eq (cs : ColourSet) (lv : Levels) (m : Vec3) (s : Search) (x : List (Fin 16) × Cuts) :
    s.tryCandidate cs lv m x = match candidateFit cs lv m x with
      | none => s
      | some f => if flt f.err s.best.fit.err then ⟨⟨f, some x⟩, true⟩ else s := by
  unfold Search.tryCandidate Search.trySplit candidateFit
  cases evalSplit cs x.1 (prefixSums cs GroupAcc.zero x.1) lv m x.2 <;> rfl

theorem Search.tryCandidate_none {cs : ColourSet} {lv : Levels} {m : Vec3} {x : List (Fin 16) × Cuts}
    (h : candidateFit cs lv m x = none) (s : Search) : s.tryCandidate cs lv m x = s := by
  rw [Search.tryCandidate_eq, h]

theorem Search.tryCandidate_some {cs : ColourSet} {lv : Levels} {m : Vec3} {x : List (Fin 16) × Cuts} {f : FitCore}
    (h : candidateFit cs lv m x = some f) (s : Search) :
    s.tryCandidate cs lv m x = if flt f.err s.best.fit.err then ⟨⟨f, some x⟩, true⟩ else s := by
  rw [Search.tryCandidate_eq, h]

/-- After a search no candidate's error is below the incumbent's. -/
theorem KeepsFirstBest.le {cs : ColourSet} {lv : Levels} {m : Vec3} {xs : List (List (Fin 16) × Cuts)} {b b' : Best}
    (h : KeepsFirstBest cs lv m xs b b') :
    ∀ x ∈ xs, ∀ g, candidateFit cs lv m x = some g → flt g.err b'.fit.err = false := by
  rcases h with ⟨rfl, h⟩ | ⟨pre, y, post, f, rfl, hy, rfl, -, hpre, hpost⟩
  · exact h
  · intro x hx g hg
    simp only [List.mem_append, List.mem_cons] at hx
    rcases hx with hx | rfl | hx
    · rcases hpre x hx g hg with hlt | hn
      · exact flt_asymm hlt
      · simp [flt_eq, b32Lt, hn]
    · rw [hy] at hg
      cases hg
      simp
    · exact hpost x hx g hg

/-- One more candidate that is skipped, or whose error is not below the incumbent's. -/
theorem KeepsFirstBest.snoc {cs : ColourSet} {lv : Levels} {m : Vec3} {xs : List (List (Fin 16) × Cuts)} {b b' : Best}
    (h : KeepsFirstBest cs lv m xs b b') (x : List (Fin 16) × Cuts)
    (hx : ∀ g, candidateFit cs lv m x = some g → flt g.err b'.fit.err = false) :
    KeepsFirstBest cs lv m (xs ++ [x]) b b' := by
  rcases h with ⟨rfl, h⟩ | ⟨pre, y, post, f, rfl, hy, rfl, hlt, hpre, hpost⟩
  · refine .inl ⟨rfl, fun y hy g hg => ?_⟩
    rcases List.mem_append.mp hy with hy | hy
    · exact h y hy g hg
    · rw [List.mem_singleton.mp hy] at hg
      exact hx g hg
  · refine .inr ⟨pre, y, post ++ [x], f, by simp, hy, rfl, hlt, hpre, fun z hz g hg => ?_⟩
    rcases List.mem_append.mp hz with hz | hz
    · exact hpost z hz g hg
    · rw [List.mem_singleton.mp hz] at hg
      exact hx g hg

/-- A new incumbent's error is below the old one's. -/
theorem KeepsFirstBest.flt_trans {cs : ColourSet} {lv : Levels} {m : Vec3} {xs : List (List (Fin 16) × Cuts)}
    {b b' : Best} (h : KeepsFirstBest cs lv m xs b b') {e : F32} (he : flt e b'.fit.err = true) :
    flt e b.fit.err = true := by
  rcases h with ⟨rfl, -⟩ | ⟨_, _, _, _, _, _, rfl, hlt, _, _⟩
  · exact he
  · exact Machine.flt_trans he hlt

/-- A search keeps the incumbent or the first candidate of least error (R251, R252); it says that it did not improve only
when it left everything, and that it did only when the incumbent is another. -/
theorem foldl_tryCandidate (cs : ColourSet) (lv : Levels) (m : Vec3) (xs : List (List (Fin 16) × Cuts)) (s : Search) :
    KeepsFirstBest cs lv m xs s.best (xs.foldl (Search.tryCandidate cs lv m) s).best ∧
    ((xs.foldl (Search.tryCandidate cs lv m) s).improved = false → xs.foldl (Search.tryCandidate cs lv m) s = s) ∧
    ((xs.foldl (Search.tryCandidate cs lv m) s).improved = true →
      s.improved = true ∨ (xs.foldl (Search.tryCandidate cs lv m) s).best ≠ s.best) := by
  induction xs using List.reverseRecOn with
  | nil => exact ⟨.inl ⟨rfl, by simp⟩, fun _ => rfl, .inl⟩
  | append_singleton xs x ih =>
    rw [List.foldl_append, List.foldl_cons, List.foldl_nil]
    generalize xs.foldl (Search.tryCandidate cs lv m) s = t at ih ⊢
    obtain ⟨hk, hno, hyes⟩ := ih
    cases hx : candidateFit cs lv m x with
    | none =>
      rw [Search.tryCandidate_none hx]
      exact ⟨hk.snoc x (by simp [hx]), hno, hyes⟩
    | some f =>
      rw [Search.tryCandidate_some hx]
      by_cases hlt : flt f.err t.best.fit.err = true
      · rw [if_pos hlt]
        have hb := hk.flt_trans hlt
        refine ⟨.inr ⟨xs, x, [], f, rfl, hx, rfl, hb, fun y hy g hg => ?_, by simp⟩, by simp, fun _ => .inr fun h => ?_⟩
        · by_cases hn : f32IsNaN g.err = true
          · exact .inr hn
          · have hg' := hk.le y hy g hg
            rw [flt_iff] at hlt
            rw [flt_eq_false_iff (by simpa using hn) hlt.2.1] at hg'
            exact .inl ((flt_iff _ _).mpr ⟨hlt.1, by simpa using hn, by omega⟩)
        · rw [← h] at hb
          simp at hb
      · rw [if_neg hlt]
        exact ⟨hk.snoc x (by simpa [hx] using hlt), hno, hyes⟩

/-- `splitSearch` is the search of its order's candidates. -/
theorem splitSearch_eq (cs : ColourSet) (lv : Levels) (pt : Bool) (m : Vec3) (o : List (Fin 16)) (s : Search) :
    splitSearch cs lv pt m o s = (candidatesOf lv pt o).foldl (Search.tryCandidate cs lv m) s := by
  rw [candidatesOf, List.foldl_map]
  rfl

/-- A re-ordering pass is the search of its candidates. -/
theorem reorderPass_eq (cs : ColourSet) (lv : Levels) (pt : Bool) (m : Vec3) (o : List (Fin 16)) (c : Cuts) (b : Best) :
    reorderPass cs lv pt m o c b
      = (passCandidates lv pt (o, c)).foldl (Search.tryCandidate cs lv m) ⟨b, false⟩ := by
  simp only [reorderPass, passCandidates, List.foldl_flatMap, splitSearch_eq]

end Sys2Proof.Machine
end

