-- ==== Sys2Proof/Laws/State.lean ====
section
/-!
SUPPORT. One lemma per field per update of the state: no later proof unfolds a record update.
-/
namespace Sys2Proof.Machine

/-! ### Updates of the machine -/
@[simp] theorem State.raise_eng (k : ErrorKind) (s : State) :
    (s.raise k).eng = s.eng.raise k := rfl
@[simp] theorem State.raise_pending (k : ErrorKind) (s : State) :
    (s.raise k).pending = s.pending := rfl
@[simp] theorem State.raise_answer (k : ErrorKind) (s : State) :
    (s.raise k).answer = s.answer := rfl
@[simp] theorem State.completeWith_status (f : Engine → Engine) (s : State) :
    (s.completeWith f).eng.status = (f s.eng).status.complete := rfl
@[simp] theorem State.completeWith_clen (f : Engine → Engine) (s : State) :
    (s.completeWith f).eng.clen = (f s.eng).clen := rfl
@[simp] theorem State.completeWith_fit (f : Engine → Engine) (s : State) :
    (s.completeWith f).eng.fit = (f s.eng).fit := rfl
@[simp] theorem State.completeWith_af (f : Engine → Engine) (s : State) :
    (s.completeWith f).eng.af = (f s.eng).af := rfl
@[simp] theorem State.completeWith_cs (f : Engine → Engine) (s : State) :
    (s.completeWith f).eng.cs = (f s.eng).cs := rfl
@[simp] theorem State.completeWith_pix (f : Engine → Engine) (s : State) :
    (s.completeWith f).eng.pix = (f s.eng).pix := rfl
@[simp] theorem State.completeWith_cblk (f : Engine → Engine) (s : State) :
    (s.completeWith f).eng.cblk = (f s.eng).cblk := rfl
@[simp] theorem State.completeWith_dpix (f : Engine → Engine) (s : State) :
    (s.completeWith f).eng.dpix = (f s.eng).dpix := rfl
@[simp] theorem State.completeWith_pending (f : Engine → Engine) (s : State) :
    (s.completeWith f).pending = s.pending := rfl
@[simp] theorem State.completeWith_answer (f : Engine → Engine) (s : State) :
    (s.completeWith f).answer = s.answer := rfl
@[simp] theorem State.answered_eng (s : State) (rest : List HostEvent) (a : Answer) :
    (s.answered rest a).eng = s.eng := rfl
@[simp] theorem State.answered_pending (s : State) (rest : List HostEvent) (a : Answer) :
    (s.answered rest a).pending = rest := rfl
@[simp] theorem State.answered_answer (s : State) (rest : List HostEvent) (a : Answer) :
    (s.answered rest a).answer = some a := rfl
@[simp] theorem State.withFetchWord_eng (s : State) (nbits w : Nat) :
    (s.withFetchWord nbits w).eng = s.eng := rfl
@[simp] theorem State.withFetchWord_answer (s : State) (nbits w : Nat) :
    (s.withFetchWord nbits w).answer = s.answer := rfl
@[simp] theorem State.withScript_eng (s : State) (l : List HostEvent) :
    (s.withScript l).eng = s.eng := rfl
@[simp] theorem State.withScript_answer (s : State) (l : List HostEvent) :
    (s.withScript l).answer = s.answer := rfl
@[simp] theorem State.withScript_pending (s : State) (l : List HostEvent) :
    (s.withScript l).pending = l ++ s.pending := rfl

/-! ### Updates of `STATUS` -/

@[simp] theorem Status.complete_done (st : Status) :
    st.complete.done = true := rfl
@[simp] theorem Status.complete_err (st : Status) :
    st.complete.err = st.err := rfl
@[simp] theorem Status.complete_sna (st : Status) :
    st.complete.sna = st.sna := rfl
@[simp] theorem Status.complete_code (st : Status) :
    st.complete.code = st.code := rfl
@[simp] theorem Status.raise_done (k : ErrorKind) (st : Status) :
    (st.raise k).done = false := rfl
@[simp] theorem Status.raise_err (k : ErrorKind) (st : Status) :
    (st.raise k).err = true := rfl
@[simp] theorem Status.raise_sna (k : ErrorKind) (st : Status) :
    (st.raise k).sna = st.sna := rfl
@[simp] theorem Status.raise_code (k : ErrorKind) (st : Status) :
    (st.raise k).code = (if st.err then st.code else k.code) := rfl
@[simp] theorem Status.clearErr_done (st : Status) :
    st.clearErr.done = st.done := rfl
@[simp] theorem Status.clearErr_err (st : Status) :
    st.clearErr.err = false := rfl
@[simp] theorem Status.clearErr_sna (st : Status) :
    st.clearErr.sna = st.sna := rfl
@[simp] theorem Status.clearErr_code (st : Status) :
    st.clearErr.code = 0#4 := rfl
@[simp] theorem Status.setSna_done (b : Bool) (st : Status) :
    (st.setSna b).done = st.done := rfl
@[simp] theorem Status.setSna_err (b : Bool) (st : Status) :
    (st.setSna b).err = st.err := rfl
@[simp] theorem Status.setSna_sna (b : Bool) (st : Status) :
    (st.setSna b).sna = b := rfl
@[simp] theorem Status.setSna_code (b : Bool) (st : Status) :
    (st.setSna b).code = st.code := rfl

/-! ### Updates of the engine -/

@[simp] theorem Engine.raise_status (k : ErrorKind) (e : Engine) :
    (e.raise k).status = e.status.raise k := rfl
@[simp] theorem Engine.raise_clen (k : ErrorKind) (e : Engine) :
    (e.raise k).clen = e.clen := rfl
@[simp] theorem Engine.raise_fit (k : ErrorKind) (e : Engine) :
    (e.raise k).fit = e.fit := rfl
@[simp] theorem Engine.raise_af (k : ErrorKind) (e : Engine) :
    (e.raise k).af = e.af := rfl
@[simp] theorem Engine.raise_cs (k : ErrorKind) (e : Engine) :
    (e.raise k).cs = e.cs := rfl
@[simp] theorem Engine.raise_pix (k : ErrorKind) (e : Engine) :
    (e.raise k).pix = e.pix := rfl
@[simp] theorem Engine.raise_cblk (k : ErrorKind) (e : Engine) :
    (e.raise k).cblk = e.cblk := rfl
@[simp] theorem Engine.raise_dpix (k : ErrorKind) (e : Engine) :
    (e.raise k).dpix = e.dpix := rfl

theorem Engine.commit_eq (qa qb : Rgb565) (x : Vector (BitVec 2) 16) (err : F32) (lv : Levels) (e : Engine) :
    (e.commit qa qb x err lv) = { e with fit := ⟨grid qa, grid qb, spread e.cs x, lv, err⟩ } := rfl
@[simp] theorem Engine.commit_status (qa qb : Rgb565) (x : Vector (BitVec 2) 16) (err : F32) (lv : Levels) (e : Engine) :
    (e.commit qa qb x err lv).status = e.status := by rw [Engine.commit_eq]
@[simp] theorem Engine.commit_clen (qa qb : Rgb565) (x : Vector (BitVec 2) 16) (err : F32) (lv : Levels) (e : Engine) :
    (e.commit qa qb x err lv).clen = e.clen := by rw [Engine.commit_eq]
@[simp] theorem Engine.commit_fit (qa qb : Rgb565) (x : Vector (BitVec 2) 16) (err : F32) (lv : Levels) (e : Engine) :
    (e.commit qa qb x err lv).fit = ⟨grid qa, grid qb, spread e.cs x, lv, err⟩ := by rw [Engine.commit_eq]
@[simp] theorem Engine.commit_af (qa qb : Rgb565) (x : Vector (BitVec 2) 16) (err : F32) (lv : Levels) (e : Engine) :
    (e.commit qa qb x err lv).af = e.af := by rw [Engine.commit_eq]
@[simp] theorem Engine.commit_cs (qa qb : Rgb565) (x : Vector (BitVec 2) 16) (err : F32) (lv : Levels) (e : Engine) :
    (e.commit qa qb x err lv).cs = e.cs := by rw [Engine.commit_eq]
@[simp] theorem Engine.commit_pix (qa qb : Rgb565) (x : Vector (BitVec 2) 16) (err : F32) (lv : Levels) (e : Engine) :
    (e.commit qa qb x err lv).pix = e.pix := by rw [Engine.commit_eq]
@[simp] theorem Engine.commit_cblk (qa qb : Rgb565) (x : Vector (BitVec 2) 16) (err : F32) (lv : Levels) (e : Engine) :
    (e.commit qa qb x err lv).cblk = e.cblk := by rw [Engine.commit_eq]
@[simp] theorem Engine.commit_dpix (qa qb : Rgb565) (x : Vector (BitVec 2) 16) (err : F32) (lv : Levels) (e : Engine) :
    (e.commit qa qb x err lv).dpix = e.dpix := by rw [Engine.commit_eq]

@[simp] theorem Engine.csBuild_status (pt wa : Bool) (e : Engine) :
    (e.csBuild pt wa).status = e.status := by simp only [Engine.csBuild]
@[simp] theorem Engine.csBuild_clen (pt wa : Bool) (e : Engine) :
    (e.csBuild pt wa).clen = e.clen := by simp only [Engine.csBuild]
@[simp] theorem Engine.csBuild_fit (pt wa : Bool) (e : Engine) :
    (e.csBuild pt wa).fit = e.fit := by simp only [Engine.csBuild]
@[simp] theorem Engine.csBuild_af (pt wa : Bool) (e : Engine) :
    (e.csBuild pt wa).af = e.af := by simp only [Engine.csBuild]
@[simp] theorem Engine.csBuild_cs (pt wa : Bool) (e : Engine) :
    (e.csBuild pt wa).cs = buildSet pt wa e.pix := by simp only [Engine.csBuild]
@[simp] theorem Engine.csBuild_pix (pt wa : Bool) (e : Engine) :
    (e.csBuild pt wa).pix = e.pix := by simp only [Engine.csBuild]
@[simp] theorem Engine.csBuild_cblk (pt wa : Bool) (e : Engine) :
    (e.csBuild pt wa).cblk = e.cblk := by simp only [Engine.csBuild]
@[simp] theorem Engine.csBuild_dpix (pt wa : Bool) (e : Engine) :
    (e.csBuild pt wa).dpix = e.dpix := by simp only [Engine.csBuild]

@[simp] theorem Engine.colourDec_status (off : Half) (m3 : Bool) (e : Engine) :
    (e.colourDec off m3).status = e.status := by simp only [Engine.colourDec]
@[simp] theorem Engine.colourDec_clen (off : Half) (m3 : Bool) (e : Engine) :
    (e.colourDec off m3).clen = e.clen := by simp only [Engine.colourDec]
@[simp] theorem Engine.colourDec_fit (off : Half) (m3 : Bool) (e : Engine) :
    (e.colourDec off m3).fit = e.fit := by simp only [Engine.colourDec]
@[simp] theorem Engine.colourDec_af (off : Half) (m3 : Bool) (e : Engine) :
    (e.colourDec off m3).af = e.af := by simp only [Engine.colourDec]
@[simp] theorem Engine.colourDec_cs (off : Half) (m3 : Bool) (e : Engine) :
    (e.colourDec off m3).cs = e.cs := by simp only [Engine.colourDec]
@[simp] theorem Engine.colourDec_pix (off : Half) (m3 : Bool) (e : Engine) :
    (e.colourDec off m3).pix = e.pix := by simp only [Engine.colourDec]
@[simp] theorem Engine.colourDec_cblk (off : Half) (m3 : Bool) (e : Engine) :
    (e.colourDec off m3).cblk = e.cblk := by simp only [Engine.colourDec]
@[simp] theorem Engine.colourDec_dpix (off : Half) (m3 : Bool) (e : Engine) :
    (e.colourDec off m3).dpix = decodeColour m3 (e.half off) := by simp only [Engine.colourDec]

@[simp] theorem Engine.setChannel_status (ch : Channel) (v : Fin 16 → Byte) (e : Engine) :
    (e.setChannel ch v).status = e.status := by simp only [Engine.setChannel]
@[simp] theorem Engine.setChannel_clen (ch : Channel) (v : Fin 16 → Byte) (e : Engine) :
    (e.setChannel ch v).clen = e.clen := by simp only [Engine.setChannel]
@[simp] theorem Engine.setChannel_fit (ch : Channel) (v : Fin 16 → Byte) (e : Engine) :
    (e.setChannel ch v).fit = e.fit := by simp only [Engine.setChannel]
@[simp] theorem Engine.setChannel_af (ch : Channel) (v : Fin 16 → Byte) (e : Engine) :
    (e.setChannel ch v).af = e.af := by simp only [Engine.setChannel]
@[simp] theorem Engine.setChannel_cs (ch : Channel) (v : Fin 16 → Byte) (e : Engine) :
    (e.setChannel ch v).cs = e.cs := by simp only [Engine.setChannel]
@[simp] theorem Engine.setChannel_pix (ch : Channel) (v : Fin 16 → Byte) (e : Engine) :
    (e.setChannel ch v).pix = e.pix := by simp only [Engine.setChannel]
@[simp] theorem Engine.setChannel_cblk (ch : Channel) (v : Fin 16 → Byte) (e : Engine) :
    (e.setChannel ch v).cblk = e.cblk := by simp only [Engine.setChannel]
@[simp] theorem Engine.setChannel_dpix (ch : Channel) (v : Fin 16 → Byte) (e : Engine) :
    (e.setChannel ch v).dpix = tab16 fun i => e.dpix[i].setCh ch (v i) := by simp only [Engine.setChannel]

@[simp] theorem Engine.alphaFitCh_status (ch : Channel) (e : Engine) :
    (e.alphaFitCh ch).status = e.status := by simp only [Engine.alphaFitCh]
@[simp] theorem Engine.alphaFitCh_clen (ch : Channel) (e : Engine) :
    (e.alphaFitCh ch).clen = e.clen := by simp only [Engine.alphaFitCh]
@[simp] theorem Engine.alphaFitCh_fit (ch : Channel) (e : Engine) :
    (e.alphaFitCh ch).fit = e.fit := by simp only [Engine.alphaFitCh]
@[simp] theorem Engine.alphaFitCh_af (ch : Channel) (e : Engine) :
    (e.alphaFitCh ch).af = alphaFit (e.channel ch) := by simp only [Engine.alphaFitCh]
@[simp] theorem Engine.alphaFitCh_cs (ch : Channel) (e : Engine) :
    (e.alphaFitCh ch).cs = e.cs := by simp only [Engine.alphaFitCh]
@[simp] theorem Engine.alphaFitCh_pix (ch : Channel) (e : Engine) :
    (e.alphaFitCh ch).pix = e.pix := by simp only [Engine.alphaFitCh]
@[simp] theorem Engine.alphaFitCh_cblk (ch : Channel) (e : Engine) :
    (e.alphaFitCh ch).cblk = e.cblk := by simp only [Engine.alphaFitCh]
@[simp] theorem Engine.alphaFitCh_dpix (ch : Channel) (e : Engine) :
    (e.alphaFitCh ch).dpix = e.dpix := by simp only [Engine.alphaFitCh]

@[simp] theorem Engine.setLen_status (n : Nat) (e : Engine) :
    (e.setLen n).status = e.status := by simp only [Engine.setLen]
@[simp] theorem Engine.setLen_clen (n : Nat) (e : Engine) :
    (e.setLen n).clen = BitVec.ofNat 5 n := by simp only [Engine.setLen]
@[simp] theorem Engine.setLen_fit (n : Nat) (e : Engine) :
    (e.setLen n).fit = e.fit := by simp only [Engine.setLen]
@[simp] theorem Engine.setLen_af (n : Nat) (e : Engine) :
    (e.setLen n).af = e.af := by simp only [Engine.setLen]
@[simp] theorem Engine.setLen_cs (n : Nat) (e : Engine) :
    (e.setLen n).cs = e.cs := by simp only [Engine.setLen]
@[simp] theorem Engine.setLen_pix (n : Nat) (e : Engine) :
    (e.setLen n).pix = e.pix := by simp only [Engine.setLen]
@[simp] theorem Engine.setLen_cblk (n : Nat) (e : Engine) :
    (e.setLen n).cblk = e.cblk := by simp only [Engine.setLen]
@[simp] theorem Engine.setLen_dpix (n : Nat) (e : Engine) :
    (e.setLen n).dpix = e.dpix := by simp only [Engine.setLen]

@[simp] theorem Engine.fillOpaqueBlack_status (e : Engine) :
    e.fillOpaqueBlack.status = e.status := by simp only [Engine.fillOpaqueBlack]
@[simp] theorem Engine.fillOpaqueBlack_clen (e : Engine) :
    e.fillOpaqueBlack.clen = e.clen := by simp only [Engine.fillOpaqueBlack]
@[simp] theorem Engine.fillOpaqueBlack_fit (e : Engine) :
    e.fillOpaqueBlack.fit = e.fit := by simp only [Engine.fillOpaqueBlack]
@[simp] theorem Engine.fillOpaqueBlack_af (e : Engine) :
    e.fillOpaqueBlack.af = e.af := by simp only [Engine.fillOpaqueBlack]
@[simp] theorem Engine.fillOpaqueBlack_cs (e : Engine) :
    e.fillOpaqueBlack.cs = e.cs := by simp only [Engine.fillOpaqueBlack]
@[simp] theorem Engine.fillOpaqueBlack_pix (e : Engine) :
    e.fillOpaqueBlack.pix = e.pix := by simp only [Engine.fillOpaqueBlack]
@[simp] theorem Engine.fillOpaqueBlack_cblk (e : Engine) :
    e.fillOpaqueBlack.cblk = e.cblk := by simp only [Engine.fillOpaqueBlack]
@[simp] theorem Engine.fillOpaqueBlack_dpix (e : Engine) :
    e.fillOpaqueBlack.dpix = Vector.replicate 16 ⟨0, 0, 0, 255⟩ := by simp only [Engine.fillOpaqueBlack]

@[simp] theorem Engine.setHalf_status (h : Half) (b : Vector Byte 8) (e : Engine) :
    (e.setHalf h b).status = e.status := by simp only [Engine.setHalf]
@[simp] theorem Engine.setHalf_clen (h : Half) (b : Vector Byte 8) (e : Engine) :
    (e.setHalf h b).clen = e.clen := by simp only [Engine.setHalf]
@[simp] theorem Engine.setHalf_fit (h : Half) (b : Vector Byte 8) (e : Engine) :
    (e.setHalf h b).fit = e.fit := by simp only [Engine.setHalf]
@[simp] theorem Engine.setHalf_af (h : Half) (b : Vector Byte 8) (e : Engine) :
    (e.setHalf h b).af = e.af := by simp only [Engine.setHalf]
@[simp] theorem Engine.setHalf_cs (h : Half) (b : Vector Byte 8) (e : Engine) :
    (e.setHalf h b).cs = e.cs := by simp only [Engine.setHalf]
@[simp] theorem Engine.setHalf_pix (h : Half) (b : Vector Byte 8) (e : Engine) :
    (e.setHalf h b).pix = e.pix := by simp only [Engine.setHalf]
@[simp] theorem Engine.setHalf_dpix (h : Half) (b : Vector Byte 8) (e : Engine) :
    (e.setHalf h b).dpix = e.dpix := by simp only [Engine.setHalf]

@[simp] theorem Engine.clearUpper_status (e : Engine) :
    e.clearUpper.status = e.status := by simp only [Engine.clearUpper, Engine.setHalf]
@[simp] theorem Engine.clearUpper_clen (e : Engine) :
    e.clearUpper.clen = e.clen := by simp only [Engine.clearUpper, Engine.setHalf]
@[simp] theorem Engine.clearUpper_fit (e : Engine) :
    e.clearUpper.fit = e.fit := by simp only [Engine.clearUpper, Engine.setHalf]
@[simp] theorem Engine.clearUpper_af (e : Engine) :
    e.clearUpper.af = e.af := by simp only [Engine.clearUpper, Engine.setHalf]
@[simp] theorem Engine.clearUpper_cs (e : Engine) :
    e.clearUpper.cs = e.cs := by simp only [Engine.clearUpper, Engine.setHalf]
@[simp] theorem Engine.clearUpper_pix (e : Engine) :
    e.clearUpper.pix = e.pix := by simp only [Engine.clearUpper, Engine.setHalf]
@[simp] theorem Engine.clearUpper_dpix (e : Engine) :
    e.clearUpper.dpix = e.dpix := by simp only [Engine.clearUpper, Engine.setHalf]

@[simp] theorem Engine.colourEnc_status (off : Half) (e : Engine) :
    (e.colourEnc off).status = e.status := by simp only [Engine.colourEnc, Engine.setHalf]
@[simp] theorem Engine.colourEnc_clen (off : Half) (e : Engine) :
    (e.colourEnc off).clen = e.clen := by simp only [Engine.colourEnc, Engine.setHalf]
@[simp] theorem Engine.colourEnc_fit (off : Half) (e : Engine) :
    (e.colourEnc off).fit = e.fit := by simp only [Engine.colourEnc, Engine.setHalf]
@[simp] theorem Engine.colourEnc_af (off : Half) (e : Engine) :
    (e.colourEnc off).af = e.af := by simp only [Engine.colourEnc, Engine.setHalf]
@[simp] theorem Engine.colourEnc_cs (off : Half) (e : Engine) :
    (e.colourEnc off).cs = e.cs := by simp only [Engine.colourEnc, Engine.setHalf]
@[simp] theorem Engine.colourEnc_pix (off : Half) (e : Engine) :
    (e.colourEnc off).pix = e.pix := by simp only [Engine.colourEnc, Engine.setHalf]
@[simp] theorem Engine.colourEnc_dpix (off : Half) (e : Engine) :
    (e.colourEnc off).dpix = e.dpix := by simp only [Engine.colourEnc, Engine.setHalf]

@[simp] theorem Engine.alphaEnc4_status (off : Half) (e : Engine) :
    (e.alphaEnc4 off).status = e.status := by simp only [Engine.alphaEnc4, Engine.setHalf]
@[simp] theorem Engine.alphaEnc4_clen (off : Half) (e : Engine) :
    (e.alphaEnc4 off).clen = e.clen := by simp only [Engine.alphaEnc4, Engine.setHalf]
@[simp] theorem Engine.alphaEnc4_fit (off : Half) (e : Engine) :
    (e.alphaEnc4 off).fit = e.fit := by simp only [Engine.alphaEnc4, Engine.setHalf]
@[simp] theorem Engine.alphaEnc4_af (off : Half) (e : Engine) :
    (e.alphaEnc4 off).af = e.af := by simp only [Engine.alphaEnc4, Engine.setHalf]
@[simp] theorem Engine.alphaEnc4_cs (off : Half) (e : Engine) :
    (e.alphaEnc4 off).cs = e.cs := by simp only [Engine.alphaEnc4, Engine.setHalf]
@[simp] theorem Engine.alphaEnc4_pix (off : Half) (e : Engine) :
    (e.alphaEnc4 off).pix = e.pix := by simp only [Engine.alphaEnc4, Engine.setHalf]
@[simp] theorem Engine.alphaEnc4_dpix (off : Half) (e : Engine) :
    (e.alphaEnc4 off).dpix = e.dpix := by simp only [Engine.alphaEnc4, Engine.setHalf]

@[simp] theorem Engine.alphaEnc8_status (off : Half) (e : Engine) :
    (e.alphaEnc8 off).status = e.status := by simp only [Engine.alphaEnc8, Engine.setHalf]
@[simp] theorem Engine.alphaEnc8_clen (off : Half) (e : Engine) :
    (e.alphaEnc8 off).clen = e.clen := by simp only [Engine.alphaEnc8, Engine.setHalf]
@[simp] theorem Engine.alphaEnc8_fit (off : Half) (e : Engine) :
    (e.alphaEnc8 off).fit = e.fit := by simp only [Engine.alphaEnc8, Engine.setHalf]
@[simp] theorem Engine.alphaEnc8_af (off : Half) (e : Engine) :
    (e.alphaEnc8 off).af = e.af := by simp only [Engine.alphaEnc8, Engine.setHalf]
@[simp] theorem Engine.alphaEnc8_cs (off : Half) (e : Engine) :
    (e.alphaEnc8 off).cs = e.cs := by simp only [Engine.alphaEnc8, Engine.setHalf]
@[simp] theorem Engine.alphaEnc8_pix (off : Half) (e : Engine) :
    (e.alphaEnc8 off).pix = e.pix := by simp only [Engine.alphaEnc8, Engine.setHalf]
@[simp] theorem Engine.alphaEnc8_dpix (off : Half) (e : Engine) :
    (e.alphaEnc8 off).dpix = e.dpix := by simp only [Engine.alphaEnc8, Engine.setHalf]

@[simp] theorem Engine.alphaDec4_status (off : Half) (e : Engine) :
    (e.alphaDec4 off).status = e.status := by simp only [Engine.alphaDec4, Engine.setChannel]
@[simp] theorem Engine.alphaDec4_clen (off : Half) (e : Engine) :
    (e.alphaDec4 off).clen = e.clen := by simp only [Engine.alphaDec4, Engine.setChannel]
@[simp] theorem Engine.alphaDec4_fit (off : Half) (e : Engine) :
    (e.alphaDec4 off).fit = e.fit := by simp only [Engine.alphaDec4, Engine.setChannel]
@[simp] theorem Engine.alphaDec4_af (off : Half) (e : Engine) :
    (e.alphaDec4 off).af = e.af := by simp only [Engine.alphaDec4, Engine.setChannel]
@[simp] theorem Engine.alphaDec4_cs (off : Half) (e : Engine) :
    (e.alphaDec4 off).cs = e.cs := by simp only [Engine.alphaDec4, Engine.setChannel]
@[simp] theorem Engine.alphaDec4_pix (off : Half) (e : Engine) :
    (e.alphaDec4 off).pix = e.pix := by simp only [Engine.alphaDec4, Engine.setChannel]
@[simp] theorem Engine.alphaDec4_cblk (off : Half) (e : Engine) :
    (e.alphaDec4 off).cblk = e.cblk := by simp only [Engine.alphaDec4, Engine.setChannel]
@[simp] theorem Engine.alphaDec4_dpix (off : Half) (e : Engine) :
    (e.alphaDec4 off).dpix = tab16 fun i => e.dpix[i].setCh .a (decodeAlpha4 (e.half off) i) := by simp only [Engine.alphaDec4, Engine.setChannel]

@[simp] theorem Engine.alphaDec8_status (off : Half) (ch : Channel) (e : Engine) :
    (e.alphaDec8 off ch).status = e.status := by simp only [Engine.alphaDec8, Engine.setChannel]
@[simp] theorem Engine.alphaDec8_clen (off : Half) (ch : Channel) (e : Engine) :
    (e.alphaDec8 off ch).clen = e.clen := by simp only [Engine.alphaDec8, Engine.setChannel]
@[simp] theorem Engine.alphaDec8_fit (off : Half) (ch : Channel) (e : Engine) :
    (e.alphaDec8 off ch).fit = e.fit := by simp only [Engine.alphaDec8, Engine.setChannel]
@[simp] theorem Engine.alphaDec8_af (off : Half) (ch : Channel) (e : Engine) :
    (e.alphaDec8 off ch).af = e.af := by simp only [Engine.alphaDec8, Engine.setChannel]
@[simp] theorem Engine.alphaDec8_cs (off : Half) (ch : Channel) (e : Engine) :
    (e.alphaDec8 off ch).cs = e.cs := by simp only [Engine.alphaDec8, Engine.setChannel]
@[simp] theorem Engine.alphaDec8_pix (off : Half) (ch : Channel) (e : Engine) :
    (e.alphaDec8 off ch).pix = e.pix := by simp only [Engine.alphaDec8, Engine.setChannel]
@[simp] theorem Engine.alphaDec8_cblk (off : Half) (ch : Channel) (e : Engine) :
    (e.alphaDec8 off ch).cblk = e.cblk := by simp only [Engine.alphaDec8, Engine.setChannel]
@[simp] theorem Engine.alphaDec8_dpix (off : Half) (ch : Channel) (e : Engine) :
    (e.alphaDec8 off ch).dpix = tab16 fun i => e.dpix[i].setCh ch (decodeAlpha8 (e.half off) i) := by simp only [Engine.alphaDec8, Engine.setChannel]

theorem Engine.fitRange_eq (lv : Levels) (met : Metric) (e : Engine) :
    (e.fitRange lv met) = e.commit (rangeFitCore e.cs lv (metricVec met)).qa (rangeFitCore e.cs lv (metricVec met)).qb
      (rangeFitCore e.cs lv (metricVec met)).eidx (rangeFitCore e.cs lv (metricVec met)).err lv := rfl
@[simp] theorem Engine.fitRange_status (lv : Levels) (met : Metric) (e : Engine) :
    (e.fitRange lv met).status = e.status := by rw [Engine.fitRange_eq, Engine.commit_status]
@[simp] theorem Engine.fitRange_clen (lv : Levels) (met : Metric) (e : Engine) :
    (e.fitRange lv met).clen = e.clen := by rw [Engine.fitRange_eq, Engine.commit_clen]
@[simp] theorem Engine.fitRange_fit (lv : Levels) (met : Metric) (e : Engine) :
    (e.fitRange lv met).fit = ⟨grid (rangeFitCore e.cs lv (metricVec met)).qa, grid (rangeFitCore e.cs lv (metricVec met)).qb,
      spread e.cs (rangeFitCore e.cs lv (metricVec met)).eidx, lv, (rangeFitCore e.cs lv (metricVec met)).err⟩ := by rw [Engine.fitRange_eq, Engine.commit_fit]
@[simp] theorem Engine.fitRange_af (lv : Levels) (met : Metric) (e : Engine) :
    (e.fitRange lv met).af = e.af := by rw [Engine.fitRange_eq, Engine.commit_af]
@[simp] theorem Engine.fitRange_cs (lv : Levels) (met : Metric) (e : Engine) :
    (e.fitRange lv met).cs = e.cs := by rw [Engine.fitRange_eq, Engine.commit_cs]
@[simp] theorem Engine.fitRange_pix (lv : Levels) (met : Metric) (e : Engine) :
    (e.fitRange lv met).pix = e.pix := by rw [Engine.fitRange_eq, Engine.commit_pix]
@[simp] theorem Engine.fitRange_cblk (lv : Levels) (met : Metric) (e : Engine) :
    (e.fitRange lv met).cblk = e.cblk := by rw [Engine.fitRange_eq, Engine.commit_cblk]
@[simp] theorem Engine.fitRange_dpix (lv : Levels) (met : Metric) (e : Engine) :
    (e.fitRange lv met).dpix = e.dpix := by rw [Engine.fitRange_eq, Engine.commit_dpix]

theorem Engine.fitCluster_eq (lv : Levels) (met : Metric) (pt : Bool) (ro : Nat) (e : Engine) :
    (e.fitCluster lv met pt ro) = e.commit (clusterFitCore e.cs lv (metricVec met) pt ro).qa (clusterFitCore e.cs lv (metricVec met) pt ro).qb
      (clusterFitCore e.cs lv (metricVec met) pt ro).eidx (clusterFitCore e.cs lv (metricVec met) pt ro).err lv := rfl
@[simp] theorem Engine.fitCluster_status (lv : Levels) (met : Metric) (pt : Bool) (ro : Nat) (e : Engine) :
    (e.fitCluster lv met pt ro).status = e.status := by rw [Engine.fitCluster_eq, Engine.commit_status]
@[simp] theorem Engine.fitCluster_clen (lv : Levels) (met : Metric) (pt : Bool) (ro : Nat) (e : Engine) :
    (e.fitCluster lv met pt ro).clen = e.clen := by rw [Engine.fitCluster_eq, Engine.commit_clen]
@[simp] theorem Engine.fitCluster_fit (lv : Levels) (met : Metric) (pt : Bool) (ro : Nat) (e : Engine) :
    (e.fitCluster lv met pt ro).fit = ⟨grid (clusterFitCore e.cs lv (metricVec met) pt ro).qa, grid (clusterFitCore e.cs lv (metricVec met) pt ro).qb,
      spread e.cs (clusterFitCore e.cs lv (metricVec met) pt ro).eidx, lv,
      (clusterFitCore e.cs lv (metricVec met) pt ro).err⟩ := by rw [Engine.fitCluster_eq, Engine.commit_fit]
@[simp] theorem Engine.fitCluster_af (lv : Levels) (met : Metric) (pt : Bool) (ro : Nat) (e : Engine) :
    (e.fitCluster lv met pt ro).af = e.af := by rw [Engine.fitCluster_eq, Engine.commit_af]
@[simp] theorem Engine.fitCluster_cs (lv : Levels) (met : Metric) (pt : Bool) (ro : Nat) (e : Engine) :
    (e.fitCluster lv met pt ro).cs = e.cs := by rw [Engine.fitCluster_eq, Engine.commit_cs]
@[simp] theorem Engine.fitCluster_pix (lv : Levels) (met : Metric) (pt : Bool) (ro : Nat) (e : Engine) :
    (e.fitCluster lv met pt ro).pix = e.pix := by rw [Engine.fitCluster_eq, Engine.commit_pix]
@[simp] theorem Engine.fitCluster_cblk (lv : Levels) (met : Metric) (pt : Bool) (ro : Nat) (e : Engine) :
    (e.fitCluster lv met pt ro).cblk = e.cblk := by rw [Engine.fitCluster_eq, Engine.commit_cblk]
@[simp] theorem Engine.fitCluster_dpix (lv : Levels) (met : Metric) (pt : Bool) (ro : Nat) (e : Engine) :
    (e.fitCluster lv met pt ro).dpix = e.dpix := by rw [Engine.fitCluster_eq, Engine.commit_dpix]

@[simp] theorem Engine.alphaPart_status (ch : Channel) (off : Half) (e : Engine) :
    (e.alphaPart ch off).status = e.status := by simp only [Engine.alphaPart, Engine.alphaEnc8, Engine.setHalf, Engine.alphaFitCh]
@[simp] theorem Engine.alphaPart_clen (ch : Channel) (off : Half) (e : Engine) :
    (e.alphaPart ch off).clen = e.clen := by simp only [Engine.alphaPart, Engine.alphaEnc8, Engine.setHalf, Engine.alphaFitCh]
@[simp] theorem Engine.alphaPart_fit (ch : Channel) (off : Half) (e : Engine) :
    (e.alphaPart ch off).fit = e.fit := by simp only [Engine.alphaPart, Engine.alphaEnc8, Engine.setHalf, Engine.alphaFitCh]
@[simp] theorem Engine.alphaPart_af (ch : Channel) (off : Half) (e : Engine) :
    (e.alphaPart ch off).af = alphaFit (e.channel ch) := by simp only [Engine.alphaPart, Engine.alphaEnc8, Engine.setHalf, Engine.alphaFitCh]
@[simp] theorem Engine.alphaPart_cs (ch : Channel) (off : Half) (e : Engine) :
    (e.alphaPart ch off).cs = e.cs := by simp only [Engine.alphaPart, Engine.alphaEnc8, Engine.setHalf, Engine.alphaFitCh]
@[simp] theorem Engine.alphaPart_pix (ch : Channel) (off : Half) (e : Engine) :
    (e.alphaPart ch off).pix = e.pix := by simp only [Engine.alphaPart, Engine.alphaEnc8, Engine.setHalf, Engine.alphaFitCh]
@[simp] theorem Engine.alphaPart_dpix (ch : Channel) (off : Half) (e : Engine) :
    (e.alphaPart ch off).dpix = e.dpix := by simp only [Engine.alphaPart, Engine.alphaEnc8, Engine.setHalf, Engine.alphaFitCh]

/-! ### Views read through an update -/

theorem Engine.half_congr {e e' : Engine} (h : e.cblk = e'.cblk) (off : Half) : e.half off = e'.half off := by
  cases off <;> simp [Engine.half, h]

theorem Engine.channel_congr {e e' : Engine} (h : e.pix = e'.pix) (ch : Channel) : e.channel ch = e'.channel ch := by
  simp [Engine.channel, h]

end Sys2Proof.Machine
end

