-- ==== Sys2Proof/Tests/Slice0.lean ====
section
/-!
SUPPORT. Tests: ill-formed terms refused; the word of every command written out from R91 and R96; one step of every
command on values worked out in the spec; and, for every statement with hypotheses, a state and operands that meet them.
-/
namespace Sys2Proof.Machine.Tests

-- The checks below are evaluated one after the other, so that they fit in the memory of the check.
set_option Elab.async false

/-! ### Well-formedness (R91, R10) -/

theorem test_wf_fmt_4_is_no_reserved_selector : (Instr.decompress (.reserved 4)).wf = false := by decide
theorem test_wf_fmt_8_has_four_bits :
    (Instr.compress (.reserved 8) .rangeFit .uniform false false 0).wf = false := by decide
theorem test_wf_compress_ro_16_has_five_bits :
    (Instr.compress (.supported .bc1) .rangeFit .uniform false false 16).wf = false := by decide
theorem test_wf_fitcluster_ro_16_has_five_bits : (Instr.fitcluster .four .uniform false 16).wf = false := by decide
theorem test_wf_largest_fields :
    (Instr.compress (.reserved 7) .clusterFit .perceptual true true 15).wf = true := by decide

/-! ### Decoding: each word is written out from the field positions of R91 and the row of R96

`rsv[31:24] m3[23] off[22] ch[21:20] ro[19:16] lv[15] wa[14] pt[13] met[12] fit[11] fmt[10:8] op[7:0]` -/

theorem test_decode_nop : decode 0b00000000_0_0_00_0000_0_0_0_0_0_000_00000000#32 = .ok .nop := by decide
theorem test_decode_clrerr : decode 0b00000000_0_0_00_0000_0_0_0_0_0_000_00000001#32 = .ok .clrerr := by decide
theorem test_decode_sreset : decode 0b00000000_0_0_00_0000_0_0_0_0_0_000_00000010#32 = .ok .sreset := by decide
theorem test_decode_compress : decode 0b00000000_0_0_00_1010_0_1_0_1_1_010_00010000#32
    = .ok (.compress (.supported .bc3) .clusterFit .perceptual false true 10) := by decide
theorem test_decode_compress_pt : decode 0b00000000_0_0_00_0101_0_0_1_0_0_101_00010000#32
    = .ok (.compress (.reserved 5) .rangeFit .uniform true false 5) := by decide
theorem test_decode_decompress : decode 0b00000000_0_0_00_0000_0_0_0_0_0_100_00010001#32
    = .ok (.decompress (.supported .bc5)) := by decide
theorem test_decode_csbuild : decode 0b00000000_0_0_00_0000_0_1_0_0_0_000_00100000#32 = .ok (.csbuild false true) := by
  decide
theorem test_decode_fitsingle : decode 0b00000000_0_0_00_0000_1_0_0_0_0_000_00100001#32
    = .ok (.fitsingle .three .uniform) := by decide
theorem test_decode_fitrange : decode 0b00000000_0_0_00_0000_0_0_0_1_0_000_00100010#32
    = .ok (.fitrange .four .perceptual) := by decide
theorem test_decode_fitcluster : decode 0b00000000_0_0_00_0110_1_0_1_0_0_000_00100011#32
    = .ok (.fitcluster .three .uniform true 6) := by decide
theorem test_decode_cenc : decode 0b00000000_0_1_00_0000_0_0_0_0_0_000_00101000#32 = .ok (.cenc .upper) := by decide
theorem test_decode_cdec : decode 0b00000000_1_0_00_0000_0_0_0_0_0_000_00101001#32 = .ok (.cdec .lower true) := by decide
theorem test_decode_aenc4 : decode 0b00000000_0_1_00_0000_0_0_0_0_0_000_00110000#32 = .ok (.aenc4 .upper) := by decide
theorem test_decode_adec4 : decode 0b00000000_0_1_00_0000_0_0_0_0_0_000_00110001#32 = .ok (.adec4 .upper) := by decide
theorem test_decode_afit : decode 0b00000000_0_0_10_0000_0_0_0_0_0_000_00110010#32 = .ok (.afit .b) := by decide
theorem test_decode_aenc8 : decode 0b00000000_0_1_00_0000_0_0_0_0_0_000_00110011#32 = .ok (.aenc8 .upper) := by decide
theorem test_decode_adec8 : decode 0b00000000_0_1_01_0000_0_0_0_0_0_000_00110100#32 = .ok (.adec8 .upper .g) := by
  decide
/-- R92: reserved bits are checked before the opcode. -/
theorem test_decode_reserved_bits_first : decode 0x01000012#32 = .error .reservedBits := by decide
/-- R97: the first value after each run of the opcode map, and the last byte value. -/
theorem test_decode_unknown_opcodes :
    [0x03#32, 0x12#32, 0x24#32, 0x2A#32, 0x35#32, 0xFF#32].map decode
      = List.replicate 6 (.error .unknownOpcode) := by decide
theorem test_encode_is_the_written_word :
    encode (.compress (.supported .bc3) .clusterFit .uniform false false 0) = 0x00000A10#32 := by decide
theorem test_decodeTableWord : decodeTableWord 32 0x00400033 = some (.aenc8 .upper) := by decide

/-! ### Helpers: a small engine, and what registers read after one step -/

/-- The pixels of sixteen words. -/
def pixels (ws : List Word) : Vector Pixel 16 := tab16 fun i => Pixel.ofWord ((ws[i.val]?).getD 0#32)

/-- Sixteen times one pixel. -/
def uniform (w : Word) : Vector Pixel 16 := tab16 fun _ => Pixel.ofWord w

/-- Block M of 95_test_vectors.md. -/
def blockM : Vector Pixel 16 :=
  pixels [0x640A28C8#32, 0x6E0A28C8#32, 0x780A28C8#32, 0x820A28C8#32, 0x8C0A28C8#32, 0x961E5096#32, 0xA01E5096#32,
    0xAA1E5096#32, 0x643C785A#32, 0x693C785A#32, 0x733C785A#32, 0x7D3C785A#32, 0x873C785A#32, 0x913C785A#32,
    0x9B5AA014#32, 0xAA5AA014#32]

/-- The reset engine with a block loaded. -/
def loaded (p : Vector Pixel 16) : Engine := { Engine.reset with pix := p }

/-- The reset engine with the colour set of a block. -/
def withSet (pt wa : Bool) (p : Vector Pixel 16) : Engine := { Engine.reset with cs := buildSet pt wa p }

/-- The reset engine with the first two words of `CBLK` loaded. -/
def withBlock (w0 w1 : Word) : Engine := ((Engine.reset.writeReg (.cblk 0) w0).writeReg (.cblk 1) w1)

/-- The state of an engine whose host writes one command word next. -/
def commanded (e : Engine) (w : Word) : State := ⟨e, [.write 0x000 32 w], none⟩

/-- The next state, where there is one. -/
def nextOf (o : Host.Outcome State Fault Refusal) : Option State :=
  match o with
  | .next t => some t
  | .fault _ => none
  | .refused _ => none

/-- What the registers read after one step on a command word. -/
def readsAfter (e : Engine) (w : Word) (rs : List Reg) : Option (List Word) :=
  (nextOf (step (commanded e w))).map fun t => rs.map t.eng.readReg

/-- How one access is answered, from reset. -/
def answerTo (e : Engine) (ev : HostEvent) : Option (Option Answer) :=
  (nextOf (step ⟨e, [ev], none⟩)).map State.answer

/-! ### The window: 95_test_vectors.md section 2.1 -/

theorem test_read_hole_and_past_the_end_are_refused :
    ∀ off ∈ [0x0A0, 0x0BC, 0x180, 0x002, 0x041], answerTo Engine.reset (.read off 32) = some (some .busErr) := by
  decide +kernel
theorem test_read_beside_the_hole_is_accepted :
    ∀ off ∈ [0x000, 0x09C, 0x0C0, 0x17C], answerTo Engine.reset (.read off 32) = some (some (.value 0#32)) := by
  decide +kernel
theorem test_halfword_is_refused : answerTo Engine.reset (.read 0x004 16) = some (some .busErr) := by decide +kernel
theorem test_writes_keep_their_bits :
    ([(Reg.clen, 0xFFFFFFFF#32), (.fitErr, 0x12345678#32), (.fitA .r, 0x7FC00001#32), (.fitIdx, 0xFFFFFFFF#32),
      (.fitLv, 0xFFFFFFFF#32), (.afEnd, 0xFFFFFFFF#32), (.afK0, 0xFFFFFFFF#32), (.afK1, 0x89ABCDEF#32),
      (.csInfo, 0xFFFFFFFF#32), (.pix 0, 0xDEADBEEF#32), (.cblk 3, 0xCAFEF00D#32), (.csRemap 0, 0xFFFFFFFF#32),
      (.dpix 0, 0xFFFFFFFF#32), (.csRgb 0, 0xFFFFFFFF#32), (.csW 0, 0xFFFFFFFF#32), (.status, 0xFFFFFFFF#32)].map
        fun p => (Engine.reset.writeReg p.1 p.2).readReg p.1)
      = [0x1F#32, 0#32, 0x7FC00001#32, 0xFFFFFFFF#32, 1#32, 0xFFFF#32, 0xFFFFFF#32, 0xABCDEF#32, 0#32, 0xDEADBEEF#32,
         0xCAFEF00D#32, 0#32, 0#32, 0#32, 0#32, 0#32] := by decide +kernel

/-! ### One step of each command -/

/-- 2.2: NOP with every ignored bit set. -/
theorem test_nop : readsAfter (loaded blockM) 0x00FFFF00#32 [.status, .pix 0] = some [0x01#32, 0x640A28C8#32] := by
  decide +kernel
/-- 2.2 step 5: CLRERR after an illegal word and a NOP; `SNA` stays. -/
theorem test_clrerr :
    readsAfter { Engine.reset with status := ⟨true, true, true, 4#4⟩ } 0x00ABCD01#32 [.status] = some [0x05#32] := by
  decide +kernel
/-- 2.2 step 10: SRESET leaves `DONE` at 0. -/
theorem test_sreset :
    readsAfter { loaded blockM with status := ⟨true, true, true, 1#4⟩, clen := 16#5 } 0x00345602#32
      [.status, .clen, .pix 0] = some [0#32, 0#32, 0#32] := by decide +kernel
/-- 2.2 step 13: with a reserved bit nothing is reset. -/
theorem test_sreset_reserved_bit :
    readsAfter (loaded blockM) 0x02000002#32 [.status, .pix 0] = some [0x42#32, 0x640A28C8#32] := by decide +kernel
/-- 2.11: block M as BC3. -/
theorem test_compress_bc3 :
    readsAfter (loaded blockM) 0x00000210#32 [.status, .clen, .cblk 0, .cblk 1, .cblk 2, .cblk 3]
      = some [0x01#32, 16#32, 0xCBB964AA#32, 0x0E5DC909#32, 0x150BC141#32, 0x5FFFA800#32] := by decide +kernel
/-- 1.2: fifteen transparent pixels and one opaque. -/
theorem test_compress_punch_through :
    readsAfter (loaded (pixels ((List.range 16).map fun i => if i = 5 then 0xFF102030#32 else 0x00FFFFFF#32))) 0x00002810#32
      [.status, .csInfo, .fitIdx, .fitErr, .cblk 0, .cblk 1, .clen]
      = some [0x01#32, 0x101#32, 0xFFFFF3FF#32, 0x3F800000#32, 0x31023102#32, 0xFFFFF3FF#32, 8#32] := by decide +kernel
/-- 2.11, cross-format: the bytes of a BC4 block decoded as BC1. -/
theorem test_decompress_bc1 :
    readsAfter { withBlock 0x800014C8#32 0x26DB6D6D#32 with clen := 8#5 } 0x00000011#32 [.status, .dpix 0, .dpix 1, .dpix 2]
      = some [0x01#32, 0xFF000084#32, 0x00000000#32, 0xFF214D4A#32] := by decide +kernel
/-- 2.12: the length check, with an error recorded before. -/
theorem test_decompress_wrong_length :
    readsAfter { Engine.reset with status := ⟨false, true, false, 1#4⟩, clen := 16#5 } 0x00000011#32 [.status, .dpix 0]
      = some [0x12#32, 0#32] := by decide +kernel
/-- 2.4, vector A with `pt=1 wa=1`. -/
theorem test_csbuild :
    readsAfter (loaded (pixels [0xFF1E140A#32, 0x803264C8#32, 0x001E140A#32, 0xFF1E140A#32, 0x7F3264C8#32, 0x00000000#32,
        0xFF3264C8#32, 0x331E140A#32, 0xFF000000#32, 0xFF000000#32, 0xFF000000#32, 0xFF000000#32, 0xFF000000#32,
        0xFF000000#32, 0xFF000000#32, 0xFF000000#32])) 0x00006020#32
      [.csInfo, .csRgb 0, .csRgb 1, .csRgb 2, .csW 0, .csW 1, .csW 2, .csRemap 0, .csRemap 1, .csRemap 2]
      = some [0x103#32, 0x001E140A#32, 0x003264C8#32, 0#32, 0x40000000#32, 0x3FC04040#32, 0x41000000#32, 0x00FF0100#32,
          0xFF01FFFF#32, 0x02020202#32] := by decide +kernel
/-- 2.4, vector C with `pt=1`: the empty set. -/
theorem test_csbuild_empty :
    readsAfter Engine.reset 0x00002020#32 [.csInfo, .csRemap 0, .csW 0] = some [0x100#32, 0xFFFFFFFF#32, 0#32] := by
  decide +kernel
/-- 2.5: (100,150,200) with four levels. -/
theorem test_fitsingle :
    readsAfter (withSet false false (uniform 0xFFC89664#32)) 0x00000021#32 [.status, .fitIdx, .fitLv, .fitErr]
      = some [0x01#32, 0xAAAAAAAA#32, 0#32, 0x41800000#32] := by decide +kernel
/-- 2.5: the reset colour set has no colour. -/
theorem test_fitsingle_not_applicable :
    readsAfter Engine.reset 0x00000021#32 [.status, .fitErr] = some [0x05#32, 0#32] := by decide +kernel
/-- 2.6: block M. -/
theorem test_fitrange :
    readsAfter (withSet false false blockM) 0x00000022#32 [.status, .fitIdx, .fitErr]
      = some [0x01#32, 0x5FFFA800#32, 0x44E98000#32] := by decide +kernel
/-- 2.6: the empty set with three levels. -/
theorem test_fitrange_empty :
    readsAfter (withSet true false (uniform 0#32)) 0x00008022#32 [.status, .fitIdx, .fitLv, .fitErr]
      = some [0x01#32, 0xFFFFFFFF#32, 1#32, 0#32] := by decide +kernel
/-- 2.7: the case Range Fit fails. -/
theorem test_fitcluster :
    readsAfter (withSet false false (pixels [0xFF0000FF#32, 0xFF0000FF#32, 0xFF0000FF#32, 0xFF0000FF#32, 0xFF0000FF#32,
        0xFF0000FF#32, 0xFF0000FF#32, 0xFF0000FF#32, 0xFF00FF00#32, 0xFF00FF00#32, 0xFF00FF00#32, 0xFF00FF00#32,
        0xFF00FF00#32, 0xFF00FF00#32, 0xFF00FF00#32, 0xFF00FF00#32])) 0x00000023#32 [.status, .fitIdx, .fitErr]
      = some [0x01#32, 0x55550000#32, 0#32] := by decide +kernel
/-- 2.7: block M, three levels with punch-through: the Range Fit seed is kept. -/
theorem test_fitcluster_seed_kept :
    readsAfter (withSet true false blockM) 0x0000A023#32 [.fitIdx, .fitLv, .fitErr]
      = some [0x5AFFA83F#32, 1#32, 0x46153C00#32] := by decide +kernel
/-- 2.8: the endpoints exchanged in three-level mode. -/
theorem test_cenc :
    readsAfter { Engine.reset with
        fit := ⟨⟨f1, fHalf, f0⟩, ⟨f0, fHalf, f1⟩, idxOfWord 0xE4E4E4E4#32, .three, f0⟩ } 0x00000028#32 [.cblk 0, .cblk 1]
      = some [0xFC00041F#32, 0xE1E1E1E1#32] := by decide +kernel
/-- 2.8: 3-colour mode. -/
theorem test_cdec :
    readsAfter (withBlock 0xFC00041F#32 0xE1E1E1E1#32) 0x00800029#32 [.dpix 0, .dpix 1, .dpix 2, .dpix 3]
      = some [0xFF0082FF#32, 0xFFFF8200#32, 0xFF7F827F#32, 0#32] := by decide +kernel
/-- 2.8: the same bytes with `m3=0`. -/
theorem test_cdec_four_colours :
    readsAfter (withBlock 0xFC00041F#32 0xE1E1E1E1#32) 0x00000029#32 [.dpix 0, .dpix 1, .dpix 2, .dpix 3]
      = some [0xFF0082FF#32, 0xFFFF8200#32, 0xFFAA8255#32, 0xFF5582AA#32] := by decide +kernel
/-- 2.9: block M. -/
theorem test_aenc4 :
    readsAfter (loaded blockM) 0x00400030#32 [.cblk 0, .cblk 1, .cblk 2, .cblk 3]
      = some [0#32, 0#32, 0xA9988766#32, 0xA9987766#32] := by decide +kernel
/-- 2.9: only the alpha byte of `DPIX` is written. -/
theorem test_adec4 :
    readsAfter { withBlock 0xA9988766#32 0xA9987766#32 with dpix := uniform 0x00010203#32 } 0x00000031#32
      [.dpix 0, .dpix 2, .dpix 15] = some [0x66010203#32, 0x77010203#32, 0xAA010203#32] := by decide +kernel
/-- 2.10: block M, red. -/
theorem test_afit :
    readsAfter (loaded blockM) 0x00000032#32 [.afEnd, .afK0, .afK1] = some [0x0000C814#32, 0x00B6FFFF#32, 0x0001B6DB#32] := by
  decide +kernel
/-- 2.10: host-written ends in the wrong order are not exchanged back. -/
theorem test_aenc8 :
    readsAfter { Engine.reset with af := ⟨0xF0#8, 0x10#8, setK1 (setK0 (Vector.replicate 16 0) 0x00FAC688#32) 0x00FAC688#32⟩ }
      0x00400033#32 [.cblk 1, .cblk 2, .cblk 3] = some [0#32, 0xCBB9F010#32, 0x09CBB909#32] := by decide +kernel
/-- 2.10: the 6-level scheme. -/
theorem test_adec8 :
    readsAfter (withBlock 0xCBB9F010#32 0x09CBB909#32) 0x00200034#32 [.dpix 0, .dpix 1, .dpix 2, .dpix 3]
      = some [0x00F00000#32, 0x00FF0000#32, 0#32, 0x00C30000#32] := by decide +kernel

/-! ### Numerics: 95_test_vectors.md section 2.3 -/

theorem test_quantize_corners :
    [0x3F000000#32, 0x3EFFFFFF#32, 0x3C842108#32, 0xBE800000#32, 0x80000000#32, 0x3FA00000#32, 0x7FC00000#32,
      0x7F800000#32].map (fun x => quantize x 5) = [16, 15, 1, 0, 0, 31, 0, 31] := by decide +kernel
theorem test_truncation :
    [0x4039999A#32, 0xC039999A#32, 0x4B800000#32, 0x4F32D05E#32, 0xCF32D05E#32, 0x7FC00000#32].map f2i
      = [2, -2, 16777216, 2147483647, -2147483648, 0] := by decide +kernel
theorem test_perceptual_distance :
    metricDist ⟨200#8, 40#8, 10#8⟩ ⟨198#8, 40#8, 8#8⟩ (metricVec .perceptual) = 0x3E4E7C64#32 := by decide +kernel

/-! ### Witnesses: for each statement with hypotheses, a concrete state and operands that meet them together, one for each
clause -/

/-- Host accesses still to come, so that a step has a rest to leave. -/
def more : List HostEvent := [.read 0x004 32]

/-- An engine after an error: `STATUS` = 0x46. -/
def failed : Engine := { loaded blockM with status := ⟨false, true, true, 4#4⟩ }

/-- The block of 1.2: pixel 5 opaque, alpha 128 at pixel 6, alpha 127 at pixel 7, the others transparent. -/
def mixedAlpha : Vector Pixel 16 :=
  pixels [0x00FFFFFF#32, 0x00FFFFFF#32, 0x00FFFFFF#32, 0x00FFFFFF#32, 0x00FFFFFF#32, 0xFF102030#32, 0x80102030#32,
    0x7F102030#32]

/-- The colour set of reset meets the invariant by its clause for reset. -/
theorem legal_reset : ColourSet.reset.Legal :=
  ⟨by decide +kernel, by decide +kernel, by decide +kernel, by decide +kernel, by decide +kernel, .inr (by decide +kernel)⟩

/-- The colour set of a block with transparent and opaque pixels meets it by its clauses. -/
theorem legal_mixedAlpha : (buildSet true false mixedAlpha).Legal :=
  ⟨by decide +kernel, by decide +kernel, by decide +kernel, by decide +kernel, by decide +kernel,
   .inl ⟨by decide +kernel, by decide +kernel⟩⟩

theorem witness_DecodeOfEncodeIsTheInstruction :
    (Instr.compress (.reserved 5) .rangeFit .uniform false true 15).wf = true ∧ (Instr.decompress (.reserved 7)).wf = true := by
  decide
theorem witness_UnlistedFieldsAreIgnored :
    decode 0x00000020#32 = .ok (.csbuild false false) ∧
      0x00FF9F20#32 &&& usedBits (.csbuild false false) = 0x00000020#32 &&& usedBits (.csbuild false false) := by decide
theorem witness_DecodeIsTotalAndNamesTheCause :
    decode 0x00FF9F20#32 = .ok (.csbuild false false) ∧ (0x01000012#32).extractLsb' 24 8 ≠ 0#8 ∧
      (0x00000012#32).extractLsb' 24 8 = 0#8 ∧ (0x00000012#32).extractLsb' 0 8 ∉ opcodeBytes := by decide
theorem witness_IllegalWordsRaiseIllegalCommand :
    (⟨failed, .write 0x000 32 0x80000002#32 :: more, none⟩ : State).pending = .write 0x000 32 0x80000002#32 :: more ∧
      (0x80000002#32).extractLsb' 24 8 ≠ 0#8 ∧ (0x00000035#32).extractLsb' 0 8 ∉ opcodeBytes :=
  ⟨rfl, by decide, by decide⟩
theorem witness_StepRunsTheDecodedInstruction :
    (⟨loaded blockM, .write 0x000 32 0x00000A10#32 :: more, none⟩ : State).pending
        = .write 0x000 32 0x00000A10#32 :: more ∧
      decode 0x00000A10#32 = .ok (.compress (.supported .bc3) .clusterFit .uniform false false 0) ∧
      (Instr.compress (.supported .bc3) .clusterFit .uniform false false 0).wf = true := ⟨rfl, by decide, by decide⟩
theorem witness_WindowMapIsTheRegisterTable :
    Reg.offset (.csW 15) = 0x17C ∧ Reg.offset (.csRemap 3) = 0x09C ∧ Reg.offset (.dpix 0) = 0x0C0 := by decide
theorem witness_RefusedAccessesAnswerBusErr :
    (⟨loaded blockM, .read 0x0BC 32 :: more, none⟩ : State).pending = .read 0x0BC 32 :: more ∧
    (⟨loaded blockM, .write 0x180 32 1#32 :: more, none⟩ : State).pending = .write 0x180 32 1#32 :: more ∧
    (0x041 % 4 ≠ 0) ∧ (0x0A0 ≤ 0x0A0 ∧ 0x0A0 ≤ 0x0BC) ∧ (0x0A0 ≤ 0x0BC ∧ 0x0BC ≤ 0x0BC) ∧ 0x180 ≤ 0x180 ∧ 16 ≠ 32 :=
  ⟨rfl, rfl, by decide⟩
theorem witness_ReadsAnswerTheRegisterAndChangeNothing :
    (⟨loaded blockM, .read (Reg.offset (.pix 15)) 32 :: more, none⟩ : State).pending
      = .read (Reg.offset (.pix 15)) 32 :: more ∧
    (loaded blockM).fit.lv = .four ∧ ({ FitRegs.reset with lv := .three } : FitRegs).lv = .three ∧
    (7 : Fin 16).val < 8 ∧ 8 ≤ (8 : Fin 16).val ∧
    (withSet true false mixedAlpha).cs.remap[(15 : Fin 16)] = none ∧
    (withSet false false blockM).cs.remap[(15 : Fin 16)] = some 3 := ⟨rfl, by decide +kernel⟩
theorem witness_WritesStoreTheWritableBits :
    Reg.clen ≠ .cmd ∧ Reg.clen.acc = .rw ∧ Reg.status ≠ .cmd ∧ Reg.status.acc = .ro ∧ Reg.status ≠ Reg.clen ∧
    (⟨loaded blockM, .write Reg.clen.offset 32 0xFFFFFFFF#32 :: more, none⟩ : State).pending
      = .write Reg.clen.offset 32 0xFFFFFFFF#32 :: more ∧
    (⟨loaded blockM, .write Reg.status.offset 32 0xFFFFFFFF#32 :: more, none⟩ : State).pending
      = .write Reg.status.offset 32 0xFFFFFFFF#32 :: more :=
  ⟨by decide, by decide, by decide, by decide, by decide, rfl, rfl⟩
theorem witness_TheWindowShowsTheWholeEngine :
    ∀ r : Reg, (loaded blockM).readReg r = ({ loaded blockM with pix := blockM } : Engine).readReg r := fun _ => rfl
theorem witness_EveryStepHasANextState :
    (⟨failed, .reset :: more, none⟩ : State).pending = .reset :: more := rfl
theorem witness_CommandsWriteOnlyTheirRegisters :
    exec (.aenc4 .upper) ⟨failed, more, none⟩ = .next ((⟨failed, more, none⟩ : State).completeWith (Engine.alphaEnc4 .upper)) ∧
      commandWrites (.aenc4 .upper) (.cblk 1) = false ∧ commandWrites (.aenc4 .upper) (.cblk 2) = true :=
  ⟨rfl, by decide, by decide⟩
theorem witness_CommandsRaiseWhatTheTableLists :
    raisesIn (.compress (.reserved 5) .rangeFit .uniform false false 0) ⟨failed, more, none⟩ = some .unsupportedFormat ∧
    raisesIn (.decompress (.reserved 7)) ⟨failed, more, none⟩ = some .unsupportedFormat ∧
    raisesIn (.decompress (.supported .bc1)) ⟨failed, more, none⟩ = some .invalidBlockLength ∧
    raisesIn (.decompress (.supported .bc1)) ⟨{ failed with clen := 8#5 }, more, none⟩ = none ∧
    raisesIn .sreset ⟨failed, more, none⟩ = none ∧ raisesIn .nop ⟨failed, more, none⟩ = none := by decide +kernel
theorem witness_RaiseRecordsTheFirstError :
    failed.status.err = true ∧ (loaded blockM).status.err = false := by decide
theorem witness_ErrorPriorityInOneWord :
    (⟨failed, .write 0x000 32 0x01000710#32 :: more, none⟩ : State).pending = .write 0x000 32 0x01000710#32 :: more ∧
    (0x01000710#32).extractLsb' 24 8 ≠ 0#8 ∧
    ((0x00000511#32).extractLsb' 24 8 = 0#8 ∧ (0x00000511#32).extractLsb' 0 8 = 0x11#8 ∧
      4 < ((0x00000511#32).extractLsb' 8 3).toNat) ∧
    ((0x00000411#32).extractLsb' 0 8 = 0x11#8 ∧ ((0x00000411#32).extractLsb' 8 3).toNat = 4 ∧
      failed.clen.toNat ≠ 16) ∧
    ((0x00000020#32).extractLsb' 24 8 = 0#8 ∧ (0x00000020#32).extractLsb' 0 8 ∈ opcodeBytes ∧
      (0x00000020#32).extractLsb' 0 8 ≠ 0x02#8) := ⟨rfl, by decide⟩
theorem witness_StatusStaysLegal :
    failed.status.Legal ∧ (∃ t, step (commanded failed 0x00000000#32) = .next t) ∧
      ∃ t, step (commanded failed 0x01000000#32) = .next t :=
  ⟨⟨by decide, by decide⟩, ⟨_, rfl⟩, ⟨_, rfl⟩⟩
theorem witness_FirstErrorStaysRecorded :
    failed.status.err = true ∧ (∃ t, step (commanded failed 0x00000710#32) = .next t) ∧
      (∃ t, step (commanded failed 0x00000001#32) = .next t) ∧ decode 0x00000001#32 = .ok .clrerr ∧
      (∃ t, step (⟨failed, [.reset], none⟩ : State) = .next t) :=
  ⟨by decide, ⟨_, rfl⟩, ⟨_, rfl⟩, by decide, ⟨_, rfl⟩⟩
/-- For each opcode, a word that carries it and no reserved bit: what `selects` asks of a word. -/
theorem witness_selects :
    (opcodeBytes.all fun op => decide (((op.setWidth 32 : Word) ||| 0x00FFFF00#32).extractLsb' 0 8 = op) &&
      decide (((op.setWidth 32 : Word) ||| 0x00FFFF00#32).extractLsb' 24 8 = 0#8)) = true := by decide
/-- NOP, CLRERR and SRESET with a reserved bit set. -/
theorem witness_systemCommandWithReservedBit :
    (⟨failed, .write 0x000 32 0x80000002#32 :: more, none⟩ : State).pending = .write 0x000 32 0x80000002#32 :: more ∧
    ((0x01000000#32).extractLsb' 0 8 = 0x00#8 ∧ (0x01000000#32).extractLsb' 24 8 ≠ 0#8) ∧
    ((0x02000001#32).extractLsb' 0 8 = 0x01#8 ∧ (0x02000001#32).extractLsb' 24 8 ≠ 0#8) ∧
    ((0x80000002#32).extractLsb' 0 8 = 0x02#8 ∧ (0x80000002#32).extractLsb' 24 8 ≠ 0#8) := ⟨rfl, by decide⟩
/-- The largest finite f32, the smallest subnormal, one and three. -/
theorem witness_ArithmeticIsCorrectlyRounded :
    f32IsFinite 0x7F7FFFFF#32 = true ∧ f32IsFinite 0x80000001#32 = true ∧
    f32IsFinite (fadd 0x7F7FFFFF#32 0x80000001#32) = true ∧ f32IsFinite (fsub 0x7F7FFFFF#32 0x80000001#32) = true ∧
    f32IsFinite (fmul 0x7F7FFFFF#32 0x80000001#32) = true ∧ f32Val 0x80000001#32 ≠ 0 ∧
    f32IsFinite (fdiv 0x80000001#32 0x7F7FFFFF#32) = true ∧ f32IsFinite (fdiv 0x3F800000#32 0x40400000#32) = true := by
  decide +kernel
theorem witness_OverflowAndNanFollowTheFormat :
    f32IsFinite 0x7F7FFFFF#32 = true ∧ f32Val 0x7F7FFFFF#32 ≠ 0 ∧ f32Val 0x80000000#32 = 0 ∧ f32IsFinite 0x80000000#32 = true ∧
    f32IsInf (fadd 0x7F7FFFFF#32 0x73000000#32) = true ∧ f32IsInf (fadd 0x7F7FFFFF#32 0x72FFFFFF#32) = false ∧
    f32IsInf (fsub 0xFF7FFFFF#32 0x73000000#32) = true ∧ f32IsInf (fsub 0xFF7FFFFF#32 0x72FFFFFF#32) = false ∧
    f32Val 0x00000001#32 + f32Val 0x80000001#32 = 0 ∧ f32Val 0x7F7FFFFF#32 - f32Val 0x7F7FFFFF#32 = 0 ∧
    f32Val 0x00000001#32 + f32Val 0x7F7FFFFF#32 ≠ 0 ∧ f32Val 0x00000001#32 - f32Val 0x7F7FFFFF#32 ≠ 0 ∧
    f32IsInf 0x7F800000#32 = true ∧ f32IsInf 0xFF800000#32 = true ∧ f32IsNaN 0xFF800001#32 = true := by decide +kernel
theorem witness_SmallIntegersConvertExactly :
    (-(2 ^ 24) < (2 ^ 24 - 1 : Int) ∧ (2 ^ 24 - 1 : Int) < 2 ^ 24) ∧
      (-(2 ^ 24) < -(2 ^ 24 - 1 : Int) ∧ -(2 ^ 24 - 1 : Int) < 2 ^ 24) := by decide
theorem witness_CsbuildCollectsTheDistinctColours :
    let cs := buildSet true true mixedAlpha
    cs.remap[(5 : Fin 16)] = some 0 ∧ cs.remap[(6 : Fin 16)] = some 0 ∧ cs.remap[(7 : Fin 16)] = none ∧ cs.count.val = 1 ∧
      (buildSet false true mixedAlpha).remap[(8 : Fin 16)] = some 2 ∧ (buildSet false true mixedAlpha).count.val = 3 := by
  decide +kernel
theorem witness_ColourSetStaysLegal :
    ColourSet.reset.Legal ∧ (buildSet true false mixedAlpha).Legal ∧
      ∃ t, step (commanded (withSet true false mixedAlpha) 0x00000020#32) = .next t :=
  ⟨legal_reset, legal_mixedAlpha, ⟨_, rfl⟩⟩
theorem witness_TableEntriesAreTheFirstOfLeastError :
    (5 = 5 ∨ 5 = 6) ∧ (6 = 5 ∨ 6 = 6) ∧ 255 < 256 ∧ 31 < 2 ^ 5 ∧ 63 < 2 ^ 6 ∧
    11 < (romRead 5 .four .k0 100).1 ∧ 2 < (romRead 5 .four .k2 100).1 ∧
    3 = (romRead 5 .four .k2 100).1 ∧ 30 < (romRead 5 .four .k2 100).2 := by decide +kernel
theorem witness_FitsingleTakesTheNearerTableChoice :
    (withSet true false blockM).cs.count.val ≠ 1 ∧ (withSet true false mixedAlpha).cs.count.val = 1 ∧
      (withSet true false mixedAlpha).cs.remap[(0 : Fin 16)] = none := by decide +kernel
theorem witness_NearestLevelIsTheFirstOfLeastDistance :
    (levels8 ⟨31, 32, 0⟩ ⟨0, 32, 31⟩ .four)[3]? = some ⟨85#8, 130#8, 170#8⟩ ∧
    (levels8 ⟨31, 32, 0⟩ ⟨0, 32, 31⟩ .three)[2]? = some ⟨127#8, 130#8, 127#8⟩ ∧
      1 < (nearestLevel ⟨90#8, 130#8, 160#8⟩ (metricVec .uniform) ⟨31, 32, 0⟩ ⟨0, 32, 31⟩ .four).k.toNat := by
  decide +kernel
theorem witness_FitrangeTakesTheExtremesOfTheAxis :
    (withSet true false (uniform 0#32)).cs.count.val = 0 ∧ (withSet true false (uniform 0#32)).cs.remap[(0 : Fin 16)] = none ∧
    ColourSet.reset.count.val = 0 ∧ ColourSet.reset.remap[(0 : Fin 16)] ≠ none ∧
    (withSet true false blockM).cs.count.val = 4 ∧ (withSet true false blockM).cs.remap[(0 : Fin 16)] = none ∧
    (withSet true false blockM).cs.remap[(15 : Fin 16)] = some 3 ∧
    1 < (extremes (withSet true false blockM).cs (axis (withSet true false blockM).cs)).hi := by decide +kernel
theorem witness_PrincipalAxisOrderIsSorted :
    (buildSet true false mixedAlpha).Legal ∧ ColourSet.reset.Legal ∧
    ∀ i ∈ (withSet false false blockM).cs.entries,
      f32IsNaN (proj (withSet false false blockM).cs (axis (withSet false false blockM).cs) i) = false :=
  ⟨legal_mixedAlpha, legal_reset, by decide +kernel⟩
theorem witness_FitclusterKeepsTheBestSplit :
    let cs := (withSet false false (pixels [0xFF0000FF#32, 0xFF00FF00#32])).cs
    let o := sortByProjection cs (axis cs)
    cs.count.val ≠ 0 ∧ (o, (⟨0, 1, 2⟩ : Cuts)) ∈ candidatesOf .four false o ∧
      (candidateFit cs .four (metricVec .uniform) (o, ⟨0, 1, 2⟩)).isSome = true ∧
      (withSet true false blockM).cs.remap[(0 : Fin 16)] = none ∧ ColourSet.reset.count.val = 0 ∧
      ((⟨0, 1, 1⟩ : Cuts).i ≤ (⟨0, 1, 1⟩ : Cuts).j ∧ (⟨0, 1, 1⟩ : Cuts).j ≤ (⟨0, 1, 1⟩ : Cuts).k) ∧
      0 < 1 ∧ 1 < o.length := by decide +kernel
theorem witness_ClusterErrorNeverExceedsRangeError : 0 ≤ 15 := by decide
theorem witness_CdecReconstructsEveryPixel :
    wireIndex2 ((withBlock 0xFC00041F#32 0xE1E1E1E1#32).half .lower) 3 = 3 ∧
    wireIndex2 ((withBlock 0xFC00041F#32 0xE1E1E1E1#32).half .lower) 2 ≠ 3 ∧
    (true = true ∧ 0x041F ≤ 0xFC00) ∧ ¬(false = true ∧ 0x041F ≤ 0xFC00) := by decide +kernel
theorem witness_EncodedFitDecodesToItsLevels :
    let e : Engine := { Engine.reset with
      fit := ⟨grid ⟨31, 32, 0⟩, grid ⟨0, 32, 31⟩, idxOfWord 0xE4E4E4E4#32, .three, f0⟩ }
    let e' : Engine := { e with fit := { e.fit with lv := .four } }
    e.fit.a = grid ⟨31, 32, 0⟩ ∧ e.fit.b = grid ⟨0, 32, 31⟩ ∧ (e.fit.lv = .three → true = true) ∧
    e.fit.idx[(3 : Fin 16)] = 3#2 ∧ e.fit.idx[(2 : Fin 16)] ≠ 3#2 ∧
    e'.fit.a = grid ⟨31, 32, 0⟩ ∧ e'.fit.b = grid ⟨0, 32, 31⟩ ∧ (e'.fit.lv = .three → false = true) ∧ e'.fit.lv = .four := by
  decide +kernel
theorem witness_ExplicitAlphaComesBackWithinEight :
    (mixedAlpha[(5 : Fin 16)].a.toNat % 17 = 0) ∧ (mixedAlpha[(0 : Fin 16)].a.toNat % 17 = 0) := by decide +kernel
theorem witness_AfitTakesTheNearestLinearLevels :
    7 < 8 ∧ 6 < (alphaFit ((loaded mixedAlpha).channel .a)).k[(5 : Fin 16)].toNat := by decide +kernel
theorem witness_Adec8InterpolatesTheCodes : Channel.r ≠ Channel.a := by decide
theorem witness_InterpolatedAlphaComesBackWithinHalfAStep :
    mixedAlpha[(0 : Fin 16)].ch .a = (alphaFit ((loaded mixedAlpha).channel .a)).lo ∧
      mixedAlpha[(5 : Fin 16)].ch .a = (alphaFit ((loaded mixedAlpha).channel .a)).hi := by decide +kernel
theorem witness_CompressedBlockDependsOnPixAlone :
    failed.pix = (loaded blockM).pix ∧ failed ≠ loaded blockM ∧ blockSize .bc1 = 8 ∧ 8 ≤ (8 : Fin 16).val := by decide +kernel
theorem witness_CompressLeavesWhatItDoesNotUse :
    (exec (.compress (.supported .bc5) .rangeFit .uniform true false 3) ⟨loaded blockM, more, none⟩
      = .next ((⟨loaded blockM, more, none⟩ : State).completeWith
          (Engine.compressBlock .bc5 .rangeFit .uniform true false 3))) ∧
    (exec (.compress (.supported .bc2) .rangeFit .uniform true false 3) ⟨loaded blockM, more, none⟩
      = .next ((⟨loaded blockM, more, none⟩ : State).completeWith
          (Engine.compressBlock .bc2 .rangeFit .uniform true false 3))) ∧
    (loaded blockM).status.sna = false ∧ Format.bc5 ≠ .bc1 := ⟨rfl, rfl, by decide, by decide⟩
theorem witness_DecompressEqualsItsComponentCommands :
    (loaded blockM).clen.toNat ≠ blockSize .bc1 ∧ ({ loaded blockM with clen := 8#5 } : Engine).clen.toNat = blockSize .bc1 ∧
      ({ loaded blockM with clen := 16#5 } : Engine).clen.toNat = blockSize .bc5 := by decide +kernel
theorem witness_PunchThroughPixelsDecodeTransparent :
    mixedAlpha[(7 : Fin 16)].a.toNat = 127 ∧ mixedAlpha[(6 : Fin 16)].a.toNat = 128 := by decide +kernel
theorem witness_InterpolatedFormatsComeBackWithinHalfAStep :
    (∀ i : Fin 16, 100 ≤ (blockM[i].ch .a).toNat ∧ (blockM[i].ch .a).toNat ≤ 170) ∧
    (∀ i : Fin 16, 20 ≤ (blockM[i].ch .r).toNat ∧ (blockM[i].ch .r).toNat ≤ 200) ∧
    (∀ i : Fin 16, 40 ≤ (blockM[i].ch .g).toNat ∧ (blockM[i].ch .g).toNat ≤ 160) := by decide +kernel
theorem witness_EnginesOfAChipAreIndependent :
    (Platform.reset 3).engines[2]? = some State.reset ∧ (1 : Nat) ≠ 2 ∧
    mappingOk (fun k => 0x180 * k) 3 ∧ 2 < 3 ∧ 0x17F < 0x180 := by
  refine ⟨rfl, by decide, ⟨?_, ?_⟩, by decide, by decide⟩ <;> simp only [Config.windowSize] <;> omega
/-- A set whose weights are all zero, and one with weight; a legal set. -/
theorem witness_PrincipalAxisIsFoundByPowerIteration :
    feq (sumOver (idx16.take ColourSet.reset.count.val) fun i => ColourSet.reset.w[i]) f0 = true ∧
    feq (sumOver (idx16.take (withSet false false blockM).cs.count.val) fun i => (withSet false false blockM).cs.w[i]) f0
      = false ∧
    (buildSet true false mixedAlpha).Legal := ⟨by decide +kernel, by decide +kernel, legal_mixedAlpha⟩
end Sys2Proof.Machine.Tests
end

/-!
What the window reads at reset: each view of an all-zero field is the zero word, so every register of the reset engine
reads 0 (R22, R440).
-/
namespace Sys2Proof.Machine

/-! ### The word of a zero field -/

/-- Digits that are all zero pack to zero, whatever the base. -/
@[simp] theorem packLE_replicate_zero (k n : Nat) : packLE k (List.replicate n 0) = 0 := by
  induction n with
  | zero => rfl
  | succ n ih => simp only [List.replicate_succ, packLE, ih, Nat.mul_zero, Nat.add_zero]

@[simp] theorem wordOfBytes_zero : wordOfBytes 0#8 0#8 0#8 0#8 = 0#32 :=
  congrArg (BitVec.ofNat 32) (packLE_replicate_zero 8 4)

@[simp] theorem Pixel.toWord_zero : Pixel.zero.toWord = 0#32 := wordOfBytes_zero

@[simp] theorem Rgb8.toWord_zero : Rgb8.zero.toWord = 0#32 := wordOfBytes_zero

@[simp] theorem Vec3.lane_zero (l : Lane) : Vec3.zero.lane l = 0#32 := by cases l <;> rfl

@[simp] theorem wordOfIdx_zero : wordOfIdx (Vector.replicate 16 0#2) = 0#32 :=
  congrArg (BitVec.ofNat 32) (packLE_replicate_zero 2 16)

@[simp] theorem wordOfK0_zero : wordOfK0 (Vector.replicate 16 0#3) = 0#32 :=
  congrArg (BitVec.ofNat 32) (packLE_replicate_zero 3 8)

@[simp] theorem wordOfK1_zero : wordOfK1 (Vector.replicate 16 0#3) = 0#32 :=
  congrArg (BitVec.ofNat 32) (packLE_replicate_zero 3 8)

@[simp] theorem Status.toWord_reset : Status.reset.toWord = 0#32 := rfl

/-- At reset a remap entry is the index 0, which reads as a zero byte; the sentinel would read 0xFF (R30, R31). -/
@[simp] theorem ColourSet.remap8_reset (i : Fin 16) : ColourSet.reset.remap8 i = 0#8 := by
  have hentry : ColourSet.reset.remap[i] = some 0 := Vector.getElem_replicate i.isLt
  rw [ColourSet.remap8, hentry]
  rfl

/-! ### The reset engine through its window -/

/-- Every register of the reset engine reads 0 (R22). -/
@[simp] theorem Engine.readReg_reset (r : Reg) : Engine.reset.readReg r = 0#32 := by
  cases r with
  | cmd | clen | fitErr | fitLv | csInfo => rfl
  | status => exact Status.toWord_reset
  | fitA l | fitB l => exact Vec3.lane_zero l
  | fitIdx => exact wordOfIdx_zero
  | afEnd => exact wordOfBytes_zero
  | afK0 => exact wordOfK0_zero
  | afK1 => exact wordOfK1_zero
  | pix i | dpix i | cblk j | csRemap j => simp [Engine.readReg, Engine.reset]
  | csRgb i | csW i => simp [Engine.readReg, Engine.reset, ColourSet.reset]

/-- Settles O13: hardware reset and SRESET both leave the reset engine, whose every register reads 0. -/
theorem resetLeavesEveryRegisterZero : Obligations.ResetLeavesEveryRegisterZero :=
  ⟨Engine.readReg_reset, fun s => ⟨{ s with eng := Engine.reset }, exec_sreset s, Engine.readReg_reset⟩⟩

end Sys2Proof.Machine

/-!
Refused accesses: an access that reaches no register is answered `BUSERR` and leaves the engine alone (R64).
-/
namespace Sys2Proof.Machine

/-! ### Where the registers lie -/

/-- Every register is aligned, inside the window and outside the hole (R21, R64). -/
theorem Reg.offset_mapped (r : Reg) :
    r.offset % 4 = 0 ∧ ¬(0x0A0 ≤ r.offset ∧ r.offset ≤ 0x0BC) ∧ r.offset < 0x180 := by
  cases r with
  | fitA l | fitB l => cases l <;> decide
  | pix i | cblk i | csRemap i | dpix i | csRgb i | csW i =>
    have hi := i.isLt
    simp only [Reg.offset]
    omega
  | _ => decide

/-- The four causes of R64 for which an access reaches no register. -/
theorem accessReg_eq_none_of_refused {off width : Nat}
    (h : off % 4 ≠ 0 ∨ (0x0A0 ≤ off ∧ off ≤ 0x0BC) ∨ 0x180 ≤ off ∨ width ≠ 32) : accessReg off width = none := by
  cases hr : accessReg off width with
  | none => rfl
  | some r =>
    obtain ⟨hwidth, rfl⟩ := of_accessReg hr
    obtain ⟨haligned, hhole, hwindow⟩ := r.offset_mapped
    omega

/-! ### The answer -/

theorem Engine.hostRead_refused {off width : Nat} (h : accessReg off width = none) (e : Engine) :
    e.hostRead off width = .busErr := by
  simp only [Engine.hostRead, h]

theorem step_read_refused {s : State} {off width : Nat} {rest : List HostEvent}
    (hp : s.pending = .read off width :: rest) (h : accessReg off width = none) :
    step s = .next (s.answered rest .busErr) := by
  rw [step_read hp, Engine.hostRead_refused h]

theorem step_write_refused {s : State} {off width : Nat} {v : Word} {rest : List HostEvent}
    (hp : s.pending = .write off width v :: rest) (h : accessReg off width = none) :
    step s = .next (s.answered rest .busErr) := by
  rw [step_write hp, hostWrite_refused h]

/-- Settles O9: a refused access reaches no register, so a read and a write alike are answered `BUSERR` and the engine
stays as it is. -/
theorem refusedAccessesAnswerBusErr : Obligations.RefusedAccessesAnswerBusErr := by
  intro s off width v rest hrefused
  have hnone : accessReg off width = none := accessReg_eq_none_of_refused hrefused
  exact ⟨fun hp => step_read_refused hp hnone, fun hp => step_write_refused hp hnone⟩

end Sys2Proof.Machine

/-!
Decoding from the bits of a row: a word decodes exactly when its reserved bits are zero and its opcode is listed (R92),
and two words that agree on the bits of their row decode alike (R93).
-/
namespace Sys2Proof

open Machine

/-! ### Which words decode -/

theorem decodeFields_eq_ok_iff (f : Fields) (i : Instr) :
    decodeFields f = .ok i ↔ f.rsv = 0#8 ∧ ∃ op, Opcode.ofByte f.op = some op ∧ assemble op f = i := by
  by_cases hrsv : f.rsv = 0#8
  · cases hop : Opcode.ofByte f.op <;> simp [decodeFields, hrsv, hop]
  · simp [decodeFields, hrsv]

theorem decode_eq_ok_iff (w : Word) (i : Instr) :
    decode w = .ok i ↔ w.extractLsb' 24 8 = 0#8 ∧
      ∃ op, Opcode.ofByte (w.extractLsb' 0 8) = some op ∧ assemble op (Fields.ofWord w) = i :=
  decodeFields_eq_ok_iff (Fields.ofWord w) i

theorem Opcode.code_mem_opcodeBytes (op : Opcode) : op.code ∈ opcodeBytes := by
  cases op <;> decide

/-- The listed bytes are those of the rows. -/
theorem opcodeBytes_eq_codes : opcodeBytes = Opcode.all.map Opcode.code := rfl

/-- The opcode map has a row for a byte exactly when R96 lists the byte. -/
theorem Opcode.exists_ofByte_iff (b : BitVec 8) : (∃ op, Opcode.ofByte b = some op) ↔ b ∈ opcodeBytes := by
  constructor
  · rintro ⟨op, hop⟩
    exact Opcode.code_of_ofByte hop ▸ op.code_mem_opcodeBytes
  · intro hb
    rw [opcodeBytes_eq_codes] at hb
    obtain ⟨op, -, rfl⟩ := List.mem_map.mp hb
    exact ⟨op, op.ofByte_code⟩

/-- Only the reserved bits and the opcode can keep a word from decoding (R92, R93). -/
theorem exists_decode_eq_ok_iff (w : Word) :
    (∃ i, decode w = .ok i) ↔ w.extractLsb' 24 8 = 0#8 ∧ w.extractLsb' 0 8 ∈ opcodeBytes := by
  rw [← Opcode.exists_ofByte_iff]
  constructor
  · rintro ⟨i, hi⟩
    obtain ⟨hrsv, op, hop, -⟩ := (decode_eq_ok_iff w i).mp hi
    exact ⟨hrsv, op, hop⟩
  · rintro ⟨hrsv, op, hop⟩
    exact ⟨assemble op (Fields.ofWord w), (decode_eq_ok_iff w _).mpr ⟨hrsv, op, hop, rfl⟩⟩

/-! ### Words that agree on the bits of a row -/

/-- The bits a row of R96 uses, read from the instruction of the row with every operand 0. -/
def Opcode.rowBits (op : Opcode) : Word := usedBits (assemble op (Fields.ofOpcode op))

/-- The bits an instruction depends on are fixed by its row, whatever its operands. -/
theorem usedBits_assemble (op : Opcode) (f : Fields) : usedBits (assemble op f) = op.rowBits := by
  cases op <;> rfl

theorem Opcode.rowBits_opcode (op : Opcode) : op.rowBits.extractLsb' 0 8 = BitVec.allOnes 8 := by
  cases op <;> decide

theorem Opcode.rowBits_reserved (op : Opcode) : op.rowBits.extractLsb' 24 8 = BitVec.allOnes 8 := by
  cases op <;> decide

/-- Words that agree under a mask have the same value in every field the mask covers. -/
theorem extractLsb'_eq_of_and_eq {w w' m : Word} (hagree : w' &&& m = w &&& m) (lo len : Nat)
    (hcovered : m.extractLsb' lo len = BitVec.allOnes len) : w'.extractLsb' lo len = w.extractLsb' lo len := by
  have hfield := congrArg (BitVec.extractLsb' lo len) hagree
  simpa only [BitVec.extractLsb'_and, hcovered, BitVec.and_allOnes] using hfield

/-- The bits of a row cover every field `assemble` reads for it, so the other fields do not matter (R93). -/
theorem assemble_ofWord_congr {op : Opcode} {w w' : Word} (hagree : w' &&& op.rowBits = w &&& op.rowBits) :
    assemble op (Fields.ofWord w') = assemble op (Fields.ofWord w) := by
  have hfield := extractLsb'_eq_of_and_eq hagree
  cases op <;> simp (disch := decide) only [assemble, Fields.ofWord, hfield]

theorem decode_congr {w w' : Word} {i : Instr} (hdecode : decode w = .ok i)
    (hagree : w' &&& usedBits i = w &&& usedBits i) : decode w' = .ok i := by
  obtain ⟨hrsv, op, hop, rfl⟩ := (decode_eq_ok_iff w i).mp hdecode
  rw [usedBits_assemble] at hagree
  have hfield := extractLsb'_eq_of_and_eq hagree
  refine (decode_eq_ok_iff w' _).mpr ⟨?_, op, ?_, assemble_ofWord_congr hagree⟩
  · rw [hfield 24 8 op.rowBits_reserved, hrsv]
  · rw [hfield 0 8 op.rowBits_opcode, hop]

/-- Settles O2: the bits of a row cover its opcode, the reserved bits and every field it lists, and nothing else is read;
a word decodes exactly when its reserved bits are zero and its opcode is listed. -/
theorem unlistedFieldsAreIgnored : Obligations.UnlistedFieldsAreIgnored :=
  ⟨fun _ _ _ => decode_congr, exists_decode_eq_ok_iff⟩

end Sys2Proof

/-!
The colour set in closed form: a fold of R172 over pixels holds the colours in order of first occurrence, each with the
count and the alpha sum of the pixels that carry it, and a remap that is a function of the pixel; CSBUILD is read off it.
-/
namespace Sys2Proof.Machine

/-! ### What a block collects -/

/-- The colours of the pixels that are not excluded, in order of first occurrence (R175). -/
def coloursOf (pt : Bool) (ps : List Pixel) : List Rgb8 :=
  ((ps.filter fun p => !excluded pt p).map Pixel.rgb).eraseDups

/-- The pixels counted for a colour (R173, R175). -/
def carriers (pt : Bool) (ps : List Pixel) (c : Rgb8) : List Pixel :=
  ps.filter fun p => !excluded pt p && p.rgb == c

/-- The entry of a colour: how many pixels carry it, and the sum of their alphas (R174). -/
def tally (pt : Bool) (ps : List Pixel) (c : Rgb8) : SetEntry where
  rgb := c
  n := (carriers pt ps c).length
  asum := ((carriers pt ps c).map fun p => p.a.toNat).sum

/-- The remap entry of a pixel: none when it is excluded, else the number of its colour (R172). -/
def slot (pt : Bool) (cs : List Rgb8) (p : Pixel) : Option (Fin 16) :=
  if excluded pt p then none else some (Fin.ofNat 16 (cs.idxOf p.rgb))

/-- The builder after the given pixels. -/
def SetBuilder.collected (pt : Bool) (ps : List Pixel) : SetBuilder where
  entries := (coloursOf pt ps).map (tally pt ps)
  remap := ps.map (slot pt (coloursOf pt ps))

/-! ### Exclusion and the colours -/

theorem excluded_iff (pt : Bool) (p : Pixel) : excluded pt p = true ↔ pt = true ∧ p.a.toNat < 128 := by
  rw [excluded, Bool.and_eq_true, decide_eq_true_eq, Config.ptThreshold]

@[simp] theorem mem_coloursOf {pt : Bool} {ps : List Pixel} {c : Rgb8} :
    c ∈ coloursOf pt ps ↔ ∃ p ∈ ps, excluded pt p = false ∧ p.rgb = c := by
  simp [coloursOf, List.mem_eraseDups, and_assoc]

theorem rgb_mem_coloursOf {pt : Bool} {ps : List Pixel} {p : Pixel} (hp : p ∈ ps) (hx : excluded pt p = false) :
    p.rgb ∈ coloursOf pt ps :=
  mem_coloursOf.mpr ⟨p, hp, hx, rfl⟩

theorem coloursOf_append_excluded {pt : Bool} {p : Pixel} (hx : excluded pt p = true) (ps : List Pixel) :
    coloursOf pt (ps ++ [p]) = coloursOf pt ps := by
  simp [coloursOf, hx]

/-- Of two lists of pixels the second adds the colours the first has not. -/
theorem coloursOf_append (pt : Bool) (ps qs : List Pixel) :
    ∃ rest, coloursOf pt (ps ++ qs) = coloursOf pt ps ++ rest := by
  simp only [coloursOf, List.filter_append, List.map_append, List.eraseDups_append]
  exact ⟨_, rfl⟩

/-- A pixel that is not excluded appends its colour unless the colour is there (R172). -/
theorem coloursOf_append_included {pt : Bool} {p : Pixel} (hx : excluded pt p = false) (ps : List Pixel) :
    coloursOf pt (ps ++ [p])
      = if p.rgb ∈ coloursOf pt ps then coloursOf pt ps else coloursOf pt ps ++ [p.rgb] := by
  have hsame : p.rgb ∈ coloursOf pt ps ↔ p.rgb ∈ (ps.filter fun q => !excluded pt q).map Pixel.rgb :=
    List.mem_eraseDups
  rw [if_congr hsame rfl rfl]
  simp only [coloursOf, List.filter_append, List.map_append, List.eraseDups_append, List.filter_singleton, hx,
    Bool.not_false, cond_true, List.map_singleton, List.removeAll, List.elem_eq_contains, List.contains_eq_mem]
  split <;> simp [*, List.eraseDups_cons]

theorem coloursOf_append_old {pt : Bool} {p : Pixel} {ps : List Pixel} (hx : excluded pt p = false)
    (hc : p.rgb ∈ coloursOf pt ps) : coloursOf pt (ps ++ [p]) = coloursOf pt ps := by
  rw [coloursOf_append_included hx, if_pos hc]

theorem coloursOf_append_new {pt : Bool} {p : Pixel} {ps : List Pixel} (hx : excluded pt p = false)
    (hc : p.rgb ∉ coloursOf pt ps) : coloursOf pt (ps ++ [p]) = coloursOf pt ps ++ [p.rgb] := by
  rw [coloursOf_append_included hx, if_neg hc]

theorem nodup_coloursOf (pt : Bool) (ps : List Pixel) : (coloursOf pt ps).Nodup := by
  induction ps using List.reverseRecOn with
  | nil => exact List.nodup_nil
  | append_singleton ps p ih =>
    cases hx : excluded pt p with
    | true => rwa [coloursOf_append_excluded hx]
    | false =>
      by_cases hc : p.rgb ∈ coloursOf pt ps
      · rwa [coloursOf_append_old hx hc]
      · rw [coloursOf_append_new hx hc]
        exact ih.append (List.nodup_singleton _) (List.disjoint_singleton.mpr hc)

theorem length_coloursOf_append_le (pt : Bool) (ps : List Pixel) (p : Pixel) :
    (coloursOf pt (ps ++ [p])).length ≤ (coloursOf pt ps).length + 1 := by
  cases hx : excluded pt p with
  | true => simp [coloursOf_append_excluded hx]
  | false =>
    by_cases hc : p.rgb ∈ coloursOf pt ps
    · simp [coloursOf_append_old hx hc]
    · simp [coloursOf_append_new hx hc]

theorem length_coloursOf_le (pt : Bool) (ps : List Pixel) : (coloursOf pt ps).length ≤ ps.length := by
  induction ps using List.reverseRecOn with
  | nil => exact Nat.le_refl 0
  | append_singleton ps p ih =>
    have := length_coloursOf_append_le pt ps p
    rw [List.length_append, List.length_singleton]
    omega

/-! ### One more pixel -/

theorem tally_append_other {pt : Bool} {p : Pixel} {c : Rgb8} (h : excluded pt p = false → p.rgb ≠ c)
    (ps : List Pixel) : tally pt (ps ++ [p]) c = tally pt ps c := by
  have hkeep : (!excluded pt p && p.rgb == c) = false := by
    cases hx : excluded pt p <;> simp [hx] at h ⊢
    exact h
  simp [tally, carriers, hkeep]

theorem tally_append_same {pt : Bool} {p : Pixel} (hx : excluded pt p = false) (ps : List Pixel) :
    tally pt (ps ++ [p]) p.rgb = (tally pt ps p.rgb).count p.a := by
  simp [tally, carriers, hx, SetEntry.count]

/-- A colour no pixel has yet counts one pixel. -/
theorem tally_append_new {pt : Bool} {p : Pixel} {ps : List Pixel} (hx : excluded pt p = false)
    (hc : p.rgb ∉ coloursOf pt ps) : tally pt (ps ++ [p]) p.rgb = ⟨p.rgb, 1, p.a.toNat⟩ := by
  have hnone : carriers pt ps p.rgb = [] := by
    simpa [carriers] using hc
  rw [tally_append_same hx]
  simp [tally, hnone, SetEntry.count]

theorem SetBuilder.collected_find (pt : Bool) (ps : List Pixel) (c : Rgb8) :
    (collected pt ps).find c = (coloursOf pt ps).idxOf? c := by
  simp [SetBuilder.find, collected, List.findIdx?_map, List.idxOf?, Function.comp_def, tally]

theorem SetBuilder.collected_append_excluded {pt : Bool} {p : Pixel} (hx : excluded pt p = true) (ps : List Pixel) :
    collected pt (ps ++ [p]) = { collected pt ps with remap := (collected pt ps).remap ++ [none] } := by
  have htally : tally pt (ps ++ [p]) = tally pt ps := funext fun c => tally_append_other (by simp [hx]) ps
  simp [collected, coloursOf_append_excluded hx, htally, slot, hx]

/-- Counting one more pixel of a colour changes the entry of the colour alone. -/
theorem modify_map_tally {pt : Bool} {p : Pixel} (hx : excluded pt p = false) {ps : List Pixel} {j : Nat}
    (hj : (coloursOf pt ps).idxOf? p.rgb = some j) :
    ((coloursOf pt ps).map (tally pt ps)).modify j (fun x => x.count p.a)
      = (coloursOf pt ps).map (tally pt (ps ++ [p])) := by
  obtain ⟨hlt, hget, -⟩ := List.idxOf?_eq_some_iff.mp hj
  refine List.ext_getElem (by simp) fun i hi hi' => ?_
  rw [List.getElem_modify, List.getElem_map, List.getElem_map]
  split
  next heq =>
    subst heq
    rw [hget, tally_append_same hx]
  next hne =>
    refine (tally_append_other (fun _ hrgb => hne ?_) ps).symm
    exact (nodup_coloursOf pt ps).getElem_inj_iff.mp (hget.trans hrgb)

/-- One pixel of R172 takes the collected pixels to those with it. -/
theorem SetBuilder.add_collected (pt : Bool) (ps : List Pixel) (p : Pixel) :
    (collected pt ps).add pt p = collected pt (ps ++ [p]) := by
  cases hx : excluded pt p with
  | true => rw [collected_append_excluded hx, SetBuilder.add, if_pos hx]
  | false =>
    rw [SetBuilder.add, if_neg (by simp [hx]), collected_find]
    cases hj : (coloursOf pt ps).idxOf? p.rgb with
    | some j =>
      have hc : p.rgb ∈ coloursOf pt ps := List.isSome_idxOf?.mp (by simp [hj])
      have hslot : (coloursOf pt ps).idxOf p.rgb = j := by simp [List.idxOf_eq_getD_idxOf?, hj]
      simp [collected, modify_map_tally hx hj, coloursOf_append_old hx hc, slot, hx, hslot]
    | none =>
      have hc : p.rgb ∉ coloursOf pt ps := List.idxOf?_eq_none_iff.mp hj
      have hold : ∀ c ∈ coloursOf pt ps, tally pt (ps ++ [p]) c = tally pt ps c := fun c hmem =>
        tally_append_other (fun _ heq => hc (heq ▸ hmem)) ps
      have hslot : ∀ q ∈ ps, slot pt (coloursOf pt ps ++ [p.rgb]) q = slot pt (coloursOf pt ps) q := by
        intro q hq
        cases hxq : excluded pt q with
        | true => simp [slot, hxq]
        | false => simp [slot, hxq, List.idxOf_append_of_mem (rgb_mem_coloursOf hq hxq)]
      have hnew : slot pt (coloursOf pt ps ++ [p.rgb]) p = some (Fin.ofNat 16 (coloursOf pt ps).length) := by
        simp [slot, hx, List.idxOf_append_of_notMem hc]
      simp only [collected, coloursOf_append_new hx hc, List.map_append, List.map_singleton, tally_append_new hx hc,
        List.map_congr_left hold, List.map_congr_left hslot, hnew, List.length_map]

theorem SetBuilder.foldl_add (pt : Bool) (ps : List Pixel) :
    ps.foldl (SetBuilder.add pt) ⟨[], []⟩ = collected pt ps := by
  induction ps using List.reverseRecOn with
  | nil => rfl
  | append_singleton ps p ih => rw [List.foldl_append, ih, List.foldl_cons, List.foldl_nil, add_collected]

/-! ### The registers of the built set -/

/-- The pixels of a block are those at the numbers 0 to 15. -/
theorem toList_eq_map_idx16 {α : Type} (v : Vector α 16) : v.toList = idx16.map fun i => v[i] := by
  conv_lhs => rw [eq_tab16 v]
  rfl

theorem mem_idx16 (i : Fin 16) : i ∈ idx16 := by
  revert i
  decide

/-- The colours of a block, as a list. -/
def blockColours (pt : Bool) (pix : Vector Pixel 16) : List Rgb8 := coloursOf pt pix.toList

theorem length_blockColours_le (pt : Bool) (pix : Vector Pixel 16) : (blockColours pt pix).length ≤ 16 := by
  simpa [blockColours] using length_coloursOf_le pt pix.toList

theorem buildSet_eq (pt wa : Bool) (pix : Vector Pixel 16) :
    buildSet pt wa pix = (SetBuilder.collected pt pix.toList).finish wa := by
  rw [buildSet, SetBuilder.foldl_add]

theorem buildSet_count (pt wa : Bool) (pix : Vector Pixel 16) :
    (buildSet pt wa pix).count.val = (blockColours pt pix).length := by
  have hle := length_blockColours_le pt pix
  simp only [buildSet_eq, SetBuilder.finish, SetBuilder.collected, List.length_map, Fin.ofNat]
  exact Nat.mod_eq_of_lt (Nat.lt_succ_of_le hle)

theorem buildSet_remap (pt wa : Bool) (pix : Vector Pixel 16) (i : Fin 16) :
    (buildSet pt wa pix).remap[i] = slot pt (blockColours pt pix) pix[i] := by
  simp [buildSet_eq, SetBuilder.finish, SetBuilder.collected, blockColours]

theorem buildSet_rgb (pt wa : Bool) (pix : Vector Pixel 16) (j : Fin 16) :
    (buildSet pt wa pix).rgb[j] = ((blockColours pt pix)[j.val]?).getD Rgb8.zero := by
  simp only [buildSet_eq, SetBuilder.finish, SetBuilder.collected, tab16_getElem_fin, List.getElem?_map, blockColours]
  cases (coloursOf pt pix.toList)[j.val]? <;> rfl

theorem buildSet_w (pt wa : Bool) (pix : Vector Pixel 16) (j : Fin 16) :
    (buildSet pt wa pix).w[j] = ((blockColours pt pix)[j.val]?).elim f0 fun c => (tally pt pix.toList c).weight wa := by
  simp only [buildSet_eq, SetBuilder.finish, SetBuilder.collected, tab16_getElem_fin, List.getElem?_map, blockColours]
  cases (coloursOf pt pix.toList)[j.val]? <;> rfl

theorem buildSet_transp (pt wa : Bool) (pix : Vector Pixel 16) :
    (buildSet pt wa pix).transp = true ↔ ∃ i : Fin 16, (buildSet pt wa pix).remap[i] = none := by
  simp only [buildSet_remap]
  simp [buildSet_eq, SetBuilder.finish, SetBuilder.collected, blockColours, toList_eq_map_idx16, mem_idx16]

/-! ### Which pixels a remap entry names -/

theorem slot_eq_none_iff {pt : Bool} {cs : List Rgb8} {p : Pixel} : slot pt cs p = none ↔ excluded pt p = true := by
  simp [slot]

/-- Among at most sixteen different colours, the number of a pixel's colour is the one place the colour stands at. -/
theorem slot_eq_some_iff {pt : Bool} {cs : List Rgb8} {p : Pixel} (hnodup : cs.Nodup) (hlen : cs.length ≤ 16)
    (hmem : excluded pt p = false → p.rgb ∈ cs) (j : Fin 16) :
    slot pt cs p = some j ↔ excluded pt p = false ∧ cs[j.val]? = some p.rgb := by
  cases hx : excluded pt p with
  | true => simp [slot, hx]
  | false =>
    have hlt : cs.idxOf p.rgb < cs.length := List.idxOf_lt_length_of_mem (hmem hx)
    have hval : (Fin.ofNat 16 (cs.idxOf p.rgb)).val = cs.idxOf p.rgb := Nat.mod_eq_of_lt (hlt.trans_le hlen)
    simp only [slot, hx, Bool.false_eq_true, if_false, Option.some.injEq, true_and, Fin.ext_iff, hval]
    constructor
    · intro hj
      rw [← hj, List.getElem?_idxOf (hmem hx)]
    · intro hj
      obtain ⟨hjlt, hget⟩ := List.getElem?_eq_some_iff.mp hj
      rw [← hget, hnodup.idxOf_getElem]

theorem buildSet_remap_eq_none_iff (pt wa : Bool) (pix : Vector Pixel 16) (i : Fin 16) :
    (buildSet pt wa pix).remap[i] = none ↔ pt = true ∧ pix[i].a.toNat < 128 := by
  rw [buildSet_remap, slot_eq_none_iff, excluded_iff]

theorem buildSet_remap_eq_some_iff (pt wa : Bool) (pix : Vector Pixel 16) (i j : Fin 16) :
    (buildSet pt wa pix).remap[i] = some j ↔
      excluded pt pix[i] = false ∧ (blockColours pt pix)[j.val]? = some pix[i].rgb := by
  have hpix : pix[i] ∈ pix.toList := by simp
  rw [buildSet_remap]
  exact slot_eq_some_iff (nodup_coloursOf pt pix.toList) (length_blockColours_le pt pix) (rgb_mem_coloursOf hpix) j

/-- Every entry is the colour of a pixel that is not excluded. -/
theorem exists_buildSet_remap_eq_some (pt wa : Bool) (pix : Vector Pixel 16) (j : Fin 16)
    (hj : j.val < (blockColours pt pix).length) : ∃ i : Fin 16, (buildSet pt wa pix).remap[i] = some j := by
  obtain ⟨p, hp, hx, hrgb⟩ := mem_coloursOf.mp (List.getElem_mem hj)
  obtain ⟨i, -, rfl⟩ := List.mem_map.mp (toList_eq_map_idx16 pix ▸ hp)
  refine ⟨i, (buildSet_remap_eq_some_iff pt wa pix i j).mpr ⟨hx, ?_⟩⟩
  rw [List.getElem?_eq_getElem hj, hrgb]

/-- A colour numbered below that of a pixel is the colour of an earlier pixel (R175). -/
theorem earlier_pixel_of_lt {pt : Bool} {ps qs : List Pixel} {p : Pixel} (hx : excluded pt p = false) {j k : Nat}
    (hk : (coloursOf pt (ps ++ p :: qs))[k]? = some p.rgb) (hjk : j < k) :
    ∃ q ∈ ps, excluded pt q = false ∧ (coloursOf pt (ps ++ p :: qs))[j]? = some q.rgb := by
  obtain ⟨rest, hsplit⟩ := coloursOf_append pt (ps ++ [p]) qs
  obtain ⟨rest', hsplit'⟩ := coloursOf_append pt ps (p :: qs)
  rw [List.append_assoc, List.singleton_append] at hsplit
  have hkle : k ≤ (coloursOf pt ps).length := by
    obtain ⟨m, hm, hmget⟩ := List.getElem_of_mem (rgb_mem_coloursOf (ps := ps ++ [p]) (by simp) hx)
    have hm' : (coloursOf pt (ps ++ p :: qs))[m]? = some p.rgb := by
      rw [hsplit, List.getElem?_append_left hm, List.getElem?_eq_getElem hm, hmget]
    have hmlt := (List.getElem?_eq_some_iff.mp hm').1
    have hmk : m = k := (List.getElem?_inj hmlt (nodup_coloursOf pt _)).mp (hm'.trans hk.symm)
    have := length_coloursOf_append_le pt ps p
    omega
  have hj : j < (coloursOf pt ps).length := hjk.trans_le hkle
  obtain ⟨q, hq, hxq, hrgb⟩ := mem_coloursOf.mp (List.getElem_mem hj)
  refine ⟨q, hq, hxq, ?_⟩
  rw [hsplit', List.getElem?_append_left hj, List.getElem?_eq_getElem hj, hrgb]

/-- The pixels before number `i`, and the pixels from it on. -/
theorem toList_split {α : Type} (v : Vector α 16) (i : Fin 16) :
    v.toList = v.toList.take i.val ++ v[i] :: v.toList.drop (i.val + 1) := by
  conv_lhs => rw [← List.take_append_drop i.val v.toList]
  rw [List.drop_eq_getElem_cons (by simp)]
  simp

theorem buildSet_remap_first_occurrence {pt wa : Bool} {pix : Vector Pixel 16} {i j k : Fin 16}
    (hi : (buildSet pt wa pix).remap[i] = some k) (hjk : j < k) :
    ∃ h : Fin 16, h < i ∧ (buildSet pt wa pix).remap[h] = some j := by
  obtain ⟨hx, hk⟩ := (buildSet_remap_eq_some_iff pt wa pix i k).mp hi
  rw [blockColours, toList_split pix i] at hk
  obtain ⟨q, hq, hxq, hj⟩ := earlier_pixel_of_lt hx hk hjk
  rw [← toList_split pix i] at hj
  obtain ⟨h, hh, rfl⟩ := List.mem_take_iff_getElem.mp hq
  have hlt : h < i.val := by omega
  exact ⟨⟨h, by omega⟩, hlt, (buildSet_remap_eq_some_iff pt wa pix _ j).mpr ⟨hxq, hj⟩⟩

/-- The pixels counted for an entry are those its number is the remap entry of. -/
theorem carriers_eq_map_filter (pt wa : Bool) (pix : Vector Pixel 16) {j : Fin 16} {c : Rgb8}
    (hj : (blockColours pt pix)[j.val]? = some c) :
    carriers pt pix.toList c
      = (idx16.filter fun i => (buildSet pt wa pix).remap[i] == some j).map fun i => pix[i] := by
  rw [carriers, toList_eq_map_idx16, List.filter_map]
  congr 1
  refine List.filter_congr fun i _ => ?_
  rw [Bool.eq_iff_iff, beq_iff_eq, buildSet_remap_eq_some_iff, hj, Option.some.injEq, eq_comm (a := c)]
  simp

/-! ### CSBUILD -/

/-- What writes the status and the colour set alone leaves every other register (R21). -/
theorem Engine.readReg_of_status_cs (e : Engine) (st : Status) (cs : ColourSet) {r : Reg} (hst : r ≠ .status)
    (hcs : r.isColourSet = false) : ({ e with status := st, cs := cs } : Engine).readReg r = e.readReg r := by
  cases r with
  | status => exact absurd rfl hst
  | csInfo | csRemap _ | csRgb _ | csW _ => cases hcs
  | _ => rfl

theorem csbuild_sameExcept (pt wa : Bool) (s : State) :
    SameExcept (commandWrites (.csbuild pt wa)) s (s.completeWith (Engine.csBuild pt wa)) := by
  refine ⟨rfl, rfl, fun r hr => ?_⟩
  obtain ⟨hst, hcs⟩ := Bool.or_eq_false_iff.mp hr
  exact s.eng.readReg_of_status_cs s.eng.status.complete _ (by simpa using hst) hcs

/-- Settles O31: the registers hold the colours of the block in order of first occurrence, with the tallies of R174. -/
theorem csbuildCollectsTheDistinctColours : Obligations.CsbuildCollectsTheDistinctColours := by
  intro pt wa s
  refine ⟨_, exec_csbuild pt wa s, csbuild_sameExcept pt wa s, rfl, ?_⟩
  simp only [State.completeWith_cs, Engine.csBuild_cs, buildSet_count]
  have hnodup : (blockColours pt s.eng.pix).Nodup := nodup_coloursOf pt s.eng.pix.toList
  refine ⟨buildSet_remap_eq_none_iff pt wa s.eng.pix, buildSet_transp pt wa s.eng.pix, fun i j hij => ?_,
    exists_buildSet_remap_eq_some pt wa s.eng.pix, fun j k hjk hk heq => ?_,
    fun i j k => buildSet_remap_first_occurrence, fun j hj => ?_, fun j hj => ?_⟩
  · obtain ⟨-, hget⟩ := (buildSet_remap_eq_some_iff pt wa s.eng.pix i j).mp hij
    exact ⟨(List.getElem?_eq_some_iff.mp hget).1, by rw [buildSet_rgb, hget, Option.getD_some]⟩
  · have hj : j.val < (blockColours pt s.eng.pix).length := Nat.lt_trans hjk hk
    simp only [buildSet_rgb, List.getElem?_eq_getElem hj, List.getElem?_eq_getElem hk, Option.getD_some] at heq
    exact absurd (hnodup.getElem_inj_iff.mp heq) (Nat.ne_of_lt hjk)
  · have hget := List.getElem?_eq_getElem hj
    rw [buildSet_w, hget, Option.elim_some, SetEntry.weight, tally, carriers_eq_map_filter pt wa s.eng.pix hget]
    simp only [List.length_map, List.map_map, Function.comp_def]
  · rw [buildSet_rgb, buildSet_w, List.getElem?_eq_none hj]
    exact ⟨rfl, rfl⟩

end Sys2Proof.Machine

/-!
The single-colour tables: the search of R192 over any candidates listed in ascending order of a key ends at the first of
least error; the candidate pairs are listed in the lexicographic order, from the pair of zeros on.
-/
namespace Sys2Proof.Machine

/-! ### The first of least error -/

/-- Candidates that stand before the result in the ascending order have a strictly larger error: at equal error the
earlier one is held (R192). -/
theorem firstLeast_lt_of_key_lt {α β : Type} [Preorder β] {key : α → β} {err : α → Nat} {best : α} {xs : List α}
    (hsorted : (best :: xs).Pairwise fun x y => key x ≤ key y) :
    ∀ x ∈ best :: xs, key x < key (firstLeast err best xs) → err (firstLeast err best xs) < err x := by
  induction xs generalizing best with
  | nil =>
    intro x hx hlt
    rw [List.mem_singleton.mp hx] at hlt
    exact absurd hlt (lt_irrefl _)
  | cons y ys ih =>
    intro x hx
    obtain ⟨hbest, htail⟩ := List.pairwise_cons.mp hsorted
    unfold firstLeast
    split
    next hy =>
      intro hlt
      rcases List.mem_cons.mp hx with rfl | hx
      · exact (firstLeast_le err y ys).1.trans_lt hy
      · exact ih htail x hx hlt
    next hy =>
      have ihbest := ih (best := best) (hsorted.sublist ((List.sublist_cons_self y ys).cons_cons best))
      intro hlt
      rcases List.mem_cons.mp hx with rfl | hx
      · exact ihbest x List.mem_cons_self hlt
      rcases List.mem_cons.mp hx with rfl | hx
      · have hbefore := ihbest best List.mem_cons_self ((hbest x List.mem_cons_self).trans_lt hlt)
        omega
      · exact ihbest x (List.mem_cons_of_mem _ hx) hlt

/-! ### The candidate pairs -/

@[simp] theorem mem_scPairs_k0 {n s e : Nat} : (s, e) ∈ scPairs n .k0 ↔ s < 2 ^ n ∧ e = s := by
  simp only [scPairs, List.mem_map, List.mem_range, Prod.mk.injEq]
  constructor
  · rintro ⟨_, hs, rfl, rfl⟩
    exact ⟨hs, rfl⟩
  · rintro ⟨hs, rfl⟩
    exact ⟨e, hs, rfl, rfl⟩

@[simp] theorem mem_scPairs_k2 {n s e : Nat} : (s, e) ∈ scPairs n .k2 ↔ s < 2 ^ n ∧ e < 2 ^ n := by
  simp [scPairs]

theorem zero_mem_scPairs (n : Nat) (k : IndexChoice) : (0, 0) ∈ scPairs n k := by
  cases k <;> simp

/-- The start is the outer loop and the end the inner one (R192). -/
theorem scPairs_sorted (n : Nat) (k : IndexChoice) : (scPairs n k).Pairwise fun p q => toLex p ≤ toLex q := by
  cases k with
  | k0 =>
    refine List.pairwise_map.mpr (List.pairwise_lt_range.imp fun hlt => ?_)
    exact Prod.Lex.toLex_le_toLex.mpr (.inl hlt)
  | k2 =>
    refine List.pairwise_flatMap.mpr ⟨fun s _ => ?_, List.pairwise_lt_range.imp fun hlt p hp q hq => ?_⟩
    · refine List.pairwise_map.mpr (List.pairwise_lt_range.imp fun hlt => ?_)
      exact Prod.Lex.toLex_le_toLex.mpr (.inr ⟨rfl, hlt.le⟩)
    · obtain ⟨_, -, rfl⟩ := List.mem_map.mp hp
      obtain ⟨_, -, rfl⟩ := List.mem_map.mp hq
      exact Prod.Lex.toLex_le_toLex.mpr (.inl hlt)

/-! ### A table entry -/

/-- The error R192 minimises. -/
def scErr (n : Nat) (lv : Levels) (k : IndexChoice) (v : Nat) (p : Nat × Nat) : Nat :=
  natDist (scLevel n lv k p.1 p.2) v

theorem romRead_eq (n : Nat) (lv : Levels) (k : IndexChoice) (v : Nat) :
    romRead n lv k v = firstLeast (scErr n lv k v) (0, 0) (scPairs n k) := rfl

theorem romRead_mem (n : Nat) (lv : Levels) (k : IndexChoice) (v : Nat) : romRead n lv k v ∈ scPairs n k := by
  rw [romRead_eq]
  rcases firstLeast_mem (scErr n lv k v) (0, 0) (scPairs n k) with h | h
  · rw [h]
    exact zero_mem_scPairs n k
  · exact h

theorem scErr_romRead_le {n : Nat} {k : IndexChoice} {p : Nat × Nat} (hp : p ∈ scPairs n k) (lv : Levels) (v : Nat) :
    scErr n lv k v (romRead n lv k v) ≤ scErr n lv k v p :=
  (firstLeast_le (scErr n lv k v) (0, 0) (scPairs n k)).2 p hp

theorem scErr_romRead_lt {n : Nat} {lv : Levels} {k : IndexChoice} {v : Nat} {p : Nat × Nat} (hp : p ∈ scPairs n k)
    (hbefore : toLex p < toLex (romRead n lv k v)) : scErr n lv k v (romRead n lv k v) < scErr n lv k v p := by
  have hsorted : ((0, 0) :: scPairs n k).Pairwise fun p q => toLex p ≤ toLex q :=
    List.pairwise_cons.mpr ⟨fun q _ => bot_le (a := toLex q), scPairs_sorted n k⟩
  exact firstLeast_lt_of_key_lt hsorted p (List.mem_cons_of_mem _ hp) hbefore

/-- Settles O34: a table entry is a candidate, no candidate has a smaller error, and those before it have a larger one. -/
theorem tableEntriesAreTheFirstOfLeastError : Obligations.TableEntriesAreTheFirstOfLeastError := by
  intro n lv v s e _ _ hs he
  obtain ⟨h0lt, h0eq⟩ := mem_scPairs_k0.mp (romRead_mem n lv .k0 v)
  obtain ⟨h2fst, h2snd⟩ := mem_scPairs_k2.mp (romRead_mem n lv .k2 v)
  have hmem0 : (s, s) ∈ scPairs n .k0 := mem_scPairs_k0.mpr ⟨hs, rfl⟩
  have hmem2 : (s, e) ∈ scPairs n .k2 := mem_scPairs_k2.mpr ⟨hs, he⟩
  exact ⟨⟨h0lt, h0eq, scErr_romRead_le hmem0 lv v,
      fun hlt => scErr_romRead_lt hmem0 (Prod.Lex.toLex_lt_toLex.mpr (.inl hlt))⟩,
    h2fst, h2snd, scErr_romRead_le hmem2 lv v, fun hlt => scErr_romRead_lt hmem2 (Prod.Lex.toLex_lt_toLex.mpr hlt)⟩

end Sys2Proof.Machine

/-!
FITSINGLE: what it does with a set of one colour and with any other, each said once, and what it leaves alone.
-/
namespace Sys2Proof.Machine

/-! ### Decoding by the opcode -/

/-- A word with the byte of a row and no reserved bit decodes to the row's instruction (R92). -/
theorem selects_assemble (op : Opcode) : selects op.code fun w => assemble op (Fields.ofWord w) := by
  intro w hop hrsv
  exact (decode_eq_ok_iff w _).mpr ⟨hrsv, op, by rw [hop, Opcode.ofByte_code], rfl⟩

/-! ### The level of a choice -/

/-- The level a choice is measured by is the one the decoder reconstructs at the choice's index (R196, R276). -/
theorem levels8_getElem?_idx (lv : Levels) (q : Rgb565 × Rgb565) (k : IndexChoice) :
    (levels8 q.1 q.2 lv)[k.idx.toNat]? = some (scColour lv q k) := by
  cases k <;> cases lv <;> rfl

/-- One index for every entry: the pixels that are not excluded have it (R223). -/
theorem spread_replicate (cs : ColourSet) (x : BitVec 2) (i : Fin 16) :
    (spread cs (Vector.replicate 16 x))[i] = if cs.remap[i] = none then 3#2 else x := by
  cases h : cs.remap[i] with
  | none => rw [spread_none h, if_pos rfl]
  | some j => simp [spread_some h]

/-! ### The two ways FITSINGLE ends -/

theorem Engine.fitSingle_of_count_ne_one {e : Engine} (h : e.cs.count.val ≠ 1) (lv : Levels) (met : Metric) :
    e.fitSingle lv met = { e with status := e.status.setSna true } := if_pos h

/-- The fit registers of a choice for the first colour of the set (R196). -/
def singleFit (cs : ColourSet) (lv : Levels) (m : Vec3) (k : IndexChoice) : FitRegs where
  a := grid (scEndpoints lv k cs.rgb[0]).1
  b := grid (scEndpoints lv k cs.rgb[0]).2
  idx := spread cs (Vector.replicate 16 k.idx)
  lv := lv
  err := fmul cs.w[0] (scDist lv m cs.rgb[0] k)

theorem Engine.fitSingle_of_count_eq_one {e : Engine} (h : e.cs.count.val = 1) (lv : Levels) (met : Metric) :
    e.fitSingle lv met = { e with
      status := e.status.setSna false
      fit := singleFit e.cs lv (metricVec met) (scBest lv (metricVec met) e.cs.rgb[0]) } :=
  if_neg fun hn => hn h

/-! ### What FITSINGLE leaves alone -/

/-- What writes the status and the fit registers alone leaves every other register (R21). -/
theorem Engine.readReg_of_status_fit (e : Engine) (st : Status) (fit : FitRegs) {r : Reg} (hst : r ≠ .status)
    (hfit : r.isFit = false) : ({ e with status := st, fit := fit } : Engine).readReg r = e.readReg r := by
  cases r with
  | status => exact absurd rfl hst
  | fitErr | fitA _ | fitB _ | fitIdx | fitLv => cases hfit
  | _ => rfl

theorem Engine.exists_fitSingle_eq (e : Engine) (lv : Levels) (met : Metric) :
    ∃ st fit, e.fitSingle lv met = { e with status := st, fit := fit } := by
  by_cases h : e.cs.count.val = 1
  · exact ⟨_, _, Engine.fitSingle_of_count_eq_one h lv met⟩
  · exact ⟨_, e.fit, Engine.fitSingle_of_count_ne_one h lv met⟩

theorem fitsingle_sameExcept (lv : Levels) (met : Metric) (s : State) :
    SameExcept (commandWrites (.fitsingle lv met)) s (s.completeWith (Engine.fitSingle lv met)) := by
  refine ⟨rfl, rfl, fun r hr => ?_⟩
  obtain ⟨hst, hfit⟩ := Bool.or_eq_false_iff.mp hr
  obtain ⟨st, fit, heq⟩ := s.eng.exists_fitSingle_eq lv met
  rw [State.completeWith, heq]
  exact s.eng.readReg_of_status_fit st.complete fit (by simpa using hst) hfit

/-! ### FITSINGLE -/

theorem fitsingle_of_count_ne_one {s : State} (h : s.eng.cs.count.val ≠ 1) (lv : Levels) (met : Metric) :
    s.completeWith (Engine.fitSingle lv met)
      = { s with eng := { s.eng with status := { s.eng.status with done := true, sna := true } } } := by
  rw [State.completeWith, Engine.fitSingle_of_count_ne_one h]
  rfl

/-- Settles O35: with one colour the committed fit is that of the choice `scBest` takes, whose branches are the two of the
statement; with any other count `SNA` and `DONE` alone are set. -/
theorem fitsingleTakesTheNearerTableChoice : Obligations.FitsingleTakesTheNearerTableChoice := by
  refine ⟨selects_assemble .fitsingle, fun lv met s => ⟨_, exec_fitsingle lv met s, fitsingle_sameExcept lv met s,
    fun hcount => fitsingle_of_count_ne_one hcount lv met, fun hcount => ?_⟩⟩
  refine ⟨_, _, _, _, rfl, rfl, levels8_getElem?_idx lv _ .k0, levels8_getElem?_idx lv _ .k2, ?_⟩
  rw [State.completeWith_status, State.completeWith_fit, Engine.fitSingle_of_count_eq_one hcount]
  refine ⟨rfl, rfl, ?_⟩
  split
  next hnearer =>
    have hbest : scBest lv (metricVec met) s.eng.cs.rgb[0] = .k2 := if_pos hnearer
    rw [hbest]
    exact ⟨rfl, rfl, rfl, spread_replicate s.eng.cs _⟩
  next hnearer =>
    have hbest : scBest lv (metricVec met) s.eng.cs.rgb[0] = .k0 := if_neg hnearer
    rw [hbest]
    exact ⟨rfl, rfl, rfl, spread_replicate s.eng.cs _⟩

end Sys2Proof.Machine

/-!
What the codec commands leave alone: a command that writes one half of `CBLK`, and one that writes `DPIX`, keeps every
other register (R21, R26).
-/
namespace Sys2Proof.Machine

/-! ### One half of `CBLK` written -/

/-- A byte outside the written half stays (R26). -/
theorem Engine.setHalf_cblk_outside {h : Half} {i : Nat} (hi : i < 16) (hout : i / 8 ≠ halfBase h / 8)
    (blk : Vector Byte 8) (e : Engine) : (e.setHalf h blk).cblk[i] = e.cblk[i] := by
  cases h with
  | lower =>
    have hnot : ¬i < 8 := fun hlt => hout (Nat.div_eq_of_lt hlt)
    simp [Engine.setHalf, hnot]
  | upper =>
    have hnot : ¬8 ≤ i := fun hle => hout (by simp only [halfBase]; omega)
    simp [Engine.setHalf, hnot]

/-- What writes the status and one half of `CBLK` alone leaves every other register (R21). -/
theorem Engine.readReg_of_status_half (e : Engine) (st : Status) (h : Half) (blk : Vector Byte 8) {r : Reg}
    (hst : r ≠ .status) (hhalf : r.isHalf h = false) :
    ({ e.setHalf h blk with status := st } : Engine).readReg r = e.readReg r := by
  cases r with
  | status => exact absurd rfl hst
  | cblk j =>
    have hword : j.val / 2 ≠ halfBase h / 8 := of_decide_eq_false hhalf
    simp (disch := omega) only [Engine.readReg, Engine.setHalf_cblk_outside]
  | _ => rfl

/-- The frame of a command whose effect is one half of `CBLK`. -/
theorem completeWith_setHalf_sameExcept (off : Half) (blk : Engine → Vector Byte 8) (s : State) :
    SameExcept (fun r => r == .status || r.isHalf off) s (s.completeWith fun e => e.setHalf off (blk e)) := by
  refine ⟨rfl, rfl, fun r hr => ?_⟩
  obtain ⟨hst, hhalf⟩ := Bool.or_eq_false_iff.mp hr
  exact s.eng.readReg_of_status_half s.eng.status.complete off _ (by simpa using hst) hhalf

/-- The half a command wrote reads as the bytes it wrote. -/
theorem completeWith_setHalf_half (off : Half) (blk : Engine → Vector Byte 8) (s : State) :
    (s.completeWith fun e => e.setHalf off (blk e)).eng.half off = blk s.eng := by
  rw [Engine.half_congr (State.completeWith_cblk _ s) off, Engine.half_setHalf, if_pos rfl]

/-! ### `DPIX` written -/

/-- What writes the status and `DPIX` alone leaves every other register (R21). -/
theorem Engine.readReg_of_status_dpix (e : Engine) (st : Status) (dpix : Vector Pixel 16) {r : Reg}
    (hst : r ≠ .status) (hdec : r.isDecoded = false) :
    ({ e with status := st, dpix := dpix } : Engine).readReg r = e.readReg r := by
  cases r with
  | status => exact absurd rfl hst
  | dpix _ => cases hdec
  | _ => rfl

/-- The frame of a command whose effect is `DPIX`. -/
theorem completeWith_dpix_sameExcept (dpix : Engine → Vector Pixel 16) (s : State) :
    SameExcept (fun r => r == .status || r.isDecoded) s (s.completeWith fun e => { e with dpix := dpix e }) := by
  refine ⟨rfl, rfl, fun r hr => ?_⟩
  obtain ⟨hst, hdec⟩ := Bool.or_eq_false_iff.mp hr
  exact s.eng.readReg_of_status_dpix s.eng.status.complete _ (by simpa using hst) hdec

end Sys2Proof.Machine

/-!
CENC: the order of the endpoints in each mode, the bytes of a colour block, and the block CENC stores.
-/
namespace Sys2Proof.Machine

/-! ### The order that carries the mode -/

theorem orderBlock_four_of_lt {blk : ColourBlock} (h : blk.a.toNat < blk.b.toNat) :
    orderBlock .four blk = ⟨blk.b, blk.a, tab16 fun i => flip4 blk.x[i]⟩ := if_pos h

/-- Without the exchange equal endpoints, whose levels are all one colour, have index 0 throughout (R273). -/
theorem orderBlock_four_of_not_lt {blk : ColourBlock} (h : ¬blk.a.toNat < blk.b.toNat) :
    orderBlock .four blk = { blk with x := tab16 fun i => if blk.a = blk.b then 0#2 else blk.x[i] } := by
  rw [orderBlock, if_neg h]
  by_cases heq : blk.a = blk.b
  · simp only [if_pos heq]
    rfl
  · simp only [if_neg heq, ← eq_tab16]

theorem orderBlock_three_of_gt {blk : ColourBlock} (h : blk.b.toNat < blk.a.toNat) :
    orderBlock .three blk = ⟨blk.b, blk.a, tab16 fun i => flip3 blk.x[i]⟩ := if_pos h

theorem orderBlock_three_of_not_gt {blk : ColourBlock} (h : ¬blk.b.toNat < blk.a.toNat) :
    orderBlock .three blk = blk := if_neg h

/-! ### The bytes of a block -/

/-- The two bytes of a packed endpoint. -/
theorem toNat_endpointBytes (p : BitVec 16) :
    (BitVec.ofNat 8 (digitLE 8 0 p.toNat)).toNat = p.toNat % 256 ∧
    (BitVec.ofNat 8 (digitLE 8 1 p.toNat)).toNat = p.toNat / 256 := by
  have hp := p.isLt
  simp only [digitLE, BitVec.toNat_ofNat]
  omega

/-- A packed endpoint lies low byte first (R110). -/
theorem ColourBlock.toBytes_endpoints (c : ColourBlock) :
    c.toBytes[0].toNat = c.a.toNat % 256 ∧ c.toBytes[1].toNat = c.a.toNat / 256 ∧
    c.toBytes[2].toNat = c.b.toNat % 256 ∧ c.toBytes[3].toNat = c.b.toNat / 256 := by
  obtain ⟨haLow, haHigh⟩ := toNat_endpointBytes c.a
  obtain ⟨hbLow, hbHigh⟩ := toNat_endpointBytes c.b
  exact ⟨haLow, haHigh, hbLow, hbHigh⟩

theorem ColourBlock.toBytes_idxByte (c : ColourBlock) (j : Fin 4) : c.toBytes[4 + j.val] = idxByte c.x j := by
  fin_cases j <;> rfl

/-- An index byte holds four indices, that of the lowest pixel in the lowest bits (R110, R274). -/
theorem toNat_idxByte (x : Vector (BitVec 2) 16) (j : Fin 4) :
    (idxByte x j).toNat = x[4 * j.val].toNat + 4 * x[4 * j.val + 1].toNat + 16 * x[4 * j.val + 2].toNat
      + 64 * x[4 * j.val + 3].toNat := by
  have h0 := x[4 * j.val].isLt
  have h1 := x[4 * j.val + 1].isLt
  have h2 := x[4 * j.val + 2].isLt
  have h3 := x[4 * j.val + 3].isLt
  simp only [idxByte, packLE, BitVec.toNat_ofNat]
  omega

/-! ### CENC -/

/-- The block CENC stores: the packed endpoints of the fit and its indices, in the order of the mode (R271). -/
def storedBlock (f : FitRegs) : ColourBlock := orderBlock f.lv ⟨pack565 (q565 f.a), pack565 (q565 f.b), f.idx⟩

theorem cenc_half (off : Half) (s : State) :
    (s.completeWith (Engine.colourEnc off)).eng.half off = (storedBlock s.eng.fit).toBytes :=
  completeWith_setHalf_half off (fun e => encodeColour e.fit) s

theorem cenc_sameExcept (off : Half) (s : State) :
    SameExcept (commandWrites (.cenc off)) s (s.completeWith (Engine.colourEnc off)) :=
  completeWith_setHalf_sameExcept off (fun e => encodeColour e.fit) s

theorem cenc_status (off : Half) (s : State) :
    (s.completeWith (Engine.colourEnc off)).eng.status = { s.eng.status with done := true } := by
  rw [State.completeWith_status, Engine.colourEnc_status, Status.complete]

/-- Settles O42: the stored block is the ordered one, by the mode and the comparison of the packed endpoints, and its
bytes are those of one half of `CBLK`. -/
theorem cencStoresTheFitInModeOrder : Obligations.CencStoresTheFitInModeOrder := by
  refine ⟨selects_assemble .cenc, fun off s => ⟨_, (storedBlock s.eng.fit).a, (storedBlock s.eng.fit).b,
    fun i => (storedBlock s.eng.fit).x[i], exec_cenc off s, cenc_sameExcept off s, cenc_status off s, ?_, ?_⟩⟩
  · unfold storedBlock
    cases s.eng.fit.lv with
    | four =>
      dsimp only
      split
      next hlt =>
        rw [orderBlock_four_of_lt hlt]
        exact ⟨rfl, rfl, fun i => tab16_getElem_fin _ i⟩
      next hnot =>
        rw [orderBlock_four_of_not_lt hnot]
        exact ⟨rfl, rfl, fun i => tab16_getElem_fin _ i⟩
    | three =>
      dsimp only
      split
      next hgt =>
        rw [orderBlock_three_of_gt hgt]
        exact ⟨rfl, rfl, fun i => tab16_getElem_fin _ i⟩
      next hnot =>
        rw [orderBlock_three_of_not_gt hnot]
        exact ⟨rfl, rfl, fun _ => rfl⟩
  · rw [cenc_half]
    obtain ⟨h0, h1, h2, h3⟩ := (storedBlock s.eng.fit).toBytes_endpoints
    refine ⟨h0, h1, h2, h3, fun j => ?_⟩
    rw [ColourBlock.toBytes_idxByte, toNat_idxByte]
    rfl

end Sys2Proof.Machine

/-!
CDEC: the endpoints and the wire indices read from the bytes, the pixel of an index in either mode, and the pixels CDEC
writes.
-/
namespace Sys2Proof.Machine

/-! ### The block of eight bytes -/

theorem toNat_word16 (lo hi : Byte) : (word16 lo hi).toNat = lo.toNat + 256 * hi.toNat := by
  simp only [word16, packLE, BitVec.toNat_ofNat]
  omega

/-- The index of a pixel in the decoded block is its wire index (R110). -/
theorem ColourBlock.toNat_ofBytes_x (y : Vector Byte 8) (i : Fin 16) :
    ((ColourBlock.ofBytes y).x[i]).toNat = wireIndex2 y i := by
  simp only [ColourBlock.ofBytes, tab16_getElem_fin, wireIndex2, digitLE, BitVec.toNat_ofNat, Nat.mod_mod,
    Nat.pow_mul, Nat.reducePow]

/-! ### The pixel of an index -/

theorem ColourBlock.mode3_iff (m3 : Bool) (c : ColourBlock) :
    c.mode3 m3 = true ↔ m3 = true ∧ c.a.toNat ≤ c.b.toNat := by
  rw [ColourBlock.mode3, Bool.and_eq_true, decide_eq_true_eq]

/-- The level count of a block's mode (R112). -/
def ColourBlock.levels (m3 : Bool) (c : ColourBlock) : Levels := if c.mode3 m3 then .three else .four

/-- An index that names a level gives its colour with alpha 255 (R280). -/
theorem ColourBlock.pixel_of_level {m3 : Bool} {c : ColourBlock} {k : BitVec 2} {l : Rgb8}
    (h : (levels8 (unpack565 c.a) (unpack565 c.b) (c.levels m3))[k.toNat]? = some l) :
    c.pixel m3 k = ⟨l.r, l.g, l.b, 255#8⟩ := by
  rw [ColourBlock.levels] at h
  simp only [ColourBlock.pixel, h, Rgb8.withAlpha]

/-- An index that names no level gives transparent black (R112). -/
theorem ColourBlock.pixel_of_no_level {m3 : Bool} {c : ColourBlock} {k : BitVec 2}
    (h : (levels8 (unpack565 c.a) (unpack565 c.b) (c.levels m3))[k.toNat]? = none) : c.pixel m3 k = Pixel.zero := by
  rw [ColourBlock.levels] at h
  simp only [ColourBlock.pixel, h]

theorem ColourBlock.levels_of_mode3 {m3 : Bool} {c : ColourBlock} (h : m3 = true ∧ c.a.toNat ≤ c.b.toNat) :
    c.levels m3 = .three := if_pos ((c.mode3_iff m3).mpr h)

theorem ColourBlock.levels_of_not_mode3 {m3 : Bool} {c : ColourBlock} (h : ¬(m3 = true ∧ c.a.toNat ≤ c.b.toNat)) :
    c.levels m3 = .four := if_neg (mt (c.mode3_iff m3).mp h)

/-- In 3-colour mode index 3 is past the three levels (R112). -/
theorem ColourBlock.pixel_mode3_at_three {m3 : Bool} {c : ColourBlock} {k : BitVec 2}
    (h : m3 = true ∧ c.a.toNat ≤ c.b.toNat) (hk : k.toNat = 3) : c.pixel m3 k = Pixel.zero := by
  refine pixel_of_no_level ?_
  rw [levels_of_mode3 h, hk]
  rfl

/-- In 3-colour mode every other index names one of the three levels (R276). -/
theorem ColourBlock.exists_pixel_mode3 {m3 : Bool} {c : ColourBlock} {k : BitVec 2}
    (h : m3 = true ∧ c.a.toNat ≤ c.b.toNat) (hk : k.toNat ≠ 3) :
    ∃ l, (levels8 (unpack565 c.a) (unpack565 c.b) .three)[k.toNat]? = some l ∧
      c.pixel m3 k = ⟨l.r, l.g, l.b, 255#8⟩ := by
  have hlt : k.toNat < (levels8 (unpack565 c.a) (unpack565 c.b) .three).length := show k.toNat < 3 by omega
  have hl := List.getElem?_eq_getElem hlt
  exact ⟨_, hl, pixel_of_level (by rwa [levels_of_mode3 h])⟩

/-- Outside 3-colour mode every index names one of the four levels (R276). -/
theorem ColourBlock.exists_pixel_four {m3 : Bool} {c : ColourBlock} (k : BitVec 2)
    (h : ¬(m3 = true ∧ c.a.toNat ≤ c.b.toNat)) :
    ∃ l, (levels8 (unpack565 c.a) (unpack565 c.b) .four)[k.toNat]? = some l ∧
      c.pixel m3 k = ⟨l.r, l.g, l.b, 255#8⟩ := by
  have hlt : k.toNat < (levels8 (unpack565 c.a) (unpack565 c.b) .four).length := k.isLt
  have hl := List.getElem?_eq_getElem hlt
  exact ⟨_, hl, pixel_of_level (by rwa [levels_of_not_mode3 h])⟩

/-! ### CDEC -/

theorem cdec_dpix (off : Half) (m3 : Bool) (s : State) (i : Fin 16) :
    (s.completeWith (Engine.colourDec off m3)).eng.dpix[i]
      = (ColourBlock.ofBytes (s.eng.half off)).pixel m3 (ColourBlock.ofBytes (s.eng.half off)).x[i] :=
  tab16_getElem_fin _ i

theorem cdec_sameExcept (off : Half) (m3 : Bool) (s : State) :
    SameExcept (commandWrites (.cdec off m3)) s (s.completeWith (Engine.colourDec off m3)) :=
  completeWith_dpix_sameExcept (fun e => decodeColour m3 (e.half off)) s

theorem cdec_status (off : Half) (m3 : Bool) (s : State) :
    (s.completeWith (Engine.colourDec off m3)).eng.status = { s.eng.status with done := true } := by
  rw [State.completeWith_status, Engine.colourDec_status, Status.complete]

/-- Settles O43: the endpoints and the mode are those of the decoded block, and a pixel is the level its wire index
names or, where the mode has none, transparent black. -/
theorem cdecReconstructsEveryPixel : Obligations.CdecReconstructsEveryPixel := by
  refine ⟨selects_assemble .cdec, fun off m3 s => ⟨_, (ColourBlock.ofBytes (s.eng.half off)).a,
    (ColourBlock.ofBytes (s.eng.half off)).b, _, exec_cdec off m3 s, cdec_sameExcept off m3 s, cdec_status off m3 s,
    toNat_word16 _ _, toNat_word16 _ _, Iff.rfl, fun i => ?_⟩⟩
  rw [cdec_dpix, ← ColourBlock.toNat_ofBytes_x]
  exact ⟨ColourBlock.pixel_mode3_at_three, ColourBlock.exists_pixel_mode3, ColourBlock.exists_pixel_four _⟩

end Sys2Proof.Machine

/-!
The explicit alpha block: the nibbles AENC4 packs and ADEC4 expands (R301, R303).
-/
namespace Sys2Proof.Machine

/-! ### A command that leaves `STATUS` to its completion -/

/-- A command whose effect leaves `STATUS` alone ends with `DONE` set and the other fields as they were (R92). -/
theorem completeWith_status_of_eq {f : Engine → Engine} {s : State} (h : (f s.eng).status = s.eng.status) :
    (s.completeWith f).eng.status = { s.eng.status with done := true } := by
  rw [State.completeWith_status, h, Status.complete]

/-! ### The quantiser -/

theorem quant4_lt (a : Byte) : quant4 a < 2 ^ 4 := by
  have ha := a.isLt
  rw [quant4]
  omega

/-- The quantiser takes the nearest multiple of 17, and no value lies half way between two: twice a value less an odd
multiple of 17 is odd (R301). -/
theorem quant4_nearest {a : Byte} {m : Nat} (hm : m ≠ quant4 a) :
    natDist (17 * quant4 a) a.toNat < natDist (17 * m) a.toNat := by
  unfold quant4 natDist at *
  omega

/-! ### The nibbles of a byte -/

theorem wireNibble_eq_digitLE (y : Vector Byte 8) (i : Fin 16) :
    wireNibble y i = digitLE 4 (i.val % 2) y[i.val / 2].toNat := by
  simp only [wireNibble, digitLE, Nat.pow_mul, Nat.reducePow]

theorem wireNibble_lt (y : Vector Byte 8) (i : Fin 16) : wireNibble y i < 16 := Nat.mod_lt _ (by decide)

theorem forall_mem_pair_lt {d e n : Nat} (hd : d < n) (he : e < n) : ∀ x ∈ [d, e], x < n :=
  List.forall_mem_cons.mpr ⟨hd, List.forall_mem_singleton.mpr he⟩

/-- A byte of two nibbles keeps both. -/
theorem toNat_ofNat_packLE_nibbles {d e : Nat} (hd : d < 2 ^ 4) (he : e < 2 ^ 4) :
    (BitVec.ofNat 8 (packLE 4 [d, e])).toNat = packLE 4 [d, e] := by
  have hlt : packLE 4 [d, e] < 2 ^ 8 := packLE_lt 4 [d, e] (forall_mem_pair_lt hd he)
  rw [BitVec.toNat_ofNat, Nat.mod_eq_of_lt hlt]

/-- The nibble of a pixel in the stored block is its quantised alpha (R113, R301). -/
theorem wireNibble_encodeAlpha4 (pix : Vector Pixel 16) (i : Fin 16) :
    wireNibble (encodeAlpha4 pix) i = quant4 pix[i].a := by
  rw [wireNibble_eq_digitLE, encodeAlpha4, tab8_getElem, toNat_ofNat_packLE_nibbles (quant4_lt _) (quant4_lt _),
    digitLE_packLE 4 _ (forall_mem_pair_lt (quant4_lt _) (quant4_lt _))]
  rcases Nat.mod_two_eq_zero_or_one i.val with heven | hodd
  · have hi : 2 * (i.val / 2) = i.val := by omega
    simp [heven, hi]
  · have hi : 2 * (i.val / 2) + 1 = i.val := by omega
    simp [hodd, hi]

/-- The alpha of a decoded pixel is 17 times its nibble, which a byte holds (R303). -/
theorem toNat_decodeAlpha4 (y : Vector Byte 8) (i : Fin 16) : (decodeAlpha4 y i).toNat = 17 * wireNibble y i := by
  have hlt := wireNibble_lt y i
  rw [decodeAlpha4, ← wireNibble_eq_digitLE, BitVec.toNat_ofNat, Nat.mod_eq_of_lt (by omega)]

/-! ### AENC4 -/

theorem aenc4_half (off : Half) (s : State) :
    (s.completeWith (Engine.alphaEnc4 off)).eng.half off = encodeAlpha4 s.eng.pix :=
  completeWith_setHalf_half off (fun e => encodeAlpha4 e.pix) s

theorem aenc4_sameExcept (off : Half) (s : State) :
    SameExcept (commandWrites (.aenc4 off)) s (s.completeWith (Engine.alphaEnc4 off)) :=
  completeWith_setHalf_sameExcept off (fun e => encodeAlpha4 e.pix) s

/-- Settles O46: the stored nibble of a pixel is its quantised alpha, and the quantiser takes the nearest multiple
of 17. -/
theorem aenc4StoresTheNearestNibbles : Obligations.Aenc4StoresTheNearestNibbles := by
  refine ⟨selects_assemble .aenc4, fun off s => ⟨_, exec_aenc4 off s, aenc4_sameExcept off s,
    completeWith_status_of_eq (Engine.alphaEnc4_status off s.eng), fun i => ?_⟩⟩
  rw [aenc4_half, wireNibble_encodeAlpha4]
  exact ⟨rfl, fun m hm => quant4_nearest hm⟩

/-! ### ADEC4 -/

/-- What a command that writes one channel of `DPIX` leaves in a pixel. -/
theorem completeWith_setChannel_dpix (ch : Channel) (v : Engine → Fin 16 → Byte) (s : State) (i : Fin 16) :
    (s.completeWith fun e => e.setChannel ch (v e)).eng.dpix[i] = s.eng.dpix[i].setCh ch (v s.eng i) :=
  tab16_getElem_fin _ i

/-- The frame of a command whose effect is one channel of `DPIX`. -/
theorem completeWith_setChannel_sameExcept (ch : Channel) (v : Engine → Fin 16 → Byte) (s : State) :
    SameExcept (fun r => r == .status || r.isDecoded) s (s.completeWith fun e => e.setChannel ch (v e)) :=
  completeWith_dpix_sameExcept (fun e => tab16 fun i => e.dpix[i].setCh ch (v e i)) s

theorem adec4_dpix (off : Half) (s : State) (i : Fin 16) :
    (s.completeWith (Engine.alphaDec4 off)).eng.dpix[i]
      = s.eng.dpix[i].setCh .a (decodeAlpha4 (s.eng.half off) i) :=
  completeWith_setChannel_dpix .a (fun e => decodeAlpha4 (e.half off)) s i

theorem adec4_sameExcept (off : Half) (s : State) :
    SameExcept (commandWrites (.adec4 off)) s (s.completeWith (Engine.alphaDec4 off)) :=
  completeWith_setChannel_sameExcept .a (fun e => decodeAlpha4 (e.half off)) s

/-- Settles O47: a decoded pixel takes 17 times its nibble as its alpha and nothing else. -/
theorem adec4ExpandsTheNibbles : Obligations.Adec4ExpandsTheNibbles := by
  refine ⟨selects_assemble .adec4, fun off s => ⟨_, exec_adec4 off s, adec4_sameExcept off s,
    completeWith_status_of_eq (Engine.alphaDec4_status off s.eng), fun i => ?_⟩⟩
  rw [adec4_dpix]
  exact ⟨rfl, toNat_decodeAlpha4 (s.eng.half off) i⟩

end Sys2Proof.Machine

/-!
AFIT: the ends of a channel and the level of a pixel are each the first of least error of a list, so one search says
what all three are (R307).
-/
namespace Sys2Proof.Machine

/-! ### The searches of the fit -/

theorem foldl_byteMin_eq_firstLeast (b : Byte) (xs : List Byte) :
    xs.foldl byteMin b = firstLeast BitVec.toNat b xs := by
  induction xs generalizing b with
  | nil => rfl
  | cons x xs ih =>
    rw [List.foldl_cons, ih, byteMin, firstLeast]
    split <;> rfl

/-- The largest byte is the one least far below 255. -/
theorem foldl_byteMax_eq_firstLeast (b : Byte) (xs : List Byte) :
    xs.foldl byteMax b = firstLeast (fun x : Byte => 255 - x.toNat) b xs := by
  induction xs generalizing b with
  | nil => rfl
  | cons x xs ih =>
    have hflip : b.toNat < x.toNat ↔ 255 - x.toNat < 255 - b.toNat := by
      have hx := x.isLt
      omega
    rw [List.foldl_cons, ih, byteMax, firstLeast]
    simp only [hflip]
    split <;> rfl

theorem nearestAlphaFrom_eq_firstLeast (lo hi x : Byte) (b : Nat) (ks : List Nat) :
    nearestAlphaFrom lo hi x b ks = firstLeast (alphaDist lo hi x) b ks := by
  induction ks generalizing b with
  | nil => rfl
  | cons k ks ih =>
    rw [nearestAlphaFrom, ih, firstLeast]
    split <;> rfl

/-! ### The ends -/

theorem firstLeast_getElem_zero_mem {n : Nat} (err : Byte → Nat) (x : Vector Byte (n + 1)) :
    ∃ i : Fin (n + 1), firstLeast err x[0] x.toList = x[i] := by
  rcases firstLeast_mem err x[0] x.toList with hfirst | hmem
  · exact ⟨0, hfirst⟩
  · obtain ⟨i, hi, heq⟩ := Vector.mem_iff_getElem.mp (Vector.mem_toList_iff.mp hmem)
    exact ⟨⟨i, hi⟩, heq.symm⟩

theorem exists_minByte_eq (x : Vector Byte 16) : ∃ i : Fin 16, minByte x = x[i] := by
  rw [minByte, foldl_byteMin_eq_firstLeast]
  exact firstLeast_getElem_zero_mem _ x

theorem exists_maxByte_eq (x : Vector Byte 16) : ∃ i : Fin 16, maxByte x = x[i] := by
  rw [maxByte, foldl_byteMax_eq_firstLeast]
  exact firstLeast_getElem_zero_mem _ x

theorem minByte_le (x : Vector Byte 16) (i : Fin 16) : (minByte x).toNat ≤ x[i].toNat := by
  rw [minByte, foldl_byteMin_eq_firstLeast]
  exact (firstLeast_le BitVec.toNat x[0] x.toList).2 x[i] (by simp)

theorem le_maxByte (x : Vector Byte 16) (i : Fin 16) : x[i].toNat ≤ (maxByte x).toNat := by
  rw [maxByte, foldl_byteMax_eq_firstLeast]
  have hleast := (firstLeast_le (fun x : Byte => 255 - x.toNat) x[0] x.toList).2 x[i] (by simp)
  have hi := x[i].isLt
  omega

/-! ### The level of a value -/

theorem alphaDist_eq_natDist (lo hi x : Byte) (k : Nat) :
    alphaDist lo hi x k = natDist x.toNat (linearLevel lo hi k) := rfl

/-- The levels in the order of R307. -/
theorem nearestAlpha_eq_firstLeast (lo hi x : Byte) :
    nearestAlpha lo hi x = firstLeast (alphaDist lo hi x) 0 [1, 2, 3, 4, 5, 6, 7] :=
  nearestAlphaFrom_eq_firstLeast lo hi x 0 _

theorem nearestAlpha_lt (lo hi x : Byte) : nearestAlpha lo hi x < 8 := by
  rw [nearestAlpha_eq_firstLeast]
  rcases firstLeast_mem (alphaDist lo hi x) 0 [1, 2, 3, 4, 5, 6, 7] with hzero | hmem
  · omega
  · simp only [List.mem_cons, List.not_mem_nil, or_false] at hmem
    omega

theorem mem_levels_of_lt {k : Nat} (hk : k < 8) : k ∈ [0, 1, 2, 3, 4, 5, 6, 7] := List.mem_range.mpr hk

theorem alphaDist_nearestAlpha_le (lo hi x : Byte) {k : Nat} (hk : k < 8) :
    alphaDist lo hi x (nearestAlpha lo hi x) ≤ alphaDist lo hi x k := by
  rw [nearestAlpha_eq_firstLeast]
  obtain ⟨hzero, hrest⟩ := firstLeast_le (alphaDist lo hi x) 0 [1, 2, 3, 4, 5, 6, 7]
  rcases List.mem_cons.mp (mem_levels_of_lt hk) with rfl | hmem
  · exact hzero
  · exact hrest k hmem

/-- A level below the one taken is strictly farther: of equally near levels the lowest is taken (R307). -/
theorem alphaDist_nearestAlpha_lt {lo hi x : Byte} {k : Nat} (hk : k < nearestAlpha lo hi x) :
    alphaDist lo hi x (nearestAlpha lo hi x) < alphaDist lo hi x k := by
  have hmem : k ∈ [0, 1, 2, 3, 4, 5, 6, 7] := mem_levels_of_lt (hk.trans (nearestAlpha_lt lo hi x))
  rw [nearestAlpha_eq_firstLeast] at hk ⊢
  exact firstLeast_lt_of_key_lt (key := id) (by decide) k hmem hk

/-! ### AFIT -/

theorem Engine.channel_getElem (e : Engine) (ch : Channel) (i : Fin 16) : (e.channel ch)[i] = e.pix[i].ch ch :=
  tab16_getElem_fin _ i

theorem alphaFit_lo (x : Vector Byte 16) : (alphaFit x).lo = minByte x := rfl

theorem alphaFit_hi (x : Vector Byte 16) : (alphaFit x).hi = maxByte x := rfl

theorem toNat_alphaFit_k (x : Vector Byte 16) (i : Fin 16) :
    ((alphaFit x).k[i]).toNat = nearestAlpha (minByte x) (maxByte x) x[i] := by
  have hlt := nearestAlpha_lt (minByte x) (maxByte x) x[i]
  simp only [alphaFit, tab16_getElem_fin, BitVec.toNat_ofNat]
  exact Nat.mod_eq_of_lt hlt

/-- What writes the status and the alpha-fit registers alone leaves every other register (R21). -/
theorem Engine.readReg_of_status_af (e : Engine) (st : Status) (af : AlphaRegs) {r : Reg} (hst : r ≠ .status)
    (haf : r.isAlphaFit = false) : ({ e with status := st, af := af } : Engine).readReg r = e.readReg r := by
  cases r with
  | status => exact absurd rfl hst
  | afEnd | afK0 | afK1 => cases haf
  | _ => rfl

theorem afit_sameExcept (ch : Channel) (s : State) :
    SameExcept (commandWrites (.afit ch)) s (s.completeWith (Engine.alphaFitCh ch)) := by
  refine ⟨rfl, rfl, fun r hr => ?_⟩
  obtain ⟨hst, haf⟩ := Bool.or_eq_false_iff.mp hr
  rw [State.completeWith, Engine.alphaFitCh]
  exact s.eng.readReg_of_status_af s.eng.status.complete _ (by simpa using hst) haf

/-- Settles O49: the ends are the least and the largest value of the channel, and the level of a pixel is the first of
least distance in the ascending order of the levels. -/
theorem afitTakesTheNearestLinearLevels : Obligations.AfitTakesTheNearestLinearLevels := by
  refine ⟨selects_assemble .afit, fun ch s => ⟨_, exec_afit ch s, afit_sameExcept ch s,
    completeWith_status_of_eq (Engine.alphaFitCh_status ch s.eng), ?_⟩⟩
  rw [State.completeWith_af, Engine.alphaFitCh_af]
  simp only [← Engine.channel_getElem, toNat_alphaFit_k, alphaFit_lo, alphaFit_hi, ← alphaDist_eq_natDist]
  exact ⟨fun i => ⟨minByte_le _ i, le_maxByte _ i⟩, exists_minByte_eq _, exists_maxByte_eq _,
    fun i k hk => ⟨alphaDist_nearestAlpha_le _ _ _ hk, alphaDist_nearestAlpha_lt⟩⟩

end Sys2Proof.Machine

/-!
The interpolated alpha block: the 48-bit integer of the wire indices, what AENC8 packs into it and which code ADEC8
reads through it (R310, R312, R313).
-/
namespace Sys2Proof.Machine

/-! ### The 48-bit integer -/

/-- The six index bytes, the first one lowest, are the integer of the wire indices (R115). -/
theorem alphaWire_eq_wireIndex3 (y : Vector Byte 8) (i : Fin 16) : alphaWire y i = wireIndex3 y i := by
  have hint : packLE 8 [y[2].toNat, y[3].toNat, y[4].toNat, y[5].toNat, y[6].toNat, y[7].toNat]
      = y[2].toNat + 2 ^ 8 * y[3].toNat + 2 ^ 16 * y[4].toNat + 2 ^ 24 * y[5].toNat + 2 ^ 32 * y[6].toNat
        + 2 ^ 40 * y[7].toNat := by
    simp only [packLE]
    omega
  rw [alphaWire, hint, digitLE, Nat.pow_mul]
  rfl

theorem wireIndex3_lt (y : Vector Byte 8) (i : Fin 16) : wireIndex3 y i < 8 := Nat.mod_lt _ (by decide)

/-! ### AENC8 -/

theorem wireOfLevel_lt (k : BitVec 3) : wireOfLevel k < 2 ^ 3 := by
  revert k
  decide

theorem forall_mem_wires_lt (k : Vector (BitVec 3) 16) : ∀ d ∈ k.toList.map wireOfLevel, d < 2 ^ 3 := by
  intro d hd
  obtain ⟨x, -, rfl⟩ := List.mem_map.mp hd
  exact wireOfLevel_lt x

theorem alphaBits_lt (k : Vector (BitVec 3) 16) : alphaBits k < 2 ^ 48 := by
  have hlt := packLE_lt 3 _ (forall_mem_wires_lt k)
  rwa [List.length_map, Vector.length_toList] at hlt

/-- The wire index of a pixel is its digit of the integer. -/
theorem digitLE_alphaBits (k : Vector (BitVec 3) 16) (i : Fin 16) : digitLE 3 i (alphaBits k) = wireOfLevel k[i] := by
  rw [alphaBits, digitLE_packLE 3 _ (forall_mem_wires_lt k), List.getD_eq_getElem _ _ (by simp)]
  simp

/-- A digit in base 256 fits a byte. -/
theorem toNat_ofNat_digitLE_eight (j n : Nat) : (BitVec.ofNat 8 (digitLE 8 j n)).toNat = digitLE 8 j n := by
  rw [BitVec.toNat_ofNat, digitLE, Nat.mod_mod]

/-- The six index bytes of the stored block pack back to the integer. -/
theorem packLE_encodeAlpha8 (f : AlphaRegs) :
    packLE 8 [(encodeAlpha8 f)[2].toNat, (encodeAlpha8 f)[3].toNat, (encodeAlpha8 f)[4].toNat,
      (encodeAlpha8 f)[5].toNat, (encodeAlpha8 f)[6].toNat, (encodeAlpha8 f)[7].toNat] = alphaBits f.k := by
  have hdigits : [(encodeAlpha8 f)[2].toNat, (encodeAlpha8 f)[3].toNat, (encodeAlpha8 f)[4].toNat,
      (encodeAlpha8 f)[5].toNat, (encodeAlpha8 f)[6].toNat, (encodeAlpha8 f)[7].toNat]
      = (List.range 6).map fun j => digitLE 8 j (alphaBits f.k) := by
    simp [encodeAlpha8, toNat_ofNat_digitLE_eight, List.range_succ, -BitVec.toNat_ofNat]
  rw [hdigits, packLE_digits, Nat.mod_eq_of_lt (alphaBits_lt f.k)]

/-- The wire index of a pixel in the stored block is its remapped level (R310). -/
theorem wireIndex3_encodeAlpha8 (f : AlphaRegs) (i : Fin 16) :
    wireIndex3 (encodeAlpha8 f) i = wireOfLevel f.k[i] := by
  rw [← alphaWire_eq_wireIndex3, alphaWire, packLE_encodeAlpha8, digitLE_alphaBits]

theorem aenc8_half (off : Half) (s : State) :
    (s.completeWith (Engine.alphaEnc8 off)).eng.half off = encodeAlpha8 s.eng.af :=
  completeWith_setHalf_half off (fun e => encodeAlpha8 e.af) s

theorem aenc8_sameExcept (off : Half) (s : State) :
    SameExcept (commandWrites (.aenc8 off)) s (s.completeWith (Engine.alphaEnc8 off)) :=
  completeWith_setHalf_sameExcept off (fun e => encodeAlpha8 e.af) s

/-- Settles O50: the stored half begins with the two ends, the larger one first, and its 48-bit integer has the remapped
levels as digits. -/
theorem aenc8PacksTheWireIndices : Obligations.Aenc8PacksTheWireIndices := by
  refine ⟨selects_assemble .aenc8, fun off s => ⟨_, exec_aenc8 off s, aenc8_sameExcept off s,
    completeWith_status_of_eq (Engine.alphaEnc8_status off s.eng), ?_⟩⟩
  rw [aenc8_half]
  exact ⟨rfl, rfl, wireIndex3_encodeAlpha8 s.eng.af⟩

/-! ### ADEC8 -/

/-- A truncated weighted mean of two bytes is a byte. -/
theorem weightedMean_lt (a b : Byte) {p q n : Nat} (hsum : p + q = n) (hpos : 0 < n) :
    (p * a.toNat + q * b.toNat) / n < 2 ^ 8 := by
  have hbound : p * a.toNat + q * b.toNat ≤ n * 255 :=
    calc p * a.toNat + q * b.toNat ≤ p * 255 + q * 255 :=
          Nat.add_le_add (Nat.mul_le_mul_left p (Nat.le_of_lt_succ a.isLt))
            (Nat.mul_le_mul_left q (Nat.le_of_lt_succ b.isLt))
      _ = n * 255 := by rw [← Nat.add_mul, hsum]
  exact (Nat.div_lt_iff_lt_mul hpos).mpr (by omega)

/-- The code a wire index selects, which a byte holds in either scheme (R312). -/
theorem toNat_alphaCode (a0 a1 : Byte) {w : Nat} (hw : w < 8) :
    (alphaCode a0 a1 w).toNat = wireCode a0.toNat a1.toNat w := by
  unfold alphaCode wireCode
  by_cases h0 : w = 0
  · rw [if_pos h0, if_pos h0]
  by_cases h1 : w = 1
  · simp [h1]
  rw [if_neg h0, if_neg h1, if_neg h0, if_neg h1]
  by_cases hscheme : a1.toNat < a0.toNat
  · rw [if_pos hscheme, if_pos hscheme, BitVec.toNat_ofNat,
      Nat.mod_eq_of_lt (weightedMean_lt a0 a1 (by omega) (by decide))]
  rw [if_neg hscheme, if_neg hscheme]
  by_cases h6 : w = 6
  · simp [h6]
  by_cases h7 : w = 7
  · simp [h7]
  rw [if_neg h6, if_neg h7, if_neg h6, if_neg h7, BitVec.toNat_ofNat,
    Nat.mod_eq_of_lt (weightedMean_lt a0 a1 (by omega) (by decide))]

theorem toNat_decodeAlpha8 (y : Vector Byte 8) (i : Fin 16) :
    (decodeAlpha8 y i).toNat = wireCode y[0].toNat y[1].toNat (wireIndex3 y i) := by
  rw [decodeAlpha8, alphaWire_eq_wireIndex3, toNat_alphaCode _ _ (wireIndex3_lt y i)]

theorem adec8_dpix (off : Half) (ch : Channel) (s : State) (i : Fin 16) :
    (s.completeWith (Engine.alphaDec8 off ch)).eng.dpix[i]
      = s.eng.dpix[i].setCh ch (decodeAlpha8 (s.eng.half off) i) :=
  completeWith_setChannel_dpix ch (fun e => decodeAlpha8 (e.half off)) s i

theorem adec8_sameExcept (off : Half) (ch : Channel) (s : State) :
    SameExcept (commandWrites (.adec8 off ch)) s (s.completeWith (Engine.alphaDec8 off ch)) :=
  completeWith_setChannel_sameExcept ch (fun e => decodeAlpha8 (e.half off)) s

/-- Settles O51: a decoded pixel takes the code its wire index selects in the channel of the command and keeps the
others. -/
theorem adec8InterpolatesTheCodes : Obligations.Adec8InterpolatesTheCodes := by
  refine ⟨selects_assemble .adec8, fun off ch s => ⟨_, exec_adec8 off ch s, adec8_sameExcept off ch s,
    completeWith_status_of_eq (Engine.alphaDec8_status off ch s.eng), fun i => ?_⟩⟩
  rw [adec8_dpix]
  refine ⟨fun c hc => ?_, ?_⟩
  · rw [Pixel.ch_setCh, if_neg hc]
  · rw [Pixel.ch_setCh, if_pos rfl, toNat_decodeAlpha8]

end Sys2Proof.Machine

/-!
DECOMPRESS as a script: `DONE` set between two decoding commands is `DONE` set after the last, so the commands of R350,
one after the other, end where the composed effect ends.
-/
namespace Sys2Proof.Machine

/-! ### Commands one after the other -/

@[simp] theorem runAll_nil (s : State) : runAll [] s = .next s := rfl

theorem runAll_cons_of_next {i : Instr} {s t : State} (h : exec i s = .next t) (is : List Instr) :
    runAll (i :: is) s = runAll is t := by
  rw [runAll, h, andThen]

/-- The engine with `DONE` set, as every command but SRESET leaves it when it completes (R92 step 4). -/
def Engine.completed (e : Engine) : Engine := { e with status := e.status.complete }

theorem State.completeWith_eq (f : Engine → Engine) (s : State) :
    s.completeWith f = { s with eng := (f s.eng).completed } := rfl

@[simp] theorem Engine.completed_completed (e : Engine) : e.completed.completed = e.completed := rfl

/-- Two commands complete as their composed effect does, when the second effect neither reads nor writes `DONE`. -/
theorem completeWith_completeWith {f g : Engine → Engine} (hg : ∀ e, g e.completed = (g e).completed) (s : State) :
    (s.completeWith f).completeWith g = s.completeWith fun e => g (f e) := by
  simp only [State.completeWith_eq, hg, Engine.completed_completed]

/-! ### The decoding effects -/

theorem Engine.setChannel_completed (ch : Channel) (v : Fin 16 → Byte) (e : Engine) :
    e.completed.setChannel ch v = (e.setChannel ch v).completed := rfl

theorem Engine.half_completed (off : Half) (e : Engine) : e.completed.half off = e.half off :=
  Engine.half_congr rfl off

theorem Engine.alphaDec4_completed (off : Half) (e : Engine) :
    e.completed.alphaDec4 off = (e.alphaDec4 off).completed := by
  rw [Engine.alphaDec4, Engine.half_completed, Engine.setChannel_completed, Engine.alphaDec4]

theorem Engine.alphaDec8_completed (off : Half) (ch : Channel) (e : Engine) :
    e.completed.alphaDec8 off ch = (e.alphaDec8 off ch).completed := by
  rw [Engine.alphaDec8, Engine.half_completed, Engine.setChannel_completed, Engine.alphaDec8]

theorem State.blackened_eq (s : State) : s.blackened = { s with eng := s.eng.fillOpaqueBlack } := rfl

/-- A command after the opaque black of R350 completes as one effect. -/
theorem completeWith_blackened (f : Engine → Engine) (s : State) :
    s.blackened.completeWith f = s.completeWith fun e => f e.fillOpaqueBlack := by
  rw [State.blackened_eq]
  rfl

/-! ### DECOMPRESS -/

/-- The component commands of a format leave what the effect of DECOMPRESS leaves (R350). -/
theorem decompressScript_eq (f : Format) (s : State) :
    decompressScript f s = .next (s.completeWith (Engine.decompressBlock f)) := by
  cases f with
  | bc1 =>
    rw [decompressScript, runAll_cons_of_next (exec_cdec .lower true s), runAll_nil]
    rfl
  | bc2 =>
    rw [decompressScript, runAll_cons_of_next (exec_cdec .upper false s),
      runAll_cons_of_next (exec_adec4 .lower _), runAll_nil,
      completeWith_completeWith (Engine.alphaDec4_completed .lower)]
    rfl
  | bc3 =>
    rw [decompressScript, runAll_cons_of_next (exec_cdec .upper false s),
      runAll_cons_of_next (exec_adec8 .lower .a _), runAll_nil,
      completeWith_completeWith (Engine.alphaDec8_completed .lower .a)]
    rfl
  | bc4 =>
    rw [decompressScript, runAll_cons_of_next (exec_adec8 .lower .r s.blackened), runAll_nil,
      completeWith_blackened]
    rfl
  | bc5 =>
    rw [decompressScript, runAll_cons_of_next (exec_adec8 .lower .r s.blackened),
      runAll_cons_of_next (exec_adec8 .upper .g _), runAll_nil,
      completeWith_completeWith (Engine.alphaDec8_completed .upper .g), completeWith_blackened]
    rfl

/-- Settles O56: a reserved format and a wrong length raise in the state as it was; otherwise the command completes the
effect its component commands add up to. -/
theorem decompressEqualsItsComponentCommands : Obligations.DecompressEqualsItsComponentCommands :=
  ⟨selects_assemble .decompress, exec_decompress_reserved, exec_decompress_badLength,
    fun f s hlen => ⟨_, exec_decompress_supported f s hlen, decompressScript_eq f s⟩⟩

end Sys2Proof.Machine

/-!
The block COMPRESS writes, in closed form: the fit registers are a function of the colour set, the colour set and the
alpha fit are functions of `PIX`, so each half of `CBLK` is a function of `PIX` and the command (R342, R346).
-/
namespace Sys2Proof.Machine

/-! ### The fit of a colour set -/

/-- The fit registers a fit result is committed as (R223). -/
def FitCore.regs (c : FitCore) (cs : ColourSet) (lv : Levels) : FitRegs :=
  ⟨grid c.qa, grid c.qb, spread cs c.eidx, lv, c.err⟩

/-- The fit registers after the fit R344 chooses for a colour set. -/
def dispatchedFit (lv : Levels) (fit : FitQuality) (met : Metric) (pt : Bool) (ro : Nat) (cs : ColourSet) : FitRegs :=
  if cs.count.val = 1 then singleFit cs lv (metricVec met) (scBest lv (metricVec met) cs.rgb[0])
  else if fit = .rangeFit ∨ cs.count.val = 0 then (rangeFitCore cs lv (metricVec met)).regs cs lv
  else (clusterFitCore cs lv (metricVec met) pt ro).regs cs lv

/-- FITSINGLE runs only where it is applicable, so no fit register keeps its old value (R344). -/
theorem Engine.fitDispatch_fit (lv : Levels) (fit : FitQuality) (met : Metric) (pt : Bool) (ro : Nat) (e : Engine) :
    (e.fitDispatch lv fit met pt ro).fit = dispatchedFit lv fit met pt ro e.cs := by
  unfold Engine.fitDispatch dispatchedFit
  split
  next hone => rw [Engine.fitSingle_of_count_eq_one hone]
  next =>
    split
    next => exact Engine.fitRange_fit lv met e
    next => exact Engine.fitCluster_fit lv met pt ro e

theorem Engine.fitDispatch_cblk (lv : Levels) (fit : FitQuality) (met : Metric) (pt : Bool) (ro : Nat) (e : Engine) :
    (e.fitDispatch lv fit met pt ro).cblk = e.cblk := by
  unfold Engine.fitDispatch
  split
  next hone => rw [Engine.fitSingle_of_count_eq_one hone]
  next =>
    split
    next => exact Engine.fitRange_cblk lv met e
    next => exact Engine.fitCluster_cblk lv met pt ro e

/-! ### The halves after each part of COMPRESS -/

/-- The colour bytes of a block of pixels. -/
def colourBytes (lv : Levels) (fit : FitQuality) (met : Metric) (pt wa : Bool) (ro : Nat) (pix : Vector Pixel 16) :
    Vector Byte 8 :=
  encodeColour (dispatchedFit lv fit met pt ro (buildSet pt wa pix))

/-- The interpolated bytes of one channel of a block of pixels. -/
def channelBytes (ch : Channel) (pix : Vector Pixel 16) : Vector Byte 8 :=
  encodeAlpha8 (alphaFit (tab16 fun i => pix[i].ch ch))

theorem Engine.half_colourPart (lv : Levels) (fit : FitQuality) (met : Metric) (pt wa : Bool) (ro : Nat)
    (off g : Half) (e : Engine) :
    (e.colourPart lv fit met pt wa ro off).half g
      = if g = off then colourBytes lv fit met pt wa ro e.pix else e.half g := by
  have hkept : ((e.csBuild pt wa).fitDispatch lv fit met pt ro).half g = e.half g :=
    Engine.half_congr ((Engine.fitDispatch_cblk lv fit met pt ro _).trans (Engine.csBuild_cblk pt wa e)) g
  rw [Engine.colourPart, Engine.colourEnc, Engine.half_setHalf, hkept, Engine.fitDispatch_fit, Engine.csBuild_cs,
    colourBytes]

theorem Engine.half_alphaPart (ch : Channel) (off g : Half) (e : Engine) :
    (e.alphaPart ch off).half g = if g = off then channelBytes ch e.pix else e.half g := by
  have hkept : (e.alphaFitCh ch).half g = e.half g := Engine.half_congr (Engine.alphaFitCh_cblk ch e) g
  rw [Engine.alphaPart, Engine.alphaEnc8, Engine.half_setHalf, hkept, Engine.alphaFitCh_af, Engine.channel,
    channelBytes]

theorem Engine.half_alphaEnc4 (off g : Half) (e : Engine) :
    (e.alphaEnc4 off).half g = if g = off then encodeAlpha4 e.pix else e.half g :=
  Engine.half_setHalf off g _ e

theorem Engine.half_clearUpper (g : Half) (e : Engine) :
    e.clearUpper.half g = if g = .upper then Vector.replicate 8 0 else e.half g :=
  Engine.half_setHalf .upper g _ e

theorem Engine.half_setLen (n : Nat) (g : Half) (e : Engine) : (e.setLen n).half g = e.half g :=
  Engine.half_congr (Engine.setLen_cblk n e) g

/-! ### The compressed block -/

/-- A half of the block COMPRESS writes (R342, R345), the upper one zero for the 8-byte formats (R346). -/
def compressedHalf (f : Format) (fit : FitQuality) (met : Metric) (pt wa : Bool) (ro : Nat) (pix : Vector Pixel 16) :
    Half → Vector Byte 8
  | .lower =>
    match f with
    | .bc1 => colourBytes (levelsOfPt pt) fit met pt wa ro pix
    | .bc2 => encodeAlpha4 pix
    | .bc3 => channelBytes .a pix
    | .bc4 => channelBytes .r pix
    | .bc5 => channelBytes .r pix
  | .upper =>
    match f with
    | .bc1 => Vector.replicate 8 0
    | .bc2 => colourBytes .four fit met false wa ro pix
    | .bc3 => colourBytes .four fit met false wa ro pix
    | .bc4 => Vector.replicate 8 0
    | .bc5 => channelBytes .g pix

theorem Engine.half_compressBlock (f : Format) (fit : FitQuality) (met : Metric) (pt wa : Bool) (ro : Nat) (g : Half)
    (e : Engine) :
    (e.compressBlock f fit met pt wa ro).half g = compressedHalf f fit met pt wa ro e.pix g := by
  cases f with
  | bc1 =>
    rw [Engine.compressBlock, Engine.half_setLen, Engine.half_clearUpper, Engine.half_colourPart]
    cases g <;> rfl
  | bc2 =>
    rw [Engine.compressBlock, Engine.half_setLen, Engine.half_colourPart, Engine.half_alphaEnc4,
      Engine.alphaEnc4_pix]
    cases g <;> rfl
  | bc3 =>
    rw [Engine.compressBlock, Engine.half_setLen, Engine.half_colourPart, Engine.half_alphaPart,
      Engine.alphaPart_pix]
    cases g <;> rfl
  | bc4 =>
    rw [Engine.compressBlock, Engine.half_setLen, Engine.half_clearUpper, Engine.half_alphaPart]
    cases g <;> rfl
  | bc5 =>
    rw [Engine.compressBlock, Engine.half_setLen, Engine.half_alphaPart, Engine.half_alphaPart,
      Engine.alphaPart_pix]
    cases g <;> rfl

/-- The block COMPRESS leaves is that of any engine with the same pixels. -/
theorem Engine.compressBlock_cblk_congr {e e' : Engine} (hpix : e.pix = e'.pix) (f : Format) (fit : FitQuality)
    (met : Metric) (pt wa : Bool) (ro : Nat) :
    (e.compressBlock f fit met pt wa ro).cblk = (e'.compressBlock f fit met pt wa ro).cblk := by
  have hhalf (g : Half) :
      (e.compressBlock f fit met pt wa ro).half g = (e'.compressBlock f fit met pt wa ro).half g := by
    rw [Engine.half_compressBlock, Engine.half_compressBlock, hpix]
  exact Engine.cblk_ext (hhalf .lower) (hhalf .upper)

theorem Engine.compressBlock_clen (f : Format) (fit : FitQuality) (met : Metric) (pt wa : Bool) (ro : Nat)
    (e : Engine) : (e.compressBlock f fit met pt wa ro).clen = BitVec.ofNat 5 (blockSize f) := by
  cases f <;> exact Engine.setLen_clen _ _

/-- A length register holds either block length. -/
theorem toNat_ofNat_blockSize (f : Format) : (BitVec.ofNat 5 (blockSize f)).toNat = blockSize f := by
  cases f <;> rfl

theorem compressedHalf_upper_of_blockSize_eq_eight {f : Format} (h : blockSize f = 8) (fit : FitQuality)
    (met : Metric) (pt wa : Bool) (ro : Nat) (pix : Vector Pixel 16) :
    compressedHalf f fit met pt wa ro pix .upper = Vector.replicate 8 0 := by
  cases f with
  | bc1 | bc4 => rfl
  | bc2 | bc3 | bc5 => cases h

/-- A byte of the block from number 8 on is a byte of the upper half (R26). -/
theorem Engine.cblk_getElem_of_le (e : Engine) (k : Fin 16) (hk : 8 ≤ k.val) :
    e.cblk[k] = (e.half .upper)[k.val - 8] := by
  have hsum : 8 + (k.val - 8) = k.val := by omega
  simp [Engine.half, hsum]

theorem Engine.compressBlock_cblk_upper {f : Format} (h : blockSize f = 8) (fit : FitQuality) (met : Metric)
    (pt wa : Bool) (ro : Nat) (e : Engine) (k : Fin 16) (hk : 8 ≤ k.val) :
    (e.compressBlock f fit met pt wa ro).cblk[k] = 0#8 := by
  simp only [Engine.cblk_getElem_of_le _ k hk, Engine.half_compressBlock,
    compressedHalf_upper_of_blockSize_eq_eight h, Vector.getElem_replicate]
  rfl

/-- Settles O54: both halves of the block are functions of the pixels and the command, the length is that of the format,
and the upper half of an 8-byte block is zero. -/
theorem compressedBlockDependsOnPixAlone : Obligations.CompressedBlockDependsOnPixAlone := by
  intro f fit met pt wa ro s s' hpix
  refine ⟨_, _, exec_compress_supported f fit met pt wa ro s, exec_compress_supported f fit met pt wa ro s', ?_⟩
  simp only [State.completeWith_cblk, State.completeWith_clen, Engine.compressBlock_clen, toNat_ofNat_blockSize]
  refine ⟨Engine.compressBlock_cblk_congr hpix f fit met pt wa ro, ?_,
    fun hlen => Engine.compressBlock_cblk_upper hlen fit met pt wa ro s.eng⟩
  cases f <;> rfl

end Sys2Proof.Machine

/-!
The system commands: NOP, CLRERR and SRESET read no field but the opcode, and a reserved bit turns each of them into an
illegal word that has none of its effect (R92, R370 to R372).
-/
namespace Sys2Proof.Machine

/-! ### A word with a reserved bit set -/

theorem decode_reservedBits {w : Word} (h : w.extractLsb' 24 8 ≠ 0#8) : decode w = .error .reservedBits :=
  if_pos h

/-- Reserved bits are checked before the opcode, so the command the word names has no effect (R92 step 1). -/
theorem step_reservedBits {s : State} {w : Word} {rest : List HostEvent} (hp : s.pending = .write 0x000 32 w :: rest)
    (h : w.extractLsb' 24 8 ≠ 0#8) : step s = .next ((s.answered rest .ok).raise .illegalCommand) :=
  step_illegal hp (decode_reservedBits h)

/-! ### The state after SRESET -/

theorem blockSize_pos (f : Format) : 0 < blockSize f := by cases f <;> decide

/-- The reset engine holds no block: its length register is 0, which is the size of no format (R118, R440). -/
theorem Engine.reset_clen_ne_blockSize (f : Format) : Engine.reset.clen.toNat ≠ blockSize f :=
  (blockSize_pos f).ne

/-! ### The three commands -/

/-- Settles O22: NOP completes with no effect of its own, whatever the fields of its word. -/
theorem nopSetsOnlyDone : Obligations.NopSetsOnlyDone :=
  ⟨exec_nop, selects_assemble .nop, fun _ _ _ hp _ hrsv => step_reservedBits hp hrsv⟩

/-- Settles O23: CLRERR completes with `ERR` and `CODE` cleared and `SNA` as it was. -/
theorem clrerrClearsTheRecord : Obligations.ClrerrClearsTheRecord :=
  ⟨exec_clrerr, selects_assemble .clrerr, fun _ _ _ hp _ hrsv => step_reservedBits hp hrsv⟩

/-- Settles O24: SRESET leaves the reset engine, whose length register matches no format. -/
theorem sresetGivesTheResetEngine : Obligations.SresetGivesTheResetEngine :=
  ⟨exec_sreset, selects_assemble .sreset,
    fun s f => exec_decompress_badLength f { s with eng := Engine.reset } (Engine.reset_clen_ne_blockSize f),
    fun _ _ _ hp _ hrsv => step_reservedBits hp hrsv⟩

end Sys2Proof.Machine

/-!
Errors: what `raise` records and leaves (R410), and the order in which the causes of one command word are found (R413).
-/
namespace Sys2Proof.Machine

/-! ### Raising -/

theorem Status.raise_code_of_clear {st : Status} (h : st.err = false) (k : ErrorKind) : (st.raise k).code = k.code :=
  if_neg (Bool.eq_false_iff.mp h)

theorem Status.raise_code_of_err {st : Status} (h : st.err = true) (k : ErrorKind) : (st.raise k).code = st.code :=
  if_pos h

theorem Engine.readReg_raise {r : Reg} (h : r ≠ .status) (k : ErrorKind) (e : Engine) :
    (e.raise k).readReg r = e.readReg r := by
  cases r with
  | status => exact absurd rfl h
  | _ => rfl

theorem State.raise_sameExcept (k : ErrorKind) (s : State) : SameExcept (fun r => r == .status) s (s.raise k) :=
  ⟨rfl, rfl, fun _ hr => Engine.readReg_raise (beq_eq_false_iff_ne.mp hr) k s.eng⟩

/-- Settles O16: a raise touches `STATUS` alone, and there `CODE` only while `ERR` was clear. -/
theorem raiseRecordsTheFirstError : Obligations.RaiseRecordsTheFirstError := fun k s =>
  ⟨rfl, rfl, rfl, fun hclear => Status.raise_code_of_clear hclear k, fun herr => Status.raise_code_of_err herr k,
    s.raise_sameExcept k⟩

/-! ### Which command a word carries -/

/-- The rows are told apart by their bytes (R96). -/
theorem Opcode.eq_iff_code_eq {op op' : Opcode} : op = op' ↔ op.code = op'.code := by
  refine ⟨congrArg Opcode.code, fun h => Option.some.inj ?_⟩
  rw [← op.ofByte_code, ← op'.ofByte_code, h]

theorem exists_decode_error_of_illegal {w : Word} (h : w.extractLsb' 24 8 ≠ 0#8 ∨ w.extractLsb' 0 8 ∉ opcodeBytes) :
    ∃ x, decode w = .error x := by
  cases hd : decode w with
  | error x => exact ⟨x, rfl⟩
  | ok i =>
    obtain ⟨hrsv, hop⟩ := (exists_decode_eq_ok_iff w).mp ⟨i, hd⟩
    exact absurd h (not_or_intro (not_not_intro hrsv) (not_not_intro hop))

/-- A legal word carries the byte of a row and decodes to the row's instruction (R92). -/
theorem exists_opcode_of_legal {w : Word} (h : ¬(w.extractLsb' 24 8 ≠ 0#8 ∨ w.extractLsb' 0 8 ∉ opcodeBytes)) :
    ∃ op : Opcode, w.extractLsb' 0 8 = op.code ∧ decode w = .ok (assemble op (Fields.ofWord w)) := by
  obtain ⟨hrsv, hlisted⟩ := not_or.mp h
  obtain ⟨op, hop⟩ := (Opcode.exists_ofByte_iff _).mpr (not_not.mp hlisted)
  have hcode : w.extractLsb' 0 8 = op.code := (Opcode.code_of_ofByte hop).symm
  exact ⟨op, hcode, selects_assemble op w hcode (not_not.mp hrsv)⟩

theorem assemble_eq_sreset_iff {op : Opcode} {f : Fields} : assemble op f = .sreset ↔ op = .sreset := by
  cases op <;> simp [assemble]

/-! ### The format field -/

/-- The block size by the value of `FMT`: 8 bytes for BC1 and BC4, else 16 (R91, R118). -/
def fieldBlockSize (v : BitVec 3) : Nat := if v = 0#3 ∨ v = 3#3 then 8 else 16

theorem fieldBlockSize_eq (v : BitVec 3) : fieldBlockSize v = if v = 0#3 ∨ v = 3#3 then 8 else 16 := rfl

theorem fmtOfField_reserved {v : BitVec 3} (h : 4 < v.toNat) : fmtOfField v = .reserved v.toNat := by
  have hv : v = 5#3 ∨ v = 6#3 ∨ v = 7#3 := by bv_omega
  rcases hv with rfl | rfl | rfl <;> rfl

theorem fmtOfField_supported {v : BitVec 3} (h : ¬4 < v.toNat) :
    ∃ f, fmtOfField v = .supported f ∧ blockSize f = fieldBlockSize v := by
  have hv : v = 0#3 ∨ v = 1#3 ∨ v = 2#3 ∨ v = 3#3 ∨ v = 4#3 := by bv_omega
  rcases hv with rfl | rfl | rfl | rfl | rfl <;> exact ⟨_, rfl, rfl⟩

/-! ### The causes after decoding -/

/-- A reserved format is found first, whatever the length (R413 (3)). -/
theorem raisesIn_assemble_badFormat {op : Opcode} {f : Fields} (hop : op = .compress ∨ op = .decompress)
    (hfmt : 4 < f.fmt.toNat) (s : State) : raisesIn (assemble op f) s = some .unsupportedFormat := by
  rcases hop with rfl | rfl <;> simp only [assemble, fmtOfField_reserved hfmt, raisesIn]

/-- With a supported format DECOMPRESS checks the length, and raises nothing else (R413 (4)). -/
theorem raisesIn_assemble_decompress {f : Fields} (hfmt : ¬4 < f.fmt.toNat) (s : State) :
    raisesIn (assemble .decompress f) s
      = if s.eng.clen.toNat = fieldBlockSize f.fmt then none else some .invalidBlockLength := by
  obtain ⟨fmt, hsup, hsize⟩ := fmtOfField_supported hfmt
  simp only [assemble, hsup, raisesIn, hsize]

theorem raisesIn_assemble_none {op : Opcode} {f : Fields} {s : State}
    (hfmt : ¬((op = .compress ∨ op = .decompress) ∧ 4 < f.fmt.toNat))
    (hlen : ¬(op = .decompress ∧ s.eng.clen.toNat ≠ fieldBlockSize f.fmt)) : raisesIn (assemble op f) s = none := by
  cases op with
  | compress =>
    obtain ⟨fmt, hsup, -⟩ := fmtOfField_supported fun hgt => hfmt ⟨.inl rfl, hgt⟩
    simp only [assemble, hsup, raisesIn]
  | decompress =>
    rw [raisesIn_assemble_decompress fun hgt => hfmt ⟨.inr rfl, hgt⟩]
    exact if_pos (not_not.mp fun hne => hlen ⟨rfl, hne⟩)
  | _ => rfl

/-! ### What the table of R402 means for `exec` -/

/-- A command raises the kind of the table, or has none there and resets the engine or completes some effect (R92 step 4,
R402). -/
theorem exec_raisesIn_cases (i : Instr) (s : State) :
    (∃ k, raisesIn i s = some k ∧ exec i s = .next (s.raise k)) ∨
    (raisesIn i s = none ∧ i = .sreset ∧ exec i s = .next { s with eng := Engine.reset }) ∨
    (raisesIn i s = none ∧ ∃ f : Engine → Engine, exec i s = .next (s.completeWith f)) := by
  cases i with
  | sreset => exact .inr (.inl ⟨rfl, rfl, exec_sreset s⟩)
  | compress fmt fit met pt wa ro =>
    cases fmt with
    | reserved n => exact .inl ⟨_, rfl, exec_compress_reserved n fit met pt wa ro s⟩
    | supported f => exact .inr (.inr ⟨rfl, _, exec_compress_supported f fit met pt wa ro s⟩)
  | decompress fmt =>
    cases fmt with
    | reserved n => exact .inl ⟨_, rfl, exec_decompress_reserved n s⟩
    | supported f =>
      by_cases hlen : s.eng.clen.toNat = blockSize f
      · exact .inr (.inr ⟨if_pos hlen, _, exec_decompress_supported f s hlen⟩)
      · exact .inl ⟨_, if_neg hlen, exec_decompress_badLength f s hlen⟩
  | _ => exact .inr (.inr ⟨rfl, _, rfl⟩)

theorem exec_of_raisesIn_some {i : Instr} {s : State} {k : ErrorKind} (h : raisesIn i s = some k) :
    exec i s = .next (s.raise k) := by
  rcases exec_raisesIn_cases i s with ⟨k', hk', hexec⟩ | ⟨hnone, -⟩ | ⟨hnone, -⟩
  · rw [hexec, Option.some.inj (h.symm.trans hk')]
  · cases h.symm.trans hnone
  · cases h.symm.trans hnone

theorem exec_done_of_raisesIn_none {i : Instr} {s : State} (h : raisesIn i s = none) :
    ∃ t, exec i s = .next t ∧ (i ≠ .sreset → t.eng.status.done = true) := by
  rcases exec_raisesIn_cases i s with ⟨k, hk, -⟩ | ⟨-, hi, hexec⟩ | ⟨-, f, hexec⟩
  · cases h.symm.trans hk
  · exact ⟨_, hexec, fun hne => absurd hi hne⟩
  · exact ⟨_, hexec, fun _ => rfl⟩

/-! ### The priority -/

/-- Settles O17: an illegal word stops at the decoder; a legal one is a row's instruction, which raises what the table of
R402 gives its format and the length, the format first. -/
theorem errorPriorityInOneWord : Obligations.ErrorPriorityInOneWord := by
  intro s w rest hp
  by_cases hillegal : w.extractLsb' 24 8 ≠ 0#8 ∨ w.extractLsb' 0 8 ∉ opcodeBytes
  · rw [if_pos hillegal]
    obtain ⟨x, hx⟩ := exists_decode_error_of_illegal hillegal
    exact step_illegal hp hx
  · obtain ⟨op, hcode, hdecode⟩ := exists_opcode_of_legal hillegal
    have hrow (op' : Opcode) : w.extractLsb' 0 8 = op'.code ↔ op = op' := by rw [hcode, Opcode.eq_iff_code_eq]
    have hcompress : w.extractLsb' 0 8 = 0x10#8 ↔ op = .compress := hrow .compress
    have hdecompress : w.extractLsb' 0 8 = 0x11#8 ↔ op = .decompress := hrow .decompress
    rw [if_neg hillegal, step_command hp hdecode]
    simp only [hcompress, hdecompress, ← fieldBlockSize_eq]
    by_cases hfmt : (op = .compress ∨ op = .decompress) ∧ 4 < (w.extractLsb' 8 3).toNat
    · rw [if_pos hfmt]
      obtain ⟨hop, hgt⟩ := hfmt
      exact exec_of_raisesIn_some (raisesIn_assemble_badFormat hop hgt _)
    · rw [if_neg hfmt]
      by_cases hlen : op = .decompress ∧ s.eng.clen.toNat ≠ fieldBlockSize (w.extractLsb' 8 3)
      · rw [if_pos hlen]
        obtain ⟨rfl, hne⟩ := hlen
        have hle : ¬4 < (w.extractLsb' 8 3).toNat := fun hgt => hfmt ⟨.inr rfl, hgt⟩
        exact exec_of_raisesIn_some ((raisesIn_assemble_decompress hle _).trans (if_neg hne))
      · rw [if_neg hlen]
        obtain ⟨t, ht, hdone⟩ := exec_done_of_raisesIn_none (s := s.answered rest .ok)
          (raisesIn_assemble_none (f := Fields.ofWord w) hfmt hlen)
        exact ⟨t, ht, fun hbyte => hdone fun hsreset =>
          hbyte ((hrow .sreset).mpr (assemble_eq_sreset_iff.mp hsreset))⟩

end Sys2Proof.Machine

/-!
The rounding of binary32 on magnitudes (R131, R132): the low bits of an f32 are ordered as their magnitudes are, and the
low bits a quotient rounds to are nearest to it among all of them.
-/
namespace Sys2Proof.Machine

/-! ### Magnitudes -/

/-- The magnitude the low bits stand for, in units of 2^-149. -/
def lowMag (l : Nat) : Nat :=
  if l < 0x800000 then l else (0x800000 + l % 0x800000) * 2 ^ (l / 0x800000 - 1)

theorem f32Mag_eq_lowMag (a : F32) : f32Mag a = lowMag (f32Low a) := by rw [f32Mag, lowMag]

/-- A significand of at most 24 bits, normalised unless it has no excess bits; 2^24 carries into the exponent. -/
theorem lowMag_scaled {e m : Nat} (hm : m ≤ 0x1000000) (he : e = 0 ∨ 0x800000 ≤ m) :
    lowMag (e * 0x800000 + m) = m * 2 ^ e := by
  rw [lowMag]
  split
  next hsmall =>
    have h0 : e = 0 := by omega
    simp [h0]
  next hlarge =>
    rcases Nat.lt_or_eq_of_le hm with hlt | rfl
    · have hdiv : (e * 0x800000 + m) / 0x800000 - 1 = e := by omega
      have hmod : 0x800000 + (e * 0x800000 + m) % 0x800000 = m := by omega
      rw [hdiv, hmod]
    · have hdiv : (e * 0x800000 + 0x1000000) / 0x800000 - 1 = e + 1 := by omega
      have hmod : 0x800000 + (e * 0x800000 + 0x1000000) % 0x800000 = 0x800000 := by omega
      rw [hdiv, hmod, Nat.pow_succ]
      omega

theorem exists_scaled (l : Nat) :
    ∃ e m, l = e * 0x800000 + m ∧ m < 0x1000000 ∧ (e = 0 ∨ 0x800000 ≤ m) := by
  by_cases h : l < 0x800000
  · exact ⟨0, l, by omega, by omega, .inl rfl⟩
  · exact ⟨l / 0x800000 - 1, 0x800000 + l % 0x800000, by omega, by omega, .inr (by omega)⟩

theorem lowMag_strictMono : StrictMono lowMag := strictMono_nat_of_lt_succ fun l => by
  obtain ⟨e, m, rfl, hm, he⟩ := exists_scaled l
  rw [Nat.add_assoc, lowMag_scaled (by omega) he, lowMag_scaled (by omega) (by omega)]
  exact Nat.mul_lt_mul_of_pos_right (Nat.lt_succ_self m) (Nat.two_pow_pos e)

@[simp] theorem lowMag_zero : lowMag 0 = 0 := by simp [lowMag]

/-- A magnitude with less than `e` excess bits is below the normalised significands of `e`; any other is a multiple. -/
theorem lowMag_cases (l e : Nat) : (∃ k, lowMag l = k * 2 ^ e) ∨ e ≠ 0 ∧ lowMag l < 0x800000 * 2 ^ e := by
  obtain ⟨e', m, rfl, hm, he⟩ := exists_scaled l
  rw [lowMag_scaled (Nat.le_of_lt hm) he]
  by_cases hle : e ≤ e'
  · exact .inl ⟨m * 2 ^ (e' - e), by rw [Nat.mul_assoc, ← Nat.pow_add, Nat.sub_add_cancel hle]⟩
  · have hpow : 2 ^ (e' + 1) ≤ 2 ^ e := Nat.pow_le_pow_right (by decide) (by omega)
    have hlt : m * 2 ^ e' < 0x1000000 * 2 ^ e' := Nat.mul_lt_mul_of_pos_right hm (Nat.two_pow_pos e')
    rw [Nat.pow_succ] at hpow
    exact .inr ⟨by omega, by omega⟩

/-- Significands below 2^24 times a power of two are magnitudes. -/
theorem exists_lowMag_eq {m : Nat} (e : Nat) (hm : m < 0x1000000) :
    ∃ l, l < e * 0x800000 + 0x1000000 ∧ lowMag l = m * 2 ^ e := by
  induction e generalizing m with
  | zero =>
    have hmag := lowMag_scaled (e := 0) (Nat.le_of_lt hm) (.inl rfl)
    rw [Nat.zero_mul, Nat.zero_add] at hmag
    exact ⟨m, by omega, hmag⟩
  | succ e ih =>
    by_cases h : 0x800000 ≤ m
    · exact ⟨(e + 1) * 0x800000 + m, by omega, lowMag_scaled (Nat.le_of_lt hm) (.inr h)⟩
    · obtain ⟨l, hl, heq⟩ := ih (m := 2 * m) (by omega)
      refine ⟨l, hl.trans_le (Nat.add_le_add_right (Nat.mul_le_mul_right _ (Nat.le_succ e)) _), ?_⟩
      rw [heq, Nat.pow_succ, Nat.mul_comm 2 m, Nat.mul_assoc, Nat.mul_comm 2]

/-! ### The rounded integer quotient -/

theorem le_roundNearest {k num den : Nat} (h0 : 0 < den) (h : k * den ≤ num) : k ≤ roundNearest num den := by
  obtain ⟨-, hhi⟩ := roundNearest_spec num den h0
  by_contra hlt
  have hstep := Nat.mul_le_mul_right den (Nat.lt_of_not_le hlt)
  rw [Nat.succ_mul] at hstep
  omega

theorem roundNearest_le {k num den : Nat} (h0 : 0 < den) (h : num ≤ k * den) : roundNearest num den ≤ k := by
  obtain ⟨hlo, -⟩ := roundNearest_spec num den h0
  by_contra hlt
  have hstep := Nat.mul_le_mul_right den (Nat.lt_of_not_le hlt)
  rw [Nat.succ_mul] at hstep
  omega

/-- Half a unit away from the exact quotient, the rounded one is even. -/
theorem roundNearest_even {num den : Nat} (h0 : 0 < den)
    (h : 2 * (roundNearest num den * den) = 2 * num + den ∨ 2 * num = 2 * (roundNearest num den * den) + den) :
    roundNearest num den % 2 = 0 := by
  have hdm := Nat.div_add_mod num den
  have hc : den * (num / den) = num / den * den := Nat.mul_comm _ _
  have hlt := Nat.mod_lt num h0
  unfold roundNearest at h ⊢
  split at h
  · omega
  · split at h
    · rw [Nat.add_mul, Nat.one_mul] at h
      omega
    · split
      · omega
      · omega

/-- No integer is nearer to the quotient than the rounded one, and of two equally near the rounded one is even. -/
theorem natDist_roundNearest_le {num den : Nat} (h0 : 0 < den) (k : Nat) :
    natDist (roundNearest num den * den) num ≤ natDist (k * den) num ∧
    (natDist (roundNearest num den * den) num = natDist (k * den) num →
      k = roundNearest num den ∨ roundNearest num den % 2 = 0) := by
  obtain ⟨hlo, hhi⟩ := roundNearest_spec num den h0
  have heven := roundNearest_even (num := num) h0
  simp only [natDist]
  rcases Nat.lt_trichotomy k (roundNearest num den) with hlt | rfl | hlt
  · have hstep := Nat.mul_le_mul_right den hlt
    rw [Nat.succ_mul] at hstep
    exact ⟨by omega, fun htie => .inr (heven (by omega))⟩
  · exact ⟨Nat.le_refl _, fun _ => .inl rfl⟩
  · have hstep := Nat.mul_le_mul_right den hlt
    rw [Nat.succ_mul] at hstep
    exact ⟨by omega, fun htie => .inr (heven (by omega))⟩

/-! ### The rounded low bits -/

/-- The low bits a quotient rounds to when the exponent has no upper end. -/
def openLow (num den : Nat) : Nat :=
  excessBits num den * 0x800000 + roundNearest num (den * 2 ^ excessBits num den)

theorem roundLow_eq (num den : Nat) : roundLow num den = min 0x7F800000 (openLow num den) := by
  rw [roundLow, openLow]

/-- The excess bits leave a significand of 24 bits, normalised unless there are none. -/
theorem excessBits_spec {num den : Nat} (h0 : 0 < den) :
    (excessBits num den = 0 ∨ 0x800000 * (den * 2 ^ excessBits num den) ≤ num) ∧
      num ≤ 0x1000000 * (den * 2 ^ excessBits num den) := by
  have hpow {a b : Nat} (h : a ≤ b) : 2 ^ a ≤ 2 ^ b := Nat.pow_le_pow_right (by decide) h
  have hscale (c : Nat) : 2 ^ (excessBits num den + c) * den = 2 ^ c * (den * 2 ^ excessBits num den) := by
    rw [Nat.pow_add]
    ring
  constructor
  · by_cases he : excessBits num den = 0
    · exact .inl he
    · rw [excessBits] at he
      have hq : num / den ≠ 0 := fun h => he (by rw [h]; decide)
      have hself := Nat.log2_self_le hq
      have hsum : excessBits num den + 23 = Nat.log2 (num / den) := by
        rw [excessBits]
        omega
      rw [← hsum] at hself
      have hle := Nat.mul_le_of_le_div _ _ _ hself
      rw [hscale] at hle
      exact .inr hle
  · have hself : num / den < 2 ^ (excessBits num den + 24) := by
      have hsum : Nat.log2 (num / den) + 1 ≤ excessBits num den + 24 := by
        rw [excessBits]
        omega
      exact Nat.lt_log2_self.trans_le (hpow hsum)
    have hlt := (Nat.div_lt_iff_lt_mul h0).mp hself
    rw [hscale] at hlt
    exact Nat.le_of_lt hlt

section
variable {num den : Nat} (h0 : 0 < den)
include h0

theorem scaledDen_pos : 0 < den * 2 ^ excessBits num den := Nat.mul_pos h0 (Nat.two_pow_pos _)

theorem lowMag_openLow :
    lowMag (openLow num den)
      = roundNearest num (den * 2 ^ excessBits num den) * 2 ^ excessBits num den := by
  obtain ⟨hlo, hhi⟩ := excessBits_spec (num := num) h0
  refine lowMag_scaled (roundNearest_le (scaledDen_pos h0) hhi) ?_
  exact hlo.imp_right (le_roundNearest (scaledDen_pos h0))

/-- No magnitude is nearer to the quotient than the one rounded to, and of two equally near its last bit is 0. -/
theorem natDist_openLow_le (l : Nat) :
    natDist (lowMag (openLow num den) * den) num ≤ natDist (lowMag l * den) num ∧
    (natDist (lowMag (openLow num den) * den) num = natDist (lowMag l * den) num →
      lowMag l = lowMag (openLow num den) ∨ openLow num den % 2 = 0) := by
  have hnear := natDist_roundNearest_le (num := num) (scaledDen_pos (num := num) h0)
  have hscale (k : Nat) : k * 2 ^ excessBits num den * den = k * (den * 2 ^ excessBits num den) := by ring
  rw [lowMag_openLow h0, hscale]
  rcases lowMag_cases l (excessBits num den) with ⟨k, hk⟩ | ⟨he, hsmall⟩
  · rw [hk, hscale]
    obtain ⟨hle, htie⟩ := hnear k
    refine ⟨hle, fun heq => (htie heq).imp (fun h => by rw [h]) fun heven => ?_⟩
    rw [openLow]
    omega
  · have hlow := (excessBits_spec (num := num) h0).1.resolve_left he
    have hlt : lowMag l * den < 0x800000 * (den * 2 ^ excessBits num den) := by
      rw [← hscale]
      exact Nat.mul_lt_mul_of_pos_right hsmall h0
    have hle := (hnear 0x800000).1
    simp only [natDist] at hle ⊢
    exact ⟨by omega, fun heq => by omega⟩

/-- The rounding moves a quotient by at most 2^-24 of it, or by half a unit. -/
theorem natDist_openLow_bound :
    2 ^ 24 * natDist (lowMag (openLow num den) * den) num ≤ num + 2 ^ 23 * den := by
  obtain ⟨hlo, hhi⟩ := roundNearest_spec num _ (scaledDen_pos (num := num) h0)
  have hexcess := (excessBits_spec (num := num) h0).1
  have hscale : roundNearest num (den * 2 ^ excessBits num den) * 2 ^ excessBits num den * den
      = roundNearest num (den * 2 ^ excessBits num den) * (den * 2 ^ excessBits num den) := by ring
  rw [lowMag_openLow h0, hscale]
  simp only [natDist]
  rcases hexcess with hzero | hlarge
  · rw [hzero, Nat.pow_zero, Nat.mul_one] at hlo hhi ⊢
    omega
  · omega

/-- A quotient at or below a magnitude does not round above it. -/
theorem openLow_le {l : Nat} (h : num ≤ lowMag l * den) : openLow num den ≤ l := by
  by_contra hlt
  have hmag := Nat.mul_lt_mul_of_pos_right (lowMag_strictMono (Nat.lt_of_not_le hlt)) h0
  have hle := (natDist_openLow_le (num := num) h0 l).1
  simp only [natDist] at hle
  omega

theorem le_openLow {l : Nat} (h : lowMag l * den ≤ num) : l ≤ openLow num den := by
  by_contra hlt
  have hmag := Nat.mul_lt_mul_of_pos_right (lowMag_strictMono (Nat.lt_of_not_le hlt)) h0
  have hle := (natDist_openLow_le (num := num) h0 l).1
  simp only [natDist] at hle
  omega

/-- A larger number rounds no lower. -/
theorem openLow_mono {num' : Nat} (h : num ≤ num') : openLow num den ≤ openLow num' den := by
  by_contra hlt
  have hmag := Nat.mul_lt_mul_of_pos_right (lowMag_strictMono (Nat.lt_of_not_le hlt)) h0
  have hle := (natDist_openLow_le (num := num) h0 (openLow num' den)).1
  have hle' := (natDist_openLow_le (num := num') h0 (openLow num den)).1
  simp only [natDist] at hle hle'
  have heq : num = num' := by omega
  rw [heq] at hlt
  exact hlt (Nat.le_refl _)

/-- The quotients that round to infinity are those at least half a unit above the largest finite magnitude. -/
theorem inf_le_openLow_iff : 0x7F800000 ≤ openLow num den ↔ (2 ^ 25 - 1) * 2 ^ 252 * den ≤ num := by
  have hmax : lowMag 0x7F7FFFFF = (2 ^ 25 - 2) * 2 ^ 252 :=
    (lowMag_scaled (e := 253) (m := 0xFFFFFF) (by omega) (by omega)).trans (by decide)
  have hinf : lowMag 0x7F800000 = 2 ^ 25 * 2 ^ 252 :=
    (lowMag_scaled (e := 254) (m := 0x800000) (by omega) (by omega)).trans (by decide)
  have hmaxden : lowMag 0x7F7FFFFF * den = (2 ^ 25 - 2) * (2 ^ 252 * den) := by rw [hmax, Nat.mul_assoc]
  have hinfden : lowMag 0x7F800000 * den = 2 ^ 25 * (2 ^ 252 * den) := by rw [hinf, Nat.mul_assoc]
  have hpos : 0 < 2 ^ 252 * den := Nat.mul_pos (Nat.two_pow_pos _) h0
  have hmono {l l' : Nat} (h : l ≤ l') : lowMag l * den ≤ lowMag l' * den :=
    Nat.mul_le_mul_right den (lowMag_strictMono.monotone h)
  have hinj {l l' : Nat} (h : lowMag l * den = lowMag l' * den) : l = l' :=
    lowMag_strictMono.injective (Nat.eq_of_mul_eq_mul_right h0 h)
  rw [Nat.mul_assoc]
  generalize 2 ^ 252 * den = half at *
  constructor
  · intro hle
    have hfar := hmono hle
    have hnear := (natDist_openLow_le (num := num) h0 0x7F7FFFFF).1
    simp only [natDist] at hnear
    omega
  · intro hge
    by_contra hlt
    have hfar := hmono (show openLow num den ≤ 0x7F7FFFFF by omega)
    obtain ⟨hnear, htie⟩ := natDist_openLow_le (num := num) h0 0x7F800000
    simp only [natDist] at hnear htie
    have hmaxeq : openLow num den = 0x7F7FFFFF := hinj (by omega)
    rw [hmaxeq] at htie hnear
    rcases htie (by omega) with heq | heven
    · exact absurd (lowMag_strictMono.injective heq) (by decide)
    · exact absurd heven (by decide)
end

end Sys2Proof.Machine

/-!
The operations of R132 as exact results rounded once: what an f32 of a sign and low bits is, the rounded quotients of
signed integers with their bounds, and each operation as one of them.
-/
namespace Sys2Proof.Machine

/-! ### Sign and low bits -/

theorem f32_toNat (a : F32) : a.toNat = (if f32Neg a then 0x80000000 else 0) + f32Low a := by
  have hlt := a.isLt
  by_cases h : 0x80000000 ≤ a.toNat
  · simp only [f32Neg, f32Low, h, decide_true, if_true]
    omega
  · simp only [f32Neg, f32Low, h, decide_false, Bool.false_eq_true, if_false]
    omega

/-- An f32 is its sign and its low bits. -/
theorem f32_ext {a b : F32} (hneg : f32Neg a = f32Neg b) (hlow : f32Low a = f32Low b) : a = b :=
  BitVec.eq_of_toNat_eq (by rw [f32_toNat a, f32_toNat b, hneg, hlow])

theorem toNat_f32Make {neg : Bool} {low : Nat} (h : low < 0x80000000) :
    (f32Make neg low).toNat = if neg then 0x80000000 + low else low := by
  rw [f32Make, BitVec.toNat_ofNat]
  cases neg
  · exact Nat.mod_eq_of_lt (by simp only [Bool.false_eq_true, if_false]; omega)
  · exact Nat.mod_eq_of_lt (by simp only [if_true]; omega)

theorem f32Low_f32Make {neg : Bool} {low : Nat} (h : low < 0x80000000) : f32Low (f32Make neg low) = low := by
  rw [f32Low, toNat_f32Make h]
  cases neg
  · exact Nat.mod_eq_of_lt h
  · simp only [if_true]
    omega

theorem f32Neg_f32Make {neg : Bool} {low : Nat} (h : low < 0x80000000) : f32Neg (f32Make neg low) = neg := by
  rw [f32Neg, toNat_f32Make h]
  cases neg
  · simp only [Bool.false_eq_true, if_false, decide_eq_false_iff_not]
    omega
  · simp only [if_true, decide_eq_true_eq]
    omega

theorem f32Low_fneg (a : F32) : f32Low (fneg a) = f32Low a := by
  rw [f32Low, fneg, BitVec.toNat_xor, show 0x80000000 = 2 ^ 31 from rfl, Nat.xor_mod_two_pow]
  exact Nat.xor_zero _

theorem f32Neg_fneg (a : F32) : f32Neg (fneg a) = !f32Neg a := by
  have hshift (b : F32) : f32Neg b = decide (b.toNat >>> 31 ≠ 0) := by
    rw [f32Neg, Nat.shiftRight_eq_div_pow]
    exact decide_eq_decide.mpr (by omega)
  have hlt : a.toNat >>> 31 < 2 := by
    rw [Nat.shiftRight_eq_div_pow]
    have := a.isLt
    omega
  rw [hshift, hshift, fneg, BitVec.toNat_xor, Nat.shiftRight_xor_distrib]
  generalize a.toNat >>> 31 = d at hlt
  rcases Nat.lt_succ_iff_lt_or_eq.mp hlt with h | rfl
  · rw [Nat.lt_one_iff.mp h]
    rfl
  · rfl

theorem f32Low_fabs (a : F32) : f32Low (fabs a) = f32Low a := by
  have hand : (fabs a).toNat = a.toNat % 2 ^ 31 := by
    rw [fabs_eq, b32Abs, BitVec.toNat_and]
    exact Nat.and_two_pow_sub_one_eq_mod _ 31
  rw [f32Low, hand, f32Low]
  exact Nat.mod_mod _ _

theorem f32Neg_fabs (a : F32) : f32Neg (fabs a) = false := by
  have hand : (fabs a).toNat = a.toNat % 2 ^ 31 := by
    rw [fabs_eq, b32Abs, BitVec.toNat_and]
    exact Nat.and_two_pow_sub_one_eq_mod _ 31
  rw [f32Neg, hand]
  exact decide_eq_false (by omega)

/-! ### The kinds of value -/

theorem f32IsFinite_iff (a : F32) : f32IsFinite a = true ↔ f32Low a < 0x7F800000 := decide_eq_true_iff
theorem f32IsInf_iff (a : F32) : f32IsInf a = true ↔ f32Low a = 0x7F800000 := decide_eq_true_iff
theorem f32IsNaN_iff (a : F32) : f32IsNaN a = true ↔ 0x7F800000 < f32Low a := decide_eq_true_iff
theorem f32IsNaN_eq_false_iff (a : F32) : f32IsNaN a = false ↔ f32Low a ≤ 0x7F800000 := by
  rw [← Bool.not_eq_true, f32IsNaN_iff, Nat.not_lt]

theorem not_nan_of_finite {a : F32} (h : f32IsFinite a = true) : f32IsNaN a = false :=
  (f32IsNaN_eq_false_iff a).mpr (Nat.le_of_lt ((f32IsFinite_iff a).mp h))

theorem not_inf_of_finite {a : F32} (h : f32IsFinite a = true) : f32IsInf a = false :=
  Bool.eq_false_iff.mpr fun hi => absurd ((f32IsInf_iff a).mp hi) (Nat.ne_of_lt ((f32IsFinite_iff a).mp h))

theorem not_nan_of_inf {a : F32} (h : f32IsInf a = true) : f32IsNaN a = false :=
  (f32IsNaN_eq_false_iff a).mpr (Nat.le_of_eq ((f32IsInf_iff a).mp h))

theorem f32IsFinite_fneg (a : F32) : f32IsFinite (fneg a) = f32IsFinite a := by
  rw [f32IsFinite, f32Low_fneg, f32IsFinite]

theorem f32IsInf_fneg (a : F32) : f32IsInf (fneg a) = f32IsInf a := by rw [f32IsInf, f32Low_fneg, f32IsInf]

theorem f32IsNaN_fneg (a : F32) : f32IsNaN (fneg a) = f32IsNaN a := by rw [f32IsNaN, f32Low_fneg, f32IsNaN]

/-! ### Signed values -/

/-- A magnitude with a sign. -/
def withSign (neg : Bool) (n : Nat) : Int := if neg then -(n : Int) else (n : Int)

theorem withSign_true (n : Nat) : withSign true n = -(n : Int) := if_pos rfl
theorem withSign_false (n : Nat) : withSign false n = (n : Int) := if_neg Bool.false_ne_true

theorem natAbs_withSign (neg : Bool) (n : Nat) : (withSign neg n).natAbs = n := by
  cases neg
  · rw [withSign_false, Int.natAbs_natCast]
  · rw [withSign_true, Int.natAbs_neg, Int.natAbs_natCast]

theorem withSign_not (neg : Bool) (n : Nat) : withSign (!neg) n = -withSign neg n := by
  cases neg
  · rw [Bool.not_false, withSign_true, withSign_false]
  · rw [Bool.not_true, withSign_true, withSign_false, Int.neg_neg]

theorem withSign_mul (neg neg' : Bool) (m n : Nat) :
    withSign neg m * withSign neg' n = withSign (neg != neg') (m * n) := by
  cases neg
  · cases neg'
    · simp [withSign]
    · simp [withSign]
  · cases neg'
    · simp [withSign]
    · simp [withSign]

theorem withSign_mul_natCast (neg : Bool) (m n : Nat) : withSign neg m * (n : Int) = withSign neg (m * n) := by
  rw [← withSign_false n, withSign_mul, Bool.bne_false]

theorem withSign_zero (neg : Bool) : withSign neg 0 = 0 := by cases neg <;> rfl

theorem natAbs_withSign_sub (neg : Bool) (m n : Nat) : (withSign neg m - withSign neg n).natAbs = natDist m n := by
  cases neg
  · rw [withSign_false, withSign_false, natDist]
    omega
  · rw [withSign_true, withSign_true, natDist]
    omega

theorem natAbs_withSign_not_sub (neg : Bool) (m n : Nat) : (withSign (!neg) m - withSign neg n).natAbs = m + n := by
  cases neg
  · rw [Bool.not_false, withSign_true, withSign_false]
    omega
  · rw [Bool.not_true, withSign_true, withSign_false]
    omega

theorem f32Val_eq_withSign (a : F32) : f32Val a = withSign (f32Neg a) (lowMag (f32Low a)) := by
  rw [f32Val, withSign, f32Mag_eq_lowMag]

theorem natAbs_f32Val (a : F32) : (f32Val a).natAbs = f32Mag a := by
  rw [f32Val_eq_withSign, natAbs_withSign, f32Mag_eq_lowMag]

theorem f32Mag_eq_zero_iff (a : F32) : f32Mag a = 0 ↔ f32Val a = 0 := by rw [← natAbs_f32Val, Int.natAbs_eq_zero]

theorem f32Val_fneg (a : F32) : f32Val (fneg a) = -f32Val a := by
  rw [f32Val_eq_withSign, f32Low_fneg, f32Neg_fneg, withSign_not, f32Val_eq_withSign]

theorem f32Val_f32Make {neg : Bool} {low : Nat} (h : low < 0x80000000) :
    f32Val (f32Make neg low) = withSign neg (lowMag low) := by
  rw [f32Val_eq_withSign, f32Neg_f32Make h, f32Low_f32Make h]

/-- Two f32 of one value and one sign are the same. -/
theorem eq_of_f32Val_eq {a b : F32} (hval : f32Val a = f32Val b) (hneg : f32Neg a = f32Neg b) : a = b := by
  refine f32_ext hneg (lowMag_strictMono.injective ?_)
  rw [← f32Mag_eq_lowMag, ← f32Mag_eq_lowMag, ← natAbs_f32Val, ← natAbs_f32Val, hval]

theorem f32Val_fabs (a : F32) : f32Val (fabs a) = (f32Val a).natAbs := by
  rw [natAbs_f32Val, f32Val_eq_withSign, f32Neg_fabs, f32Low_fabs, withSign_false, f32Mag_eq_lowMag]

theorem f32IsFinite_fabs (a : F32) : f32IsFinite (fabs a) = f32IsFinite a := by
  rw [f32IsFinite, f32Low_fabs, f32IsFinite]

theorem f32Neg_eq_of_pos {a : F32} (h : 0 < f32Val a) : f32Neg a = false := by
  cases hneg : f32Neg a
  · rfl
  · rw [f32Val_eq_withSign, hneg, withSign_true] at h
    omega

/-! ### Values an f32 holds exactly -/

/-- A finite f32 has this value. -/
def IsF32 (v : Int) : Prop := ∃ y : F32, f32IsFinite y = true ∧ f32Val y = v

theorem isF32_f32Val {a : F32} (h : f32IsFinite a = true) : IsF32 (f32Val a) := ⟨a, h, rfl⟩

theorem IsF32.neg {v : Int} (h : IsF32 v) : IsF32 (-v) := by
  obtain ⟨y, hy, rfl⟩ := h
  exact ⟨fneg y, by rw [f32IsFinite_fneg, hy], f32Val_fneg y⟩

/-- A significand of 24 bits at an exponent of the format. -/
theorem isF32_scaled {m e : Nat} (hm : m < 0x1000000) (he : e ≤ 252) : IsF32 ((m * 2 ^ e : Nat) : Int) := by
  obtain ⟨l, hl, hmag⟩ := exists_lowMag_eq e hm
  have hlt : l < 0x7F800000 := by omega
  refine ⟨f32Make false l, (f32IsFinite_iff _).mpr ?_, ?_⟩
  · rwa [f32Low_f32Make (by omega)]
  · rw [f32Val_f32Make (by omega), withSign_false, hmag]

/-- An integer below 2^24 in magnitude, in units of 2^-149 (R136 P2). -/
theorem isF32_ofInt {n : Int} (h : n.natAbs < 0x1000000) : IsF32 (n * 2 ^ 149) := by
  have habs := isF32_scaled h (e := 149) (by decide)
  rw [Int.natCast_mul, Int.natCast_pow] at habs
  rcases Int.natAbs_eq n with hn | hn
  · rw [hn]
    exact habs
  · rw [hn, Int.neg_mul]
    exact habs.neg

/-! ### Rounded quotients -/

/-- The f32 is the quotient rounded once, and has its sign when it is not zero (R131). -/
def IsRounded (num : Int) (den : Nat) (r : F32) : Prop :=
  ∃ neg, num = withSign neg num.natAbs ∧ r = f32Make neg (roundLow num.natAbs den)

theorem roundLow_le (num den : Nat) : roundLow num den ≤ 0x7F800000 := by
  rw [roundLow_eq]
  exact Nat.min_le_left _ _

theorem roundLow_zero : roundLow 0 1 = 0 := by decide

theorem roundLow_lt (num den : Nat) : roundLow num den < 0x80000000 :=
  Nat.lt_of_le_of_lt (roundLow_le num den) (by decide)

section
variable {num : Int} {den : Nat} {r : F32}

theorem isRounded_withSign (neg : Bool) (n den : Nat) :
    IsRounded (withSign neg n) den (f32Make neg (roundLow n den)) :=
  ⟨neg, by rw [natAbs_withSign], by rw [natAbs_withSign]⟩

theorem IsRounded.low (h : IsRounded num den r) : f32Low r = roundLow num.natAbs den := by
  obtain ⟨neg, -, rfl⟩ := h
  exact f32Low_f32Make (roundLow_lt _ _)

theorem IsRounded.not_nan (h : IsRounded num den r) : f32IsNaN r = false := by
  rw [f32IsNaN_eq_false_iff, h.low]
  exact roundLow_le _ _

theorem IsRounded.fneg (h : IsRounded num den r) : IsRounded (-num) den (fneg r) := by
  obtain ⟨neg, hsign, rfl⟩ := h
  refine ⟨!neg, by rw [Int.natAbs_neg, withSign_not, ← hsign], f32_ext ?_ ?_⟩
  · rw [f32Neg_fneg, f32Neg_f32Make (roundLow_lt _ _), f32Neg_f32Make (roundLow_lt _ _)]
  · rw [f32Low_fneg, f32Low_f32Make (roundLow_lt _ _), f32Low_f32Make (roundLow_lt _ _), Int.natAbs_neg]

theorem IsRounded.sign (h : IsRounded num den r) (hne : num ≠ 0) : f32Neg r = decide (num < 0) := by
  obtain ⟨neg, hsign, rfl⟩ := h
  rw [f32Neg_f32Make (roundLow_lt _ _)]
  cases neg
  · rw [withSign_false] at hsign
    exact (decide_eq_false (by omega)).symm
  · rw [withSign_true] at hsign
    exact (decide_eq_true (by omega)).symm

/-- The overflow threshold, half a unit above the largest finite f32. -/
theorem IsRounded.isInf_iff (h : IsRounded num den r) (h0 : 0 < den) :
    f32IsInf r = true ↔ (2 ^ 25 - 1) * 2 ^ 252 * den ≤ num.natAbs := by
  rw [f32IsInf_iff, h.low, roundLow_eq, min_eq_left_iff, inf_le_openLow_iff h0]

/-- A bound that is an f32 bounds the rounded quotient. -/
theorem IsRounded.val_le (h : IsRounded num den r) (h0 : 0 < den) {v : Int} (hv : IsF32 v) (hle : num ≤ v * den) :
    f32Val r ≤ v := by
  obtain ⟨neg, hsign, rfl⟩ := h
  obtain ⟨y, hfin, rfl⟩ := hv
  have hy := (f32IsFinite_iff y).mp hfin
  generalize num.natAbs = n at hsign
  subst hsign
  rw [f32Val_f32Make (roundLow_lt _ _), roundLow_eq]
  rw [f32Val_eq_withSign] at hle ⊢
  rw [withSign_mul_natCast] at hle
  generalize f32Low y = l at hle hy ⊢
  generalize f32Neg y = sign at hle ⊢
  cases neg
  · cases sign
    · rw [withSign_false, withSign_false] at hle ⊢
      have hopen := openLow_le h0 (Int.ofNat_le.mp hle)
      exact Int.ofNat_le.mpr (lowMag_strictMono.monotone ((Nat.min_le_right _ _).trans hopen))
    · rw [withSign_false, withSign_true] at hle ⊢
      have hzero : lowMag l * den = 0 := by omega
      have hl : lowMag l = 0 := (Nat.mul_eq_zero.mp hzero).resolve_right (Nat.ne_of_gt h0)
      have hopen := openLow_le h0 (num := n) (l := 0) (by omega)
      rw [Nat.le_zero.mp hopen, Nat.min_zero, lowMag_zero, hl]
      exact Int.le_refl 0
  · cases sign
    · rw [withSign_true, withSign_false]
      omega
    · rw [withSign_true, withSign_true] at hle ⊢
      have hopen := le_openLow h0 (num := n) (l := l) (by omega)
      exact Int.neg_le_neg (Int.ofNat_le.mpr
        (lowMag_strictMono.monotone (Nat.le_min.mpr ⟨Nat.le_of_lt hy, hopen⟩)))

theorem IsRounded.le_val (h : IsRounded num den r) (h0 : 0 < den) {v : Int} (hv : IsF32 v) (hle : v * den ≤ num) :
    v ≤ f32Val r := by
  have hneg := h.fneg.val_le h0 hv.neg (by rw [Int.neg_mul]; exact Int.neg_le_neg hle)
  rw [f32Val_fneg] at hneg
  exact Int.neg_le_neg_iff.mp hneg

/-- Between two f32 values the rounded quotient is finite and stays between them. -/
theorem IsRounded.between (h : IsRounded num den r) (h0 : 0 < den) {lo hi : Int} (hlo : IsF32 lo) (hhi : IsF32 hi)
    (hle : lo * den ≤ num) (hle' : num ≤ hi * den) : f32IsFinite r = true ∧ lo ≤ f32Val r ∧ f32Val r ≤ hi := by
  have hl := h.le_val h0 hlo hle
  have hr := h.val_le h0 hhi hle'
  refine ⟨?_, hl, hr⟩
  have hmag {y : F32} (hy : f32IsFinite y = true) : (f32Val y).natAbs < lowMag 0x7F800000 := by
    rw [natAbs_f32Val, f32Mag_eq_lowMag]
    exact lowMag_strictMono ((f32IsFinite_iff y).mp hy)
  obtain ⟨y, hy, rfl⟩ := hlo
  obtain ⟨z, hz, rfl⟩ := hhi
  have hy' := hmag hy
  have hz' := hmag hz
  have hr' : lowMag (f32Low r) < lowMag 0x7F800000 := by
    rw [← f32Mag_eq_lowMag, ← natAbs_f32Val]
    omega
  exact (f32IsFinite_iff r).mpr (lowMag_strictMono.lt_iff_lt.mp hr')

/-- A quotient that is an f32 value is not changed. -/
theorem IsRounded.exact (h : IsRounded num den r) (h0 : 0 < den) {v : Int} (hv : IsF32 v) (heq : num = v * den) :
    f32IsFinite r = true ∧ f32Val r = v := by
  obtain ⟨hfin, hlo, hhi⟩ := h.between h0 hv hv (Int.le_of_eq heq.symm) (Int.le_of_eq heq)
  exact ⟨hfin, Int.le_antisymm hhi hlo⟩

theorem IsRounded.mag_eq (h : IsRounded num den r) (hfin : f32IsFinite r = true) :
    f32Mag r = lowMag (openLow num.natAbs den) := by
  have hlt := (f32IsFinite_iff r).mp hfin
  rw [h.low, roundLow_eq] at hlt
  rw [f32Mag_eq_lowMag, h.low, roundLow_eq, Nat.min_eq_right (by omega)]

/-- The error of a rounded quotient, relative or half a unit. -/
theorem IsRounded.error (h : IsRounded num den r) (h0 : 0 < den) (hfin : f32IsFinite r = true) :
    2 ^ 24 * natDist (f32Mag r * den) num.natAbs ≤ num.natAbs + 2 ^ 23 * den := by
  rw [h.mag_eq hfin]
  exact natDist_openLow_bound h0

theorem toNat_f32Make_mod_two {neg : Bool} {low : Nat} (h : low < 0x80000000) :
    (f32Make neg low).toNat % 2 = low % 2 := by
  rw [toNat_f32Make h]
  cases neg
  · rfl
  · simp only [if_true]
    omega

/-- The rounded quotient is the nearest finite f32, ties to even (R131). -/
theorem IsRounded.isNearest (h : IsRounded num den r) (h0 : 0 < den) (hfin : f32IsFinite r = true) :
    isNearest den num r := by
  obtain ⟨neg, hsign, hr⟩ := h
  have hlow : roundLow num.natAbs den = openLow num.natAbs den := by
    have hlt := (f32IsFinite_iff r).mp hfin
    rw [hr, f32Low_f32Make (roundLow_lt _ _), roundLow_eq] at hlt
    rw [roundLow_eq]
    omega
  have hlt := roundLow_lt num.natAbs den
  rw [hlow] at hr hlt
  generalize num.natAbs = n at hsign hr hlt
  subst hsign hr
  intro x _
  rw [f32Val_f32Make hlt, toNat_f32Make_mod_two hlt, f32Val_eq_withSign x, withSign_mul_natCast, withSign_mul_natCast,
    natAbs_withSign_sub]
  have hnear := natDist_openLow_le (num := n) h0
  rcases Bool.eq_or_eq_not (f32Neg x) neg with hx | hx
  · rw [hx, natAbs_withSign_sub]
    obtain ⟨hle, htie⟩ := hnear (f32Low x)
    exact ⟨hle, fun heq => (htie heq).imp_left fun h => by rw [h]⟩
  · rw [hx, natAbs_withSign_not_sub]
    obtain ⟨hle, htie⟩ := hnear 0
    have hzero : natDist (lowMag 0 * den) n = n := by
      rw [lowMag_zero, Nat.zero_mul, natDist]
      omega
    rw [hzero] at hle htie
    refine ⟨by omega, fun heq => ?_⟩
    have hx0 : lowMag (f32Low x) * den = 0 := by omega
    rw [(Nat.mul_eq_zero.mp hx0).resolve_right (Nat.ne_of_gt h0), withSign_zero]
    refine (htie (by omega)).imp_left fun h => ?_
    rw [← h, lowMag_zero, withSign_zero]
end

/-! ### The operations on finite operands -/

section
variable {a b : F32} (ha : f32IsFinite a = true) (hb : f32IsFinite b = true)
include ha hb

theorem fadd_of_finite : fadd a b = if f32Val a + f32Val b = 0 then f32Make (f32Neg a && f32Neg b) 0
    else f32Make (decide (f32Val a + f32Val b < 0)) (roundLow (f32Val a + f32Val b).natAbs 1) := by
  rw [fadd_eq, b32Add, not_nan_of_finite ha, not_nan_of_finite hb, not_inf_of_finite ha, not_inf_of_finite hb]
  simp only [Bool.or_self, Bool.false_eq_true, if_false]

theorem isRounded_fadd : IsRounded (f32Val a + f32Val b) 1 (fadd a b) := by
  rw [fadd_of_finite ha hb]
  split
  next h =>
    rw [h]
    exact ⟨_, (withSign_zero _).symm, by rw [Int.natAbs_zero, roundLow_zero]⟩
  next h =>
    refine ⟨_, ?_, rfl⟩
    rw [withSign]
    split
    next hneg => have := of_decide_eq_true hneg; omega
    next hneg => have := of_decide_eq_false (Bool.eq_false_iff.mpr hneg); omega

theorem isRounded_fsub : IsRounded (f32Val a - f32Val b) 1 (fsub a b) := by
  rw [Int.sub_eq_add_neg, ← f32Val_fneg]
  exact isRounded_fadd ha (by rw [f32IsFinite_fneg, hb])

theorem fmul_of_finite : fmul a b = f32Make (f32Neg a != f32Neg b) (roundLow (f32Mag a * f32Mag b) (2 ^ 149)) := by
  rw [fmul_eq, b32Mul, not_nan_of_finite ha, not_nan_of_finite hb, not_inf_of_finite ha, not_inf_of_finite hb]
  simp only [Bool.or_self, Bool.false_eq_true, if_false]

theorem isRounded_fmul : IsRounded (f32Val a * f32Val b) (2 ^ 149) (fmul a b) := by
  rw [fmul_of_finite ha hb, f32Val_eq_withSign, f32Val_eq_withSign, withSign_mul, f32Mag_eq_lowMag, f32Mag_eq_lowMag]
  exact isRounded_withSign _ _ _

theorem fdiv_of_finite (hne : f32Mag b ≠ 0) :
    fdiv a b = f32Make (f32Neg a != f32Neg b) (roundLow (f32Mag a * 2 ^ 149) (f32Mag b)) := by
  rw [fdiv_eq, b32Div, not_nan_of_finite ha, not_nan_of_finite hb, not_inf_of_finite ha, not_inf_of_finite hb]
  simp only [Bool.or_self, Bool.false_eq_true, if_false, hne]

theorem isRounded_fdiv (hne : f32Mag b ≠ 0) :
    IsRounded (withSign (f32Neg a != f32Neg b) (f32Mag a * 2 ^ 149)) (f32Mag b) (fdiv a b) := by
  rw [fdiv_of_finite ha hb hne]
  exact isRounded_withSign _ _ _

/-- By a positive divisor. -/
theorem isRounded_fdiv_of_pos (hpos : 0 < f32Val b) : IsRounded (f32Val a * 2 ^ 149) (f32Val b).natAbs (fdiv a b) := by
  have hne : f32Mag b ≠ 0 := by
    rw [← natAbs_f32Val]
    omega
  have hround := isRounded_fdiv ha hb hne
  rw [f32Neg_eq_of_pos hpos, Bool.bne_false, ← withSign_mul_natCast, f32Mag_eq_lowMag, ← f32Val_eq_withSign,
    ← natAbs_f32Val, Int.natCast_pow] at hround
  exact hround
end

theorem isRounded_i2f (n : Int) : IsRounded (n * 2 ^ 149) 1 (i2f n) := by
  have hsign : n * 2 ^ 149 = withSign (decide (n < 0)) (n.natAbs * 2 ^ 149) := by
    rw [← withSign_mul_natCast, Int.natCast_pow]
    congr 1
    rw [withSign]
    split
    next hneg => have := of_decide_eq_true hneg; omega
    next hneg => have := of_decide_eq_false (Bool.eq_false_iff.mpr hneg); omega
  rw [hsign]
  exact isRounded_withSign _ _ _

end Sys2Proof.Machine

/-!
What R131 to R136 and R150 to R152 say of the arithmetic, from the operations as rounded quotients.
-/
namespace Sys2Proof.Machine

/-! ### Rounding to nearest -/

/-- Nearness is the same for a quotient with both of its numbers negated. -/
theorem isNearest_neg {den num : Int} {r : F32} (h : isNearest den num r) : isNearest (-den) (-num) r := by
  intro x hx
  have hflip (v : Int) : (v * -den - -num).natAbs = (v * den - num).natAbs := by
    rw [Int.mul_neg, ← Int.neg_sub, Int.natAbs_neg]
    congr 1
    ring
  rw [hflip, hflip]
  exact h x hx

theorem isNearest_fdiv {a b : F32} (ha : f32IsFinite a = true) (hb : f32IsFinite b = true) (hne : f32Val b ≠ 0)
    (hfin : f32IsFinite (fdiv a b) = true) : isNearest (f32Val b) (f32Val a * 2 ^ 149) (fdiv a b) := by
  have hmag : f32Mag b ≠ 0 := fun h => hne ((f32Mag_eq_zero_iff b).mp h)
  have hnear := (isRounded_fdiv ha hb hmag).isNearest (Nat.pos_of_ne_zero hmag) hfin
  have hval (y : F32) : f32Val y = withSign (f32Neg y) (f32Mag y) := by rw [f32Val_eq_withSign, f32Mag_eq_lowMag]
  have hnum : withSign (f32Neg a) (f32Mag a * 2 ^ 149) = f32Val a * 2 ^ 149 := by
    rw [← withSign_mul_natCast, ← hval, Int.natCast_pow]
    rfl
  cases hsign : f32Neg b
  · rw [hsign, Bool.bne_false, hnum] at hnear
    rw [hval b, hsign, withSign_false]
    exact hnear
  · rw [hsign, Bool.bne_true, withSign_not, hnum] at hnear
    rw [hval b, hsign, withSign_true, ← Int.neg_neg (f32Val a * 2 ^ 149)]
    exact isNearest_neg hnear

/-- Settles O25: each operation is the exact result rounded once. -/
theorem arithmeticIsCorrectlyRounded : Obligations.ArithmeticIsCorrectlyRounded := by
  intro a b ha hb
  exact ⟨(isRounded_fadd ha hb).isNearest Nat.one_pos, (isRounded_fsub ha hb).isNearest Nat.one_pos,
    (isRounded_fmul ha hb).isNearest (Nat.two_pow_pos 149), isNearest_fdiv ha hb⟩

/-! ### Infinities, zeros and NaN -/

theorem signedInf_eq (neg : Bool) : signedInf neg = f32Make neg 0x7F800000 := by
  cases neg
  · rfl
  · rfl

theorem signedZero_eq (neg : Bool) : signedZero neg = f32Make neg 0 := by
  cases neg
  · rfl
  · rfl

theorem eq_signedInf {a : F32} (h : f32IsInf a = true) : a = signedInf (f32Neg a) := by
  rw [signedInf_eq]
  refine f32_ext ?_ ?_
  · rw [f32Neg_f32Make (by decide)]
  · rw [f32Low_f32Make (by decide), (f32IsInf_iff a).mp h]

theorem f32Mag_ne_zero_of_inf {a : F32} (h : f32IsInf a = true) : f32Mag a ≠ 0 := by
  rw [f32Mag_eq_lowMag, (f32IsInf_iff a).mp h]
  exact Nat.ne_of_gt (lowMag_zero ▸ lowMag_strictMono (show 0 < 0x7F800000 by decide))

theorem b32_nan {a b : F32} (h : f32IsNaN a = true ∨ f32IsNaN b = true) :
    fadd a b = 0x7FC00000#32 ∧ fsub a b = 0x7FC00000#32 ∧ fmul a b = 0x7FC00000#32 ∧ fdiv a b = 0x7FC00000#32 := by
  have hor : (f32IsNaN a || f32IsNaN b) = true := (Bool.or_eq_true _ _).mpr h
  have hor' : (f32IsNaN a || f32IsNaN (fneg b)) = true := by rwa [f32IsNaN_fneg]
  rw [fadd_eq, b32Add, fsub_eq, b32Sub, b32Add, fmul_eq, b32Mul, fdiv_eq, b32Div, if_pos hor, if_pos hor, if_pos hor,
    if_pos hor']
  exact ⟨rfl, rfl, rfl, rfl⟩

section
variable {a b : F32} (hna : f32IsNaN a = false) (hnb : f32IsNaN b = false)
include hna hnb

theorem fadd_of_inf_left (ha : f32IsInf a = true) :
    fadd a b = if f32IsInf b && f32Neg a != f32Neg b then 0x7FC00000#32 else a := by
  rw [fadd_eq, b32Add, hna, hnb, ha]
  rfl

theorem fadd_of_inf_right (ha : f32IsInf a = false) (hb : f32IsInf b = true) : fadd a b = b := by
  rw [fadd_eq, b32Add, hna, hnb, ha, hb]
  rfl

theorem fmul_of_inf (h : (f32IsInf a || f32IsInf b) = true) :
    fmul a b = if f32Mag a = 0 ∨ f32Mag b = 0 then 0x7FC00000#32 else signedInf (f32Neg a != f32Neg b) := by
  rw [fmul_eq, b32Mul, hna, hnb, h, signedInf_eq]
  rfl

theorem fdiv_of_inf_left (ha : f32IsInf a = true) :
    fdiv a b = if f32IsInf b then 0x7FC00000#32 else signedInf (f32Neg a != f32Neg b) := by
  rw [fdiv_eq, b32Div, hna, hnb, ha, signedInf_eq]
  rfl

theorem fdiv_of_inf_right (ha : f32IsInf a = false) (hb : f32IsInf b = true) :
    fdiv a b = signedZero (f32Neg a != f32Neg b) := by
  rw [fdiv_eq, b32Div, hna, hnb, ha, hb, signedZero_eq]
  rfl

theorem fdiv_of_zero (ha : f32IsInf a = false) (hb : f32IsInf b = false) (h0 : f32Mag b = 0) :
    fdiv a b = if f32Mag a = 0 then 0x7FC00000#32 else signedInf (f32Neg a != f32Neg b) := by
  rw [fdiv_eq, b32Div, hna, hnb, ha, hb, if_pos h0, signedInf_eq]
  rfl
end

/-- A rounded sum: no NaN, an infinity from half a unit above the largest finite value on, its sign that of the sum. -/
theorem IsRounded.overflow {v : Int} {r : F32} (h : IsRounded v 1 r) :
    f32IsNaN r = false ∧ (f32IsInf r = true ↔ (2 ^ 25 - 1) * 2 ^ 252 ≤ v.natAbs) ∧
      (v ≠ 0 → f32Neg r = decide (v < 0)) :=
  ⟨h.not_nan, (h.isInf_iff Nat.one_pos).trans (by rw [Nat.mul_one]), h.sign⟩

theorem fsub_eq_fadd (a b : F32) : fsub a b = fadd a (fneg b) := by rw [fsub_eq, b32Sub, fadd_eq]

section
variable {a b : F32} (ha : f32IsFinite a = true) (hb : f32IsFinite b = true)
include ha hb

theorem fadd_eq_zero (h : f32Val a + f32Val b = 0) : fadd a b = signedZero (f32Neg a && f32Neg b) := by
  rw [fadd_of_finite ha hb, if_pos h, signedZero_eq]

theorem fmul_overflow : f32IsNaN (fmul a b) = false ∧
    (f32IsInf (fmul a b) = true ↔ (2 ^ 25 - 1) * 2 ^ 401 ≤ (f32Val a * f32Val b).natAbs) ∧
    f32Neg (fmul a b) = (f32Neg a != f32Neg b) := by
  have hround := isRounded_fmul ha hb
  refine ⟨hround.not_nan, (hround.isInf_iff (Nat.two_pow_pos 149)).trans ?_, ?_⟩
  · rw [show (401 : Nat) = 252 + 149 from rfl, Nat.pow_add, ← Nat.mul_assoc]
  · rw [fmul_of_finite ha hb, f32Neg_f32Make (roundLow_lt _ _)]

theorem fdiv_overflow (hne : f32Val b ≠ 0) : f32IsNaN (fdiv a b) = false ∧
    (f32IsInf (fdiv a b) = true ↔ (2 ^ 25 - 1) * 2 ^ 252 * (f32Val b).natAbs ≤ (f32Val a).natAbs * 2 ^ 149) ∧
    f32Neg (fdiv a b) = (f32Neg a != f32Neg b) := by
  have hmag : f32Mag b ≠ 0 := fun h => hne ((f32Mag_eq_zero_iff b).mp h)
  have hround := isRounded_fdiv ha hb hmag
  refine ⟨hround.not_nan, (hround.isInf_iff (Nat.pos_of_ne_zero hmag)).trans ?_, ?_⟩
  · rw [natAbs_withSign, natAbs_f32Val, natAbs_f32Val]
  · rw [fdiv_of_finite ha hb hmag, f32Neg_f32Make (roundLow_lt _ _)]
end

/-- Settles O26: the finite results are rounded quotients, the others are the branches of the operations. -/
theorem overflowAndNanFollowTheFormat : Obligations.OverflowAndNanFollowTheFormat := by
  intro a b
  refine ⟨fun ha hb => ⟨?_, ?_, fmul_overflow ha hb, fdiv_overflow ha hb, fun h0 hne => ?_, fun h0 h0' => ?_⟩,
    fun ha hb => ?_, fun ha hb => ?_, fun ha hb => ?_, b32_nan⟩
  · obtain ⟨hnan, hinf, hsign⟩ := (isRounded_fadd ha hb).overflow
    exact ⟨hnan, hinf, hsign, fadd_eq_zero ha hb⟩
  · obtain ⟨hnan, hinf, hsign⟩ := (isRounded_fsub ha hb).overflow
    refine ⟨hnan, hinf, hsign, fun h => ?_⟩
    rw [fsub_eq_fadd, fadd_eq_zero ha (by rw [f32IsFinite_fneg, hb]), f32Neg_fneg]
    rw [f32Val_fneg]
    omega
  · rw [fdiv_of_zero (not_nan_of_finite ha) (not_nan_of_finite hb) (not_inf_of_finite ha) (not_inf_of_finite hb)
      ((f32Mag_eq_zero_iff b).mpr h0), if_neg (mt (f32Mag_eq_zero_iff a).mp hne)]
  · rw [fdiv_of_zero (not_nan_of_finite ha) (not_nan_of_finite hb) (not_inf_of_finite ha) (not_inf_of_finite hb)
      ((f32Mag_eq_zero_iff b).mpr h0), if_pos ((f32Mag_eq_zero_iff a).mpr h0')]
  · have hna := not_nan_of_inf ha
    have hnb := not_nan_of_inf hb
    have hnb' : f32IsNaN (fneg b) = false := by rw [f32IsNaN_fneg, hnb]
    rw [fsub_eq_fadd, fadd_of_inf_left hna hnb ha, fadd_of_inf_left hna hnb' ha,
      fmul_of_inf hna hnb (by rw [ha]; rfl), fdiv_of_inf_left hna hnb ha, f32IsInf_fneg, hb, f32Neg_fneg,
      if_neg (not_or.mpr ⟨f32Mag_ne_zero_of_inf ha, f32Mag_ne_zero_of_inf hb⟩)]
    by_cases hsame : f32Neg a = f32Neg b
    · simp [hsame]
    · have hopposite : f32Neg a = !f32Neg b := Bool.eq_not_of_ne hsame
      simp [hopposite]
  · have hna := not_nan_of_inf ha
    have hnb := not_nan_of_finite hb
    have hnb' : f32IsNaN (fneg b) = false := by rw [f32IsNaN_fneg, hnb]
    rw [fsub_eq_fadd, fadd_of_inf_left hna hnb ha, fadd_of_inf_left hna hnb' ha,
      fmul_of_inf hna hnb (by rw [ha]; rfl), fdiv_of_inf_left hna hnb ha, f32IsInf_fneg, not_inf_of_finite hb]
    refine ⟨rfl, rfl, if_congr ?_ rfl rfl, rfl⟩
    rw [f32Mag_eq_zero_iff b]
    exact or_iff_right (f32Mag_ne_zero_of_inf ha)
  · have hna := not_nan_of_finite ha
    have hnb := not_nan_of_inf hb
    have hb' : f32IsInf (fneg b) = true := by rw [f32IsInf_fneg, hb]
    rw [fsub_eq_fadd, fadd_of_inf_right hna hnb (not_inf_of_finite ha) hb,
      fadd_of_inf_right hna (not_nan_of_inf hb') (not_inf_of_finite ha) hb',
      fmul_of_inf hna hnb (by rw [hb, Bool.or_true]), fdiv_of_inf_right hna hnb (not_inf_of_finite ha) hb]
    refine ⟨rfl, ?_, if_congr ?_ rfl rfl, rfl⟩
    · rw [← f32Neg_fneg]
      exact eq_signedInf hb'
    · rw [f32Mag_eq_zero_iff a]
      exact or_iff_left (f32Mag_ne_zero_of_inf hb)

/-! ### Conversions -/

/-- An integer below 2^24 in magnitude converts to exactly its value (R133). -/
theorem i2f_exact {n : Int} (h : n.natAbs < 0x1000000) :
    f32IsFinite (i2f n) = true ∧ f32Val (i2f n) = n * 2 ^ 149 :=
  (isRounded_i2f n).exact Nat.one_pos (isF32_ofInt h) (Int.mul_one _).symm

theorem f2i_eq_tdiv {a : F32} (hnan : f32IsNaN a = false) {n : Nat} (h : f32Mag a / 2 ^ 149 = n) (hn : n < 0x7FFFFFFF) :
    f2i a = withSign (f32Neg a) n := by
  rw [f2i_eq, b32ToInt, hnan, h, withSign, Nat.min_eq_left (by omega), Nat.min_eq_left (by omega)]
  rfl

/-- Settles O27: the integer's multiple of 2^149 is an f32 value, and dividing it back is exact. -/
theorem smallIntegersConvertExactly : Obligations.SmallIntegersConvertExactly := by
  intro n hlo hhi
  have habs : n.natAbs < 0x1000000 := by omega
  obtain ⟨hfin, hval⟩ := i2f_exact habs
  refine ⟨hval, ?_⟩
  have hmag : f32Mag (i2f n) / 2 ^ 149 = n.natAbs := by
    rw [← natAbs_f32Val, hval, Int.natAbs_mul, Int.natAbs_pow]
    exact Nat.mul_div_cancel _ (Nat.two_pow_pos 149)
  rw [f2i_eq_tdiv (not_nan_of_finite hfin) hmag (by omega)]
  have hsign : f32Neg (i2f n) = decide (n < 0) := by
    rw [i2f_eq, b32OfInt, f32Neg_f32Make (roundLow_lt _ _)]
  rw [hsign, withSign]
  split
  next hneg => have := of_decide_eq_true hneg; omega
  next hneg => have := of_decide_eq_false (Bool.eq_false_iff.mpr hneg); omega

end Sys2Proof.Machine

/-!
The quantiser and the uniform distance (R150 to R152): sums and products whose exact result is an f32 value are exact.
-/
namespace Sys2Proof.Machine

/-! ### The quantiser -/

/-- A positive f32 of a significand and its excess bits. -/
theorem f32Val_of_significand {a : F32} {e m : Nat} (hm : m ≤ 0x1000000) (he : e = 0 ∨ 0x800000 ≤ m)
    (hlt : a.toNat < 0x80000000) (ha : a.toNat = e * 0x800000 + m) : f32Val a = ((m * 2 ^ e : Nat) : Int) := by
  have hneg : f32Neg a = false := decide_eq_false (Nat.not_le.mpr hlt)
  have hlow : f32Low a = e * 0x800000 + m := (Nat.mod_eq_of_lt hlt).trans ha
  rw [f32Val_eq_withSign, hneg, hlow, lowMag_scaled hm he, withSign_false]

theorem f32Val_f0 : f32Val f0 = 0 :=
  f32Val_of_significand (e := 0) (m := 0) (by decide) (.inl rfl) (by decide) rfl

theorem f32Val_f1 : f32Val f1 = 2 ^ 149 :=
  (f32Val_of_significand (e := 126) (m := 0x800000) (by decide) (.inr (by decide)) (by decide) rfl).trans (by norm_num)

theorem f32Val_fHalf : f32Val fHalf = 2 ^ 148 :=
  (f32Val_of_significand (e := 125) (m := 0x800000) (by decide) (.inr (by decide)) (by decide) rfl).trans (by norm_num)

theorem f32Val_f16 : f32Val f16 = 16 * 2 ^ 149 :=
  (f32Val_of_significand (e := 130) (m := 0x800000) (by decide) (.inr (by decide)) (by decide) rfl).trans (by norm_num)

theorem f32Val_f255 : f32Val f255 = 255 * 2 ^ 149 :=
  (f32Val_of_significand (e := 133) (m := 0xFF0000) (by decide) (.inr (by decide)) (by decide) rfl).trans (by norm_num)

theorem finite_f0 : f32IsFinite f0 = true := by decide
theorem finite_f1 : f32IsFinite f1 = true := by decide
theorem finite_fHalf : f32IsFinite fHalf = true := by decide

theorem isF32_zero : IsF32 0 := ⟨f0, finite_f0, f32Val_f0⟩

theorem isF32_one : IsF32 (2 ^ 149) := ⟨f1, finite_f1, f32Val_f1⟩

/-- Clamping gives a finite value from 0 to 1, also from a NaN and an infinity (R135). -/
theorem clamp01_spec (x : F32) :
    f32IsFinite (clamp01 x) = true ∧ 0 ≤ f32Val (clamp01 x) ∧ f32Val (clamp01 x) ≤ 2 ^ 149 := by
  have hmax : f32IsNaN (fmax f0 x) = false ∧ 0 ≤ f32Val (fmax f0 x) := by
    rw [fmax]
    split
    next h =>
      obtain ⟨-, hx, hlt⟩ := (flt_iff f0 x).mp h
      rw [f32Val_f0] at hlt
      exact ⟨hx, Int.le_of_lt hlt⟩
    next => exact ⟨by decide, by rw [f32Val_f0]⟩
  obtain ⟨hnan, hpos⟩ := hmax
  rw [clamp01, fmin]
  split
  next => exact ⟨finite_f1, by rw [f32Val_f1]; decide, by rw [f32Val_f1]⟩
  next h =>
    have hle := (flt_eq_false_iff (not_nan_of_finite finite_f1) hnan).mp (Bool.eq_false_iff.mpr h)
    rw [f32Val_f1] at hle
    refine ⟨(f32IsFinite_iff _).mpr (lowMag_strictMono.lt_iff_lt.mp ?_), hpos, hle⟩
    have hone : 2 ^ 149 < lowMag 0x7F800000 := by
      have hlt := lowMag_strictMono (show f32Low f1 < 0x7F800000 by decide)
      rwa [← f32Mag_eq_lowMag, ← natAbs_f32Val, f32Val_f1] at hlt
    rw [← f32Mag_eq_lowMag, ← natAbs_f32Val]
    omega

/-- Finite, from 0 to 1. -/
def InUnit (r : F32) : Prop := f32IsFinite r = true ∧ 0 ≤ f32Val r ∧ f32Val r ≤ 2 ^ 149

theorem inUnit_f0 : InUnit f0 := ⟨finite_f0, by rw [f32Val_f0], by rw [f32Val_f0]; decide⟩

/-- The quotient of a number by one at least as large is from 0 to 1. -/
theorem inUnit_fdiv {a b : F32} (ha : f32IsFinite a = true) (hb : f32IsFinite b = true) (h0 : 0 ≤ f32Val a)
    (hle : f32Val a ≤ f32Val b) (hpos : 0 < f32Val b) : InUnit (fdiv a b) := by
  have hnat : (((f32Val b).natAbs : Nat) : Int) = f32Val b := by omega
  refine (isRounded_fdiv_of_pos ha hb hpos).between (by omega) isF32_zero isF32_one
    ?_ ?_
  · omega
  · rw [hnat]
    omega

/-- Clamping leaves what is from 0 to 1. -/
theorem f32Val_clamp01 {x : F32} (hx : InUnit x) : f32Val (clamp01 x) = f32Val x := by
  obtain ⟨hfin, h0, h1⟩ := hx
  have hnan := not_nan_of_finite hfin
  have hmax : f32IsNaN (fmax f0 x) = false ∧ f32Val (fmax f0 x) = f32Val x := by
    rw [fmax]
    split
    next => exact ⟨hnan, rfl⟩
    next h =>
      have hle := (flt_eq_false_iff (not_nan_of_finite finite_f0) hnan).mp (Bool.eq_false_iff.mpr h)
      exact ⟨not_nan_of_finite finite_f0, Int.le_antisymm (by rwa [f32Val_f0]) hle⟩
  obtain ⟨hmaxnan, hmaxval⟩ := hmax
  have hnot : flt f1 (fmax f0 x) = false := by
    rwa [flt_eq_false_iff (not_nan_of_finite finite_f1) hmaxnan, hmaxval, f32Val_f1]
  rw [clamp01, fmin, hnot, if_neg Bool.false_ne_true, hmaxval]

/-! ### The stages of the quantiser -/

theorem natDist_mul_right (a b k : Nat) : natDist (a * k) (b * k) = natDist a b * k := by
  rw [natDist, natDist, Nat.add_mul, Nat.sub_mul, Nat.sub_mul]

/-- An error bound with a common factor removed. -/
theorem natDist_bound_of_mul {a b c k : Nat} (hk : 0 < k)
    (h : 2 ^ 24 * natDist (a * k) (b * k) ≤ b * k + 2 ^ 23 * (c * k)) : 2 ^ 24 * natDist a b ≤ b + 2 ^ 23 * c := by
  rw [natDist_mul_right, ← Nat.mul_assoc, ← Nat.mul_assoc, ← Nat.add_mul] at h
  exact Nat.le_of_mul_le_mul_right h hk

theorem f32Val_eq_mag {a : F32} (h : 0 ≤ f32Val a) : f32Val a = (f32Mag a : Int) := by
  rw [← natAbs_f32Val]
  omega

/-- The quotient of two small integers: its error (R131). -/
theorem fdiv_nat_error {q M : Nat} {d : F32} (hd : f32IsFinite d = true) (hval : f32Val d = ((M * 2 ^ 149 : Nat) : Int))
    (h0 : 0 < M) (hq : q < 0x1000000) (hfin : f32IsFinite (fdiv (i2f q) d) = true) :
    2 ^ 24 * natDist (f32Mag (fdiv (i2f q) d) * M) (q * 2 ^ 149) ≤ q * 2 ^ 149 + 2 ^ 23 * M := by
  obtain ⟨hnfin, hnval⟩ := i2f_exact (n := (q : Int)) (by omega)
  have hmagq : f32Mag (i2f q) = q * 2 ^ 149 := by
    rw [← natAbs_f32Val, hnval, Int.natAbs_mul, Int.natAbs_pow, Int.natAbs_natCast]
    rfl
  have hmagd : f32Mag d = M * 2 ^ 149 := by rw [← natAbs_f32Val, hval, Int.natAbs_natCast]
  have herror := (isRounded_fdiv_of_pos hnfin hd (by rw [hval]; omega)).error (by rw [hval]; omega) hfin
  rw [Int.natAbs_mul, Int.natAbs_pow, natAbs_f32Val, natAbs_f32Val, hmagq, hmagd, ← Nat.mul_assoc] at herror
  exact natDist_bound_of_mul (Nat.two_pow_pos 149) herror

/-- The scaled clamp: its bounds and its error. -/
theorem fmul_nat_spec {N : Nat} (hN : N < 0x1000000) {c : F32} (hc : InUnit c) :
    f32IsFinite (fmul (i2f N) c) = true ∧ 0 ≤ f32Val (fmul (i2f N) c) ∧ f32Val (fmul (i2f N) c) ≤ N * 2 ^ 149 ∧
      2 ^ 24 * natDist (f32Mag (fmul (i2f N) c)) (N * f32Mag c) ≤ N * f32Mag c + 2 ^ 23 := by
  obtain ⟨hcfin, hc0, hc1⟩ := hc
  obtain ⟨hnfin, hnval⟩ := i2f_exact (n := (N : Int)) (by omega)
  have hround := isRounded_fmul hnfin hcfin
  rw [hnval] at hround
  have hscale : (0 : Int) ≤ N * 2 ^ 149 := Int.mul_nonneg (Int.natCast_nonneg N) (by decide)
  have hprod := hround.between (Nat.two_pow_pos 149) isF32_zero (isF32_ofInt (n := (N : Int)) (by omega))
    (by rw [Int.zero_mul]; exact Int.mul_nonneg hscale hc0)
    (by rw [Int.natCast_pow]; exact Int.mul_le_mul_of_nonneg_left hc1 hscale)
  obtain ⟨hpfin, hp0, hp1⟩ := hprod
  refine ⟨hpfin, hp0, hp1, ?_⟩
  have herror := hround.error (Nat.two_pow_pos 149) hpfin
  rw [Int.natAbs_mul, Int.natAbs_mul, Int.natAbs_pow, natAbs_f32Val, Int.natAbs_natCast, Nat.mul_right_comm] at herror
  exact natDist_bound_of_mul (c := 1) (Nat.two_pow_pos 149) (by rwa [Nat.one_mul])

/-- The added half: its bounds and its error. -/
theorem fadd_half_spec {N : Nat} (hN : N < 0x7FFFFF) {p : F32} (hfin : f32IsFinite p = true) (h0 : 0 ≤ f32Val p)
    (h1 : f32Val p ≤ N * 2 ^ 149) :
    f32IsFinite (fadd p fHalf) = true ∧ 0 ≤ f32Val (fadd p fHalf) ∧ f32Mag (fadd p fHalf) ≤ (2 * N + 1) * 2 ^ 148 ∧
      2 ^ 24 * natDist (f32Mag (fadd p fHalf)) (f32Mag p + 2 ^ 148) ≤ f32Mag p + 2 ^ 148 + 2 ^ 23 := by
  have hround := isRounded_fadd hfin finite_fHalf
  have htop : IsF32 (((2 * N + 1) * 2 ^ 148 : Nat) : Int) := isF32_scaled (by omega) (by decide)
  rw [f32Val_fHalf] at hround
  obtain ⟨hsfin, hs0, hs1⟩ := hround.between Nat.one_pos isF32_zero htop (by omega) (by omega)
  rw [f32Val_eq_mag hs0] at hs1
  refine ⟨hsfin, hs0, by omega, ?_⟩
  have herror := hround.error Nat.one_pos hsfin
  have hnum : (f32Val p + 2 ^ 148).natAbs = f32Mag p + 2 ^ 148 := by
    rw [f32Val_eq_mag h0]
    omega
  rwa [hnum, Nat.mul_one, Nat.mul_one] at herror

/-- Truncation of a value that is not negative, below the saturation. -/
theorem toNat_f2i {a : F32} (hfin : f32IsFinite a = true) (h0 : 0 ≤ f32Val a) (h : f32Mag a / 2 ^ 149 < 0x7FFFFFFF) :
    (f2i a).toNat = f32Mag a / 2 ^ 149 := by
  have htrunc := f2i_eq_tdiv (not_nan_of_finite hfin) rfl h
  have hmag := f32Val_eq_mag h0
  rw [htrunc]
  cases hneg : f32Neg a with
  | false => rw [withSign_false, Int.toNat_natCast]
  | true =>
    rw [f32Val_eq_withSign, hneg, withSign_true, ← f32Mag_eq_lowMag] at hmag
    have hzero : f32Mag a = 0 := by omega
    rw [hzero, Nat.zero_div, withSign_zero]
    rfl

/-- The quantiser of any value, by its clamp: the stages `P` and `S` before truncation (R150). -/
theorem exists_quantize_stages {n N : Nat} (hN : 2 ^ n - 1 = N) (hsmall : N < 0x7FFFFF) (x : F32) :
    ∃ P S : Nat, quantize x n = S / 2 ^ 149 ∧ S ≤ (2 * N + 1) * 2 ^ 148 ∧
      2 ^ 24 * natDist P (N * f32Mag (clamp01 x)) ≤ N * f32Mag (clamp01 x) + 2 ^ 23 ∧
      2 ^ 24 * natDist S (P + 2 ^ 148) ≤ P + 2 ^ 148 + 2 ^ 23 := by
  obtain ⟨hpfin, hp0, hp1, hperr⟩ := fmul_nat_spec (N := N) (by omega) (clamp01_spec x)
  obtain ⟨hsfin, hs0, hs1, hserr⟩ := fadd_half_spec hsmall hpfin hp0 hp1
  refine ⟨_, _, ?_, hs1, hperr, hserr⟩
  rw [quantize, hN]
  exact toNat_f2i hsfin hs0 (by omega)

theorem quantize_le {n N : Nat} (hN : 2 ^ n - 1 = N) (hsmall : N < 0x7FFFFF) (x : F32) : quantize x n ≤ N := by
  obtain ⟨-, S, hquant, hS, -⟩ := exists_quantize_stages hN hsmall x
  omega

/-- The quantiser of a quotient `q / M` of integers, by its stages: each has the error of one rounding. -/
theorem exists_quantize_quotient {n N M q : Nat} {d : F32} (hN : 2 ^ n - 1 = N) (hsmall : N < 0x7FFFFF)
    (hd : f32IsFinite d = true) (hval : f32Val d = ((M * 2 ^ 149 : Nat) : Int)) (h0 : 0 < M) (hM : M < 0x1000000)
    (hq : q ≤ M) :
    ∃ X P S : Nat, quantize (fdiv (i2f (q : Int)) d) n = S / 2 ^ 149 ∧
      2 ^ 24 * natDist (X * M) (q * 2 ^ 149) ≤ q * 2 ^ 149 + 2 ^ 23 * M ∧
      2 ^ 24 * natDist P (N * X) ≤ N * X + 2 ^ 23 ∧ 2 ^ 24 * natDist S (P + 2 ^ 148) ≤ P + 2 ^ 148 + 2 ^ 23 := by
  obtain ⟨hnfin, hnval⟩ := i2f_exact (n := (q : Int)) (by omega)
  have hunit : InUnit (fdiv (i2f (q : Int)) d) := inUnit_fdiv hnfin hd (by omega) (by omega) (by omega)
  have hmag : f32Mag (clamp01 (fdiv (i2f (q : Int)) d)) = f32Mag (fdiv (i2f (q : Int)) d) := by
    rw [← natAbs_f32Val, f32Val_clamp01 hunit, natAbs_f32Val]
  obtain ⟨P, S, hquant, -, hperr, hserr⟩ := exists_quantize_stages hN hsmall (fdiv (i2f (q : Int)) d)
  rw [hmag] at hperr
  exact ⟨_, P, S, hquant, fdiv_nat_error hd hval h0 (by omega) hunit.1, hperr, hserr⟩

theorem f32Val_f31 : f32Val f31 = ((31 * 2 ^ 149 : Nat) : Int) :=
  (f32Val_of_significand (e := 130) (m := 0xF80000) (by decide) (.inr (by decide)) (by decide) rfl).trans (by norm_num)

theorem f32Val_f63 : f32Val f63 = ((63 * 2 ^ 149 : Nat) : Int) :=
  (f32Val_of_significand (e := 131) (m := 0xFC0000) (by decide) (.inr (by decide)) (by decide) rfl).trans (by norm_num)

/-- A five-bit grid value comes back: the roundings move it by less than half a step. -/
theorem quantize_grid_five (r : BitVec 5) : quantize (fdiv (i2f (r.toNat : Int)) f31) 5 = r.toNat := by
  have hr : r.toNat < 32 := r.isLt
  obtain ⟨X, P, S, hquant, hX, hP, hS⟩ := exists_quantize_quotient (n := 5) (N := 31) rfl (by decide) (by decide)
    f32Val_f31 (by decide) (by decide) (show r.toNat ≤ 31 by omega)
  rw [hquant]
  simp only [natDist] at hX hP hS
  omega

theorem quantize_grid_six (g : BitVec 6) : quantize (fdiv (i2f (g.toNat : Int)) f63) 6 = g.toNat := by
  have hg : g.toNat < 64 := g.isLt
  obtain ⟨X, P, S, hquant, hX, hP, hS⟩ := exists_quantize_quotient (n := 6) (N := 63) rfl (by decide) (by decide)
    f32Val_f63 (by decide) (by decide) (show g.toNat ≤ 63 by omega)
  rw [hquant]
  simp only [natDist] at hX hP hS
  omega

/-- The quantiser gives a grid value back (R150, R136 P6). -/
theorem q565_grid (q : Rgb565) : q565 (grid q) = q := by
  simp only [q565, grid, quantize_grid_five, quantize_grid_six, BitVec.ofNat_toNat, BitVec.setWidth_eq]

/-- Settles O28: the scaled clamp plus a half is below the next integer, and a grid value comes back. -/
theorem quantiserIsInRangeAndKeepsTheGrid : Obligations.QuantiserIsInRangeAndKeepsTheGrid :=
  ⟨fun x => ⟨quantize_le rfl (by decide) x, quantize_le rfl (by decide) x⟩, q565_grid⟩

/-- The exact quotient plus a half is at least 1/510 from every integer, which the roundings do not reach (R151). -/
theorem quantize_channel_five (c : Byte) :
    quantize (fdiv (i2f (c.toNat : Int)) f255) 5 = (62 * c.toNat + 255) / 510 := by
  have hc : c.toNat < 256 := c.isLt
  obtain ⟨X, P, S, hquant, hX, hP, hS⟩ := exists_quantize_quotient (n := 5) (N := 31) rfl (by decide) (by decide)
    f32Val_f255 (by decide) (by decide) (show c.toNat ≤ 255 by omega)
  rw [hquant]
  simp only [natDist] at hX hP hS
  omega

theorem quantize_channel_six (c : Byte) :
    quantize (fdiv (i2f (c.toNat : Int)) f255) 6 = (126 * c.toNat + 255) / 510 := by
  have hc : c.toNat < 256 := c.isLt
  obtain ⟨X, P, S, hquant, hX, hP, hS⟩ := exists_quantize_quotient (n := 6) (N := 63) rfl (by decide) (by decide)
    f32Val_f255 (by decide) (by decide) (show c.toNat ≤ 255 by omega)
  rw [hquant]
  simp only [natDist] at hX hP hS
  omega

/-- Settles O29: the quantised quotient in integers, channel by channel. -/
theorem coloursQuantiseByIntegers : Obligations.ColoursQuantiseByIntegers := by
  intro p
  have hr : p.r.toNat < 256 := p.r.isLt
  have hg : p.g.toNat < 256 := p.g.isLt
  have hb : p.b.toNat < 256 := p.b.isLt
  simp only [q565, col, quantize_channel_five, quantize_channel_six, BitVec.toNat_ofNat]
  omega

/-! ### Exact integer arithmetic -/

/-- The f32 of an integer below 2^24 in magnitude, +0 for 0. -/
def IsInt (a : F32) (n : Int) : Prop :=
  f32IsFinite a = true ∧ f32Val a = n * 2 ^ 149 ∧ f32Neg a = decide (n < 0)

theorem isInt_i2f {n : Int} (h : n.natAbs < 0x1000000) : IsInt (i2f n) n := by
  obtain ⟨hfin, hval⟩ := i2f_exact h
  exact ⟨hfin, hval, by rw [i2f_eq, b32OfInt, f32Neg_f32Make (roundLow_lt _ _)]⟩

theorem IsInt.eq {a b : F32} {n : Int} (ha : IsInt a n) (hb : IsInt b n) : a = b := by
  obtain ⟨-, hval, hneg⟩ := ha
  obtain ⟨-, hval', hneg'⟩ := hb
  exact eq_of_f32Val_eq (hval.trans hval'.symm) (hneg.trans hneg'.symm)

/-- A sum of natural numbers below 2^24 is exact (R136 P1). -/
theorem IsInt.fadd {a b : F32} {m n : Nat} (ha : IsInt a m) (hb : IsInt b n) (h : m + n < 0x1000000) :
    IsInt (fadd a b) (m + n : Nat) := by
  obtain ⟨hafin, haval, haneg⟩ := ha
  obtain ⟨hbfin, hbval, hbneg⟩ := hb
  have hsum : f32Val a + f32Val b = ((m + n : Nat) : Int) * 2 ^ 149 := by
    rw [haval, hbval, Int.natCast_add, Int.add_mul]
  obtain ⟨hfin, hval⟩ := (isRounded_fadd hafin hbfin).exact Nat.one_pos (isF32_ofInt (n := ((m + n : Nat) : Int)) h)
    (hsum.trans (Int.mul_one _).symm)
  refine ⟨hfin, hval, ?_⟩
  rw [fadd_of_finite hafin hbfin, haneg, hbneg]
  split
  next =>
    rw [f32Neg_f32Make (by decide), decide_eq_false (Int.not_lt.mpr (Int.natCast_nonneg m)), Bool.false_and]
    exact (decide_eq_false (Int.not_lt.mpr (Int.natCast_nonneg _))).symm
  next =>
    rw [f32Neg_f32Make (roundLow_lt _ _), hsum]
    exact decide_eq_decide.mpr (by omega)

/-- A square below 2^24 is exact. -/
theorem IsInt.fmul_self {a : F32} {n : Int} (ha : IsInt a n) (h : n.natAbs ^ 2 < 0x1000000) :
    IsInt (fmul a a) (n.natAbs ^ 2 : Nat) := by
  obtain ⟨hafin, haval, -⟩ := ha
  have hprod : f32Val a * f32Val a = ((n.natAbs ^ 2 : Nat) : Int) * 2 ^ 149 * ((2 ^ 149 : Nat) : Int) := by
    rw [haval, Int.natCast_pow, Int.natAbs_sq, Int.natCast_pow]
    generalize (2 : Int) ^ 149 = unit
    ring
  obtain ⟨hfin, hval⟩ := (isRounded_fmul hafin hafin).exact (Nat.two_pow_pos 149)
    (isF32_ofInt (n := ((n.natAbs ^ 2 : Nat) : Int)) h) hprod
  refine ⟨hfin, hval, ?_⟩
  rw [fmul_of_finite hafin hafin, f32Neg_f32Make (roundLow_lt _ _), bne_self_eq_false]
  exact (decide_eq_false (by omega)).symm

/-- A product by 1.0 is exact. -/
theorem IsInt.f1_mul {a : F32} {n : Int} (ha : IsInt a n) (h : n.natAbs < 0x1000000) : IsInt (fmul f1 a) n := by
  obtain ⟨hafin, haval, haneg⟩ := ha
  have hprod : f32Val f1 * f32Val a = n * 2 ^ 149 * ((2 ^ 149 : Nat) : Int) := by
    rw [f32Val_f1, haval, Int.natCast_pow, Int.mul_comm]
    rfl
  obtain ⟨hfin, hval⟩ := (isRounded_fmul finite_f1 hafin).exact (Nat.two_pow_pos 149) (isF32_ofInt h) hprod
  refine ⟨hfin, hval, ?_⟩
  rw [fmul_of_finite finite_f1 hafin, f32Neg_f32Make (roundLow_lt _ _), haneg,
    show f32Neg f1 = false by decide, Bool.false_bne]

/-! ### The uniform distance -/

theorem natAbs_sub_eq_natDist (a b : Nat) : ((a : Int) - (b : Int)).natAbs = natDist a b := by
  rw [natDist]
  omega

theorem natDist_sq_le (p q : Byte) : natDist p.toNat q.toNat ^ 2 ≤ 255 ^ 2 := by
  have hp := p.isLt
  have hq := q.isLt
  refine Nat.pow_le_pow_left ?_ 2
  rw [natDist]
  omega

theorem isInt_sqDiff (p q : Byte) : IsInt (sqDiff f1 p q) (natDist p.toNat q.toNat ^ 2 : Nat) := by
  have hp := p.isLt
  have hq := q.isLt
  have hsmall : ((p.toNat : Int) - (q.toNat : Int)).natAbs < 0x1000000 := by omega
  have hsq := natDist_sq_le p q
  have hscaled := (isInt_i2f hsmall).f1_mul hsmall
  rw [sqDiff, ← natAbs_sub_eq_natDist]
  refine hscaled.fmul_self ?_
  rw [natAbs_sub_eq_natDist]
  omega

/-- Settles O30: differences, squares and sums of 8-bit channels are integers below 2^24. -/
theorem uniformDistanceIsExact : Obligations.UniformDistanceIsExact := by
  intro p q
  have hr := natDist_sq_le p.r q.r
  have hg := natDist_sq_le p.g q.g
  have hb := natDist_sq_le p.b q.b
  have hrg := (isInt_sqDiff p.r q.r).fadd (isInt_sqDiff p.g q.g) (by omega)
  have hrgb := hrg.fadd (isInt_sqDiff p.b q.b) (by omega)
  rw [metricDist, metricVec]
  exact hrgb.eq (isInt_i2f (by omega))

end Sys2Proof.Machine

/-!
The command word, both ways: the fields of a well-formed instruction assemble back to it, and what does not decode is
named by the check that stops it (R91, R92, R94, R96).
-/
namespace Sys2Proof

open Machine

/-! ### Fields and instruction -/

/-- A decoded pass count has four bits (R94). -/
theorem roWf_toNat (v : BitVec 4) : roWf v.toNat = true := by
  have hlt := v.isLt
  exact decide_eq_true (show v.toNat ≤ 15 by omega)

theorem fmtOfField_wf (v : BitVec 3) : (fmtOfField v).wf = true := by
  revert v
  decide

theorem fieldsOf_rsv (i : Instr) : (fieldsOf i).rsv = 0#8 := by cases i <;> rfl

theorem fieldsOf_op (i : Instr) : (fieldsOf i).op = i.opcode.code := by cases i <;> rfl

/-- The row's fields assemble to the instruction they were made from: each field map inverts its encoding. -/
theorem assemble_fieldsOf {i : Instr} (h : i.wf = true) : assemble i.opcode (fieldsOf i) = i := by
  cases i with
  | compress fmt fit met pt wa ro =>
    obtain ⟨hfmt, hro⟩ := Bool.and_eq_true_iff.mp h
    simp only [Instr.opcode, fieldsOf, assemble, fmtOfField_fieldOfFmt fmt hfmt, ro_field ro hro,
      fitOfField_fieldOfFit, metOfField_fieldOfMet, boolOfBit_bitOfBool]
  | decompress fmt => simp only [Instr.opcode, fieldsOf, assemble, fmtOfField_fieldOfFmt fmt h]
  | fitcluster lv met pt ro =>
    simp only [Instr.opcode, fieldsOf, assemble, ro_field ro h, lvOfField_fieldOfLv, metOfField_fieldOfMet,
      boolOfBit_bitOfBool]
  | nop | clrerr | sreset => rfl
  | _ => simp [Instr.opcode, fieldsOf, assemble]

theorem assemble_wf (op : Opcode) (f : Fields) : (assemble op f).wf = true := by
  cases op with
  | compress => exact Bool.and_eq_true_iff.mpr ⟨fmtOfField_wf f.fmt, roWf_toNat f.ro⟩
  | decompress => exact fmtOfField_wf f.fmt
  | fitcluster => exact roWf_toNat f.ro
  | _ => rfl

/-! ### Words -/

theorem decode_encode {i : Instr} (h : i.wf = true) : decode (encode i) = .ok i := by
  rw [decode, encode, Fields.ofWord_toWord, decodeFields_eq_ok_iff]
  exact ⟨fieldsOf_rsv i, i.opcode, by rw [fieldsOf_op, Opcode.ofByte_code], assemble_fieldsOf h⟩

theorem wf_of_decode {w : Word} {i : Instr} (h : decode w = .ok i) : i.wf = true := by
  obtain ⟨-, op, -, rfl⟩ := (decode_eq_ok_iff w i).mp h
  exact assemble_wf op _

theorem Opcode.ofByte_eq_none_iff (b : BitVec 8) : Opcode.ofByte b = none ↔ b ∉ opcodeBytes := by
  rw [← Opcode.exists_ofByte_iff, Option.eq_none_iff_forall_ne_some, not_exists]

/-- A word has one of three fates: reserved bits, an unlisted opcode, or a row's instruction (R92). -/
theorem decode_cases (w : Word) :
    (w.extractLsb' 24 8 ≠ 0#8 ∧ decode w = .error .reservedBits) ∨
    (w.extractLsb' 24 8 = 0#8 ∧ w.extractLsb' 0 8 ∉ opcodeBytes ∧ decode w = .error .unknownOpcode) ∨
    (w.extractLsb' 24 8 = 0#8 ∧ w.extractLsb' 0 8 ∈ opcodeBytes ∧ ∃ i, decode w = .ok i) := by
  by_cases hrsv : w.extractLsb' 24 8 = 0#8
  · by_cases hop : w.extractLsb' 0 8 ∈ opcodeBytes
    · exact .inr (.inr ⟨hrsv, hop, (exists_decode_eq_ok_iff w).mpr ⟨hrsv, hop⟩⟩)
    · have hnone := (Opcode.ofByte_eq_none_iff _).mpr hop
      exact .inr (.inl ⟨hrsv, hop, by simp [decode, decodeFields, Fields.ofWord, hrsv, hnone]⟩)
  · exact .inl ⟨hrsv, decode_reservedBits hrsv⟩

/-- Settles O1: the fields of the word are those of the instruction, and they assemble back to it. -/
theorem decodeOfEncodeIsTheInstruction : Obligations.DecodeOfEncodeIsTheInstruction := fun _ h => decode_encode h

/-- Settles O3: what decodes was assembled from fields, so it is well formed; the three fates of a word exclude each
other. -/
theorem decodeIsTotalAndNamesTheCause : Obligations.DecodeIsTotalAndNamesTheCause := by
  intro w
  refine ⟨fun i => wf_of_decode, ?_⟩
  rcases decode_cases w with ⟨hrsv, hd⟩ | ⟨hrsv, hop, hd⟩ | ⟨hrsv, hop, i, hd⟩
  · simp [hd, hrsv]
  · simp [hd, hrsv, hop]
  · simp [hd, hrsv, hop]

/-- Settles O4: each word is the encoding of its instruction, or agrees with one on the bits its row uses. -/
theorem sampleWordsDecode : Obligations.SampleWordsDecode := by
  unfold Obligations.SampleWordsDecode
  decide

end Sys2Proof

/-!
The step: every step has a next state, a command word runs its instruction, and `STATUS` keeps the invariant of R411 and
its first error along every step.
-/
namespace Sys2Proof.Machine

/-! ### Steps and command words -/

theorem exists_exec_eq_next (i : Instr) (s : State) : ∃ t, exec i s = .next t := by
  rcases exec_cases i s with ⟨k, h⟩ | ⟨-, h⟩ | ⟨f, h⟩ <;> exact ⟨_, h⟩

theorem exists_step_eq_next (s : State) : ∃ t, step s = .next t := by
  rcases step_cases s with ⟨-, h⟩ | ⟨_, _, h⟩ | ⟨_, _, _, -, -, h⟩ | ⟨_, -, h⟩ | ⟨_, _, _, -, -, h⟩ |
    ⟨_, i, rest, -, -, h⟩
  · exact ⟨_, h⟩
  · exact ⟨_, h⟩
  · exact ⟨_, h⟩
  · exact ⟨_, h⟩
  · exact ⟨_, h⟩
  · obtain ⟨t, ht⟩ := exists_exec_eq_next i (s.answered rest .ok)
    exact ⟨t, h.trans ht⟩

/-- A word placed as the next command is the host's next access. -/
theorem withFetchWord_pending (s : State) (w : Word) :
    (s.withFetchWord 32 w.toNat).pending = .write 0x000 32 w :: s.pending := by
  have hw : BitVec.ofNat 32 (w.toNat % 2 ^ 32) = w := by rw [Nat.mod_eq_of_lt w.isLt, BitVec.ofNat_toNat, BitVec.setWidth_eq]
  rw [State.withFetchWord, hw]
  rfl

/-- Settles O5: an illegal word stops at the decoder, and the raise touches `STATUS` alone. -/
theorem illegalWordsRaiseIllegalCommand : Obligations.IllegalWordsRaiseIllegalCommand := by
  intro s w rest hp hillegal
  obtain ⟨x, hx⟩ := exists_decode_error_of_illegal hillegal
  exact ⟨_, step_illegal hp hx, rfl, rfl, rfl, rfl⟩

/-- Settles O6: a legal word written to `CMD` runs its instruction, and the word of an instruction decodes to it. -/
theorem stepRunsTheDecodedInstruction : Obligations.StepRunsTheDecodedInstruction :=
  ⟨fun _ _ _ _ hp hd => step_command hp hd,
    fun s i hwf => step_command (withFetchWord_pending s (encode i)) (decode_encode hwf)⟩

/-- Settles O7: no step faults or refuses, and a hardware reset leaves the reset engine. -/
theorem everyStepHasANextState : Obligations.EveryStepHasANextState :=
  ⟨exists_step_eq_next, fun _ _ hp => ⟨_, step_hardReset hp, rfl, rfl⟩⟩

/-- Settles O15: the table of R402 says which commands raise; of the others SRESET resets the engine and every other one
completes. -/
theorem commandsRaiseWhatTheTableLists : Obligations.CommandsRaiseWhatTheTableLists := by
  intro i s
  refine ⟨fun k hk => exec_of_raisesIn_some hk, fun hnone => ?_⟩
  by_cases hi : i = .sreset
  · subst hi
    exact ⟨_, exec_sreset s, fun _ => rfl, fun hne => absurd rfl hne⟩
  · obtain ⟨t, ht, hdone⟩ := exec_done_of_raisesIn_none hnone
    exact ⟨t, ht, fun h => absurd h hi, hdone⟩

/-! ### What happens to `ERR` and `CODE` -/

/-- The kinds an engine raises: all but `ImageDimensionMismatch` (R404). -/
def ErrorKind.raised (k : ErrorKind) : Prop := k ≠ .imageDimensionMismatch

/-- Same `ERR` and `CODE`. -/
def Status.sameRecord (st st' : Status) : Prop := st'.err = st.err ∧ st'.code = st.code

theorem Status.sameRecord.rfl {st : Status} : st.sameRecord st := ⟨Eq.refl _, Eq.refl _⟩

theorem raisesIn_raised {i : Instr} {s : State} {k : ErrorKind} (h : raisesIn i s = some k) : k.raised := by
  unfold raisesIn at h
  split at h
  · cases h; nofun
  · cases h; nofun
  · split at h
    · cases h
    · cases h; nofun
  · cases h

theorem Engine.fitSingle_status (lv : Levels) (met : Metric) (e : Engine) :
    (e.fitSingle lv met).status = e.status.setSna (decide (e.cs.count.val ≠ 1)) := by
  by_cases h : e.cs.count.val = 1
  · rw [Engine.fitSingle_of_count_eq_one h]
    simp [h]
  · rw [Engine.fitSingle_of_count_ne_one h]
    simp [h]

/-- Where the dispatched fit is FITSINGLE it is applicable, so `SNA` is cleared or stays (R344, R347). -/
theorem Engine.fitDispatch_status (lv : Levels) (fit : FitQuality) (met : Metric) (pt : Bool) (ro : Nat) (e : Engine) :
    (e.fitDispatch lv fit met pt ro).status = if e.cs.count.val = 1 then e.status.setSna false else e.status := by
  unfold Engine.fitDispatch
  split
  next hone => rw [Engine.fitSingle_of_count_eq_one hone]
  next =>
    split
    next => exact Engine.fitRange_status lv met e
    next => exact Engine.fitCluster_status lv met pt ro e

theorem Engine.colourPart_status (lv : Levels) (fit : FitQuality) (met : Metric) (pt wa : Bool) (ro : Nat) (off : Half)
    (e : Engine) :
    (e.colourPart lv fit met pt wa ro off).status
      = if (buildSet pt wa e.pix).count.val = 1 then e.status.setSna false else e.status := by
  rw [Engine.colourPart, Engine.colourEnc_status, Engine.fitDispatch_status, Engine.csBuild_cs, Engine.csBuild_status]

/-- COMPRESS leaves `STATUS` alone or clears `SNA` (R347). -/
theorem Engine.compressBlock_status_cases (f : Format) (fit : FitQuality) (met : Metric) (pt wa : Bool) (ro : Nat)
    (e : Engine) :
    (e.compressBlock f fit met pt wa ro).status = e.status ∨
      (e.compressBlock f fit met pt wa ro).status = e.status.setSna false := by
  cases f with
  | bc4 => exact .inl (by simp [Engine.compressBlock])
  | bc5 => exact .inl (by simp [Engine.compressBlock])
  | _ =>
    simp only [Engine.compressBlock, Engine.setLen_status, Engine.clearUpper_status, Engine.colourPart_status,
      Engine.alphaEnc4_status, Engine.alphaPart_status]
    split
    · exact .inr rfl
    · exact .inl rfl

theorem Engine.decompressBlock_status (f : Format) (e : Engine) : (e.decompressBlock f).status = e.status := by
  cases f <;> simp [Engine.decompressBlock]

/-! ### The effect of each command -/

/-- What a command that completes does to the registers, before `DONE` is set (R92 step 3). -/
def commandEffect : Instr → Engine → Engine
  | .nop => id
  | .clrerr => fun e => { e with status := e.status.clearErr }
  | .sreset => fun _ => Engine.reset
  | .compress (.supported f) fit met pt wa ro => Engine.compressBlock f fit met pt wa ro
  | .compress (.reserved _) _ _ _ _ _ => id
  | .decompress (.supported f) => Engine.decompressBlock f
  | .decompress (.reserved _) => id
  | .csbuild pt wa => Engine.csBuild pt wa
  | .fitsingle lv met => Engine.fitSingle lv met
  | .fitrange lv met => Engine.fitRange lv met
  | .fitcluster lv met pt ro => Engine.fitCluster lv met pt ro
  | .cenc off => Engine.colourEnc off
  | .cdec off m3 => Engine.colourDec off m3
  | .aenc4 off => Engine.alphaEnc4 off
  | .adec4 off => Engine.alphaDec4 off
  | .afit ch => Engine.alphaFitCh ch
  | .aenc8 off => Engine.alphaEnc8 off
  | .adec8 off ch => Engine.alphaDec8 off ch

theorem exec_of_raisesIn_none {i : Instr} {s : State} (h : raisesIn i s = none) (hi : i ≠ .sreset) :
    exec i s = .next (s.completeWith (commandEffect i)) := by
  cases i with
  | sreset => exact absurd rfl hi
  | compress fmt fit met pt wa ro =>
    cases fmt with
    | reserved n => cases h
    | supported f => exact exec_compress_supported f fit met pt wa ro s
  | decompress fmt =>
    cases fmt with
    | reserved n => cases h
    | supported f =>
      by_cases hlen : s.eng.clen.toNat = blockSize f
      · exact exec_decompress_supported f s hlen
      · rw [raisesIn, if_neg hlen] at h
        cases h
  | _ => rfl

/-- A command raises the kind of the table of R402, resets the engine, or completes its effect. -/
theorem exec_effect_cases {i : Instr} {s t : State} (h : exec i s = .next t) :
    (∃ k, raisesIn i s = some k ∧ t = s.raise k) ∨ (i = .sreset ∧ t = { s with eng := Engine.reset }) ∨
      (raisesIn i s = none ∧ i ≠ .sreset ∧ t = s.completeWith (commandEffect i)) := by
  cases hraise : raisesIn i s with
  | some k => exact .inl ⟨k, rfl, by simpa using h.symm.trans (exec_of_raisesIn_some hraise)⟩
  | none =>
    by_cases hi : i = .sreset
    · subst hi
      exact .inr (.inl ⟨rfl, by simpa using h.symm.trans (exec_sreset s)⟩)
    · exact .inr (.inr ⟨rfl, hi, by simpa using h.symm.trans (exec_of_raisesIn_none hraise hi)⟩)

/-- No effect but that of CLRERR and SRESET touches `ERR` or `CODE` (R411). -/
theorem commandEffect_sameRecord {i : Instr} (hreset : i ≠ .sreset) (hclear : i ≠ .clrerr) (e : Engine) :
    e.status.sameRecord (commandEffect i e).status := by
  cases i with
  | sreset => exact absurd rfl hreset
  | clrerr => exact absurd rfl hclear
  | nop => exact .rfl
  | compress fmt fit met pt wa ro =>
    cases fmt with
    | reserved n => exact .rfl
    | supported f =>
      rcases Engine.compressBlock_status_cases f fit met pt wa ro e with h | h <;> simp [commandEffect, h, Status.sameRecord]
  | decompress fmt =>
    cases fmt with
    | reserved n => exact .rfl
    | supported f => simp [commandEffect, Engine.decompressBlock_status, Status.sameRecord]
  | fitsingle lv met => simp [commandEffect, Engine.fitSingle_status, Status.sameRecord]
  | _ => simp [commandEffect, Status.sameRecord]

/-- What a command does to the error record: it raises, resets it, clears it (CLRERR), or keeps it. -/
theorem exec_record_cases {i : Instr} {s t : State} (h : exec i s = .next t) :
    (∃ k : ErrorKind, k.raised ∧ t.eng.status = s.eng.status.raise k) ∨
    (i = .sreset ∧ t.eng.status = Status.reset) ∨
    (i = .clrerr ∧ t.eng.status = s.eng.status.clearErr.complete) ∨
    s.eng.status.sameRecord t.eng.status := by
  rcases exec_effect_cases h with ⟨k, hk, rfl⟩ | ⟨rfl, rfl⟩ | ⟨-, hi, rfl⟩
  · exact .inl ⟨k, raisesIn_raised hk, rfl⟩
  · exact .inr (.inl ⟨rfl, rfl⟩)
  · by_cases hclear : i = .clrerr
    · subst hclear
      exact .inr (.inr (.inl ⟨rfl, rfl⟩))
    · exact .inr (.inr (.inr (commandEffect_sameRecord hi hclear s.eng)))

theorem Engine.writeReg_status (e : Engine) (r : Reg) (v : Word) : (e.writeReg r v).status = e.status := by
  cases r <;> rfl

/-- What a step does to the error record: it raises, resets it, clears it by CLRERR, or keeps it. -/
theorem step_record_cases {s t : State} (h : step s = .next t) :
    (∃ k : ErrorKind, k.raised ∧ t.eng.status = s.eng.status.raise k) ∨
    (((∃ rest, s.pending = .reset :: rest) ∨
      ∃ w rest, s.pending = .write 0x000 32 w :: rest ∧ decode w = .ok .sreset) ∧ t.eng.status = Status.reset) ∨
    ((∃ w rest, s.pending = .write 0x000 32 w :: rest ∧ decode w = .ok .clrerr) ∧
      t.eng.status = s.eng.status.clearErr.complete) ∨
    s.eng.status.sameRecord t.eng.status := by
  rcases step_cases s with ⟨-, hs⟩ | ⟨rest, a, hs⟩ | ⟨r, v, rest, -, -, hs⟩ | ⟨rest, hp, hs⟩ |
    ⟨w, x, rest, -, -, hs⟩ | ⟨w, i, rest, hp, hd, hs⟩
  · cases hs.symm.trans h
    exact .inr (.inr (.inr .rfl))
  · cases hs.symm.trans h
    exact .inr (.inr (.inr .rfl))
  · cases hs.symm.trans h
    refine .inr (.inr (.inr ?_))
    simp only [Engine.writeReg_status, Status.sameRecord, and_self]
  · cases hs.symm.trans h
    exact .inr (.inl ⟨.inl ⟨rest, hp⟩, rfl⟩)
  · cases hs.symm.trans h
    exact .inl ⟨.illegalCommand, nofun, rfl⟩
  · rcases exec_record_cases (hs.symm.trans h) with hraise | ⟨rfl, ht⟩ | ⟨rfl, ht⟩ | hsame
    · exact .inl hraise
    · exact .inr (.inl ⟨.inr ⟨w, rest, hp, hd⟩, ht⟩)
    · exact .inr (.inr (.inl ⟨⟨w, rest, hp, hd⟩, ht⟩))
    · exact .inr (.inr (.inr hsame))

/-! ### R411 -/

theorem Status.legal_of_clear {st : Status} (herr : st.err = false) (hcode : st.code = 0#4) : st.Legal :=
  ⟨by simp [herr, hcode], .inl hcode⟩

theorem Status.Legal.of_sameRecord {st st' : Status} (h : st.Legal) (hsame : st.sameRecord st') : st'.Legal := by
  obtain ⟨herr, hcode⟩ := hsame
  rw [Status.Legal, herr, hcode]
  exact h

/-- A raised kind has a legal code (R401, R404). -/
theorem ErrorKind.code_of_raised {k : ErrorKind} (h : k.raised) :
    k.code ≠ 0#4 ∧ (k.code = 0#4 ∨ k.code = 1#4 ∨ k.code = 2#4 ∨ k.code = 4#4) := by
  cases k with
  | imageDimensionMismatch => exact absurd rfl h
  | _ => decide

theorem Status.Legal.raise {st : Status} (h : st.Legal) {k : ErrorKind} (hk : k.raised) : (st.raise k).Legal := by
  cases herr : st.err with
  | true =>
    refine h.of_sameRecord ⟨?_, Status.raise_code_of_err herr k⟩
    rw [Status.raise_err, herr]
  | false =>
    obtain ⟨hne, hcode⟩ := ErrorKind.code_of_raised hk
    rw [Status.Legal, Status.raise_code_of_clear herr, Status.raise_err]
    exact ⟨iff_of_true hne rfl, hcode⟩

/-- Settles O18: a raised kind has a legal code, and what is no raise clears the record or keeps it. -/
theorem statusStaysLegal : Obligations.StatusStaysLegal := by
  intro s t hlegal hstep
  rcases step_record_cases hstep with ⟨k, hk, ht⟩ | ⟨-, ht⟩ | ⟨-, ht⟩ | hsame
  · rw [ht]
    exact hlegal.raise hk
  · rw [ht]
    exact Status.legal_of_clear rfl rfl
  · rw [ht]
    exact Status.legal_of_clear rfl rfl
  · exact hlegal.of_sameRecord hsame

/-- Settles O19: after reset nothing is recorded. -/
theorem statusIsLegalAtReset : Obligations.StatusIsLegalAtReset := Status.legal_of_clear rfl rfl

/-- Settles O20: a later raise keeps the record of the first, and only CLRERR, SRESET and the hardware reset clear it. -/
theorem firstErrorStaysRecorded : Obligations.FirstErrorStaysRecorded := by
  intro s t hstep herr
  rcases step_record_cases hstep with ⟨k, -, ht⟩ | ⟨hreset, -⟩ | ⟨⟨w, rest, hp, hd⟩, -⟩ | ⟨herr', hcode⟩
  · rw [ht]
    exact .inl ⟨rfl, Status.raise_code_of_err herr k⟩
  · rcases hreset with hreset | ⟨w, rest, hp, hd⟩
    · exact .inr (.inl hreset)
    · exact .inr (.inr ⟨w, rest, hp, .inr hd⟩)
  · exact .inr (.inr ⟨w, rest, hp, .inl hd⟩)
  · exact .inl ⟨herr'.trans herr, hcode⟩

end Sys2Proof.Machine

/-!
Several engines: one engine's step is that engine's own, and an address selects the one window it lies in (R58, R74).
-/
namespace Sys2Proof.Machine

theorem Platform.stepAt_eq {p : Platform} {k : Nat} {s t : State} (hk : p.engines[k]? = some s)
    (ht : step s = .next t) : p.stepAt k = .next ⟨p.engines.set k t⟩ := by
  simp only [Platform.stepAt, hk, ht]

theorem inWindow_iff (b addr : Nat) : inWindow b addr = true ↔ b ≤ addr ∧ addr < b + 0x180 := by
  rw [inWindow, Bool.and_eq_true, decide_eq_true_eq, decide_eq_true_eq, Config.windowSize]

/-- No address lies in two windows of a legal mapping (D41). -/
theorem not_inWindow_of_ne {base : Nat → Nat} {n j k addr : Nat} (hmap : mappingOk base n) (hj : j < n) (hk : k < n)
    (hne : j ≠ k) (hin : inWindow (base k) addr = true) : inWindow (base j) addr = false := by
  obtain ⟨-, hdisjoint⟩ := hmap
  have hjk := hdisjoint j k hj hk hne
  rw [Config.windowSize] at hjk
  rw [inWindow_iff] at hin
  rw [← Bool.not_eq_true, inWindow_iff]
  omega

theorem locate_window {base : Nat → Nat} {n k off : Nat} (hmap : mappingOk base n) (hk : k < n) (hoff : off < 0x180) :
    locate base n (base k + off) = some (k, off) := by
  have hin : inWindow (base k) (base k + off) = true := (inWindow_iff _ _).mpr ⟨by omega, by omega⟩
  have hfind : ((List.range n).find? fun j => inWindow (base j) (base k + off)) = some k := by
    refine List.find?_range_eq_some.mpr ⟨hin, List.mem_range.mpr hk, fun j hj => ?_⟩
    rw [not_inWindow_of_ne hmap (hj.trans hk) hk hj.ne hin]
    rfl
  rw [locate, hfind, Option.map_some, Nat.add_sub_cancel_left]

/-- Settles O59: a step replaces one entry of the list of engines by its next state, and of disjoint windows only the
one at `base k` holds the address. -/
theorem enginesOfAChipAreIndependent : Obligations.EnginesOfAChipAreIndependent := by
  refine ⟨fun k p s hk => ?_, fun base n k off => locate_window⟩
  obtain ⟨t, ht⟩ := exists_step_eq_next s
  have hlt : k < p.engines.length := (List.getElem?_eq_some_iff.mp hk).1
  exact ⟨_, t, ht, Platform.stepAt_eq hk ht, List.getElem?_set_self hlt,
    fun j hj => List.getElem?_set_ne hj.symm, List.length_set⟩

end Sys2Proof.Machine

/-!
The register window: where the registers lie, how each word is laid out, what a write leaves in it, and that the words
together are the whole engine (R20, R21, R63, R64).
-/
namespace Sys2Proof.Machine

/-! ### The map of offsets -/

theorem regAt_eq_some_iff (off : Nat) (r : Reg) : regAt off = some r ↔ r.offset = off :=
  ⟨offset_of_regAt, fun h => h ▸ regAt_offset r⟩

/-- Every word of the window outside the hole is a register's (R21). -/
theorem isSome_regAt_of_word : ∀ k : Fin 96, ¬(40 ≤ k.val ∧ k.val ≤ 47) → (regAt (4 * k.val)).isSome = true := by
  decide

/-- Settles O8: the registers lie where R21 says, and their words fill the window up to the hole. -/
theorem windowMapIsTheRegisterTable : Obligations.WindowMapIsTheRegisterTable := by
  refine ⟨regAt_eq_some_iff, fun off => ⟨?_, ?_⟩⟩
  · rintro ⟨r, hr⟩
    rw [← offset_of_regAt hr]
    obtain ⟨haligned, hhole, hwindow⟩ := r.offset_mapped
    exact ⟨haligned, hwindow, hhole⟩
  · rintro ⟨haligned, hwindow, hhole⟩
    have hword := isSome_regAt_of_word ⟨off / 4, by omega⟩ (by dsimp only; omega)
    rw [show 4 * (off / 4) = off by omega] at hword
    exact Option.isSome_iff_exists.mp hword

/-! ### The layout of a word -/

/-- The bits of a word at a digit's place are the digit (R13). -/
theorem extractLsb'_ofNat_digit {k i : Nat} (h : k * i + k ≤ 32) (n : Nat) :
    (BitVec.ofNat 32 n).extractLsb' (k * i) k = BitVec.ofNat k (digitLE k i n) := by
  refine BitVec.eq_of_getLsbD_eq fun j hj => ?_
  have hbit : j + k * i < 32 := by omega
  rw [digitLE, BitVec.getLsbD_extractLsb', BitVec.getLsbD_ofNat, BitVec.getLsbD_ofNat, Nat.testBit_mod_two_pow,
    Nat.testBit_div_two_pow]
  simp [hj, Nat.add_comm, hbit]

/-- A packed word shows digit `i` at the digit's place. -/
theorem extractLsb'_packLE {k i : Nat} (h : k * i + k ≤ 32) {ds : List Nat} (hds : ∀ d ∈ ds, d < 2 ^ k) :
    (BitVec.ofNat 32 (packLE k ds)).extractLsb' (k * i) k = BitVec.ofNat k (ds.getD i 0) := by
  rw [extractLsb'_ofNat_digit h, digitLE_packLE k ds hds]

/-- The bits above packed digits are zero. -/
theorem extractLsb'_packLE_above {k lo len : Nat} {ds : List Nat} (hds : ∀ d ∈ ds, d < 2 ^ k)
    (hlo : k * ds.length ≤ lo) : (BitVec.ofNat 32 (packLE k ds)).extractLsb' lo len = 0#len := by
  refine BitVec.eq_of_getLsbD_eq fun j hj => ?_
  have hlt : packLE k ds < 2 ^ (lo + j) :=
    (packLE_lt k ds hds).trans_le (Nat.pow_le_pow_right (by decide) (by omega))
  simp [BitVec.getLsbD_extractLsb', BitVec.getLsbD_ofNat, Nat.testBit_lt_two_pow hlt]

/-- A word of four bytes shows each at its place (R26, R68). -/
theorem extractLsb'_wordOfBytes (b0 b1 b2 b3 : Byte) :
    (wordOfBytes b0 b1 b2 b3).extractLsb' 0 8 = b0 ∧ (wordOfBytes b0 b1 b2 b3).extractLsb' 8 8 = b1 ∧
    (wordOfBytes b0 b1 b2 b3).extractLsb' 16 8 = b2 ∧ (wordOfBytes b0 b1 b2 b3).extractLsb' 24 8 = b3 := by
  have hbytes : ∀ d ∈ [b0.toNat, b1.toNat, b2.toNat, b3.toNat], d < 2 ^ 8 := by
    simp only [List.forall_mem_cons]
    exact ⟨b0.isLt, b1.isLt, b2.isLt, b3.isLt, nofun⟩
  have hbyte (i : Nat) (hi : 8 * i + 8 ≤ 32) := extractLsb'_packLE (k := 8) hi hbytes
  exact ⟨(hbyte 0 (by decide)).trans (by simp), (hbyte 1 (by decide)).trans (by simp),
    (hbyte 2 (by decide)).trans (by simp), (hbyte 3 (by decide)).trans (by simp)⟩

/-- The byte of a table at its place in the word of its four. -/
theorem extractLsb'_wordOfBytes_at (f : Fin 16 → Byte) (i : Fin 16) :
    (wordOfBytes (f ⟨4 * (i.val / 4), by omega⟩) (f ⟨4 * (i.val / 4) + 1, by omega⟩) (f ⟨4 * (i.val / 4) + 2, by omega⟩)
      (f ⟨4 * (i.val / 4) + 3, by omega⟩)).extractLsb' (8 * (i.val % 4)) 8 = f i := by
  obtain ⟨h0, h1, h2, h3⟩ := extractLsb'_wordOfBytes (f ⟨4 * (i.val / 4), by omega⟩) (f ⟨4 * (i.val / 4) + 1, by omega⟩)
    (f ⟨4 * (i.val / 4) + 2, by omega⟩) (f ⟨4 * (i.val / 4) + 3, by omega⟩)
  have hi := Nat.div_add_mod i.val 4
  have hplace : i.val % 4 = 0 ∨ i.val % 4 = 1 ∨ i.val % 4 = 2 ∨ i.val % 4 = 3 := by omega
  rcases hplace with hm | hm | hm | hm <;> rw [hm] at hi ⊢
  · exact h0.trans (congrArg f (Fin.ext hi))
  · exact h1.trans (congrArg f (Fin.ext hi))
  · exact h2.trans (congrArg f (Fin.ext hi))
  · exact h3.trans (congrArg f (Fin.ext hi))

theorem Status.toWord_layout (st : Status) :
    st.toWord.extractLsb' 0 1 = BitVec.ofBool st.done ∧ st.toWord.extractLsb' 1 1 = BitVec.ofBool st.err ∧
    st.toWord.extractLsb' 2 1 = BitVec.ofBool st.sna ∧ st.toWord.extractLsb' 3 1 = 0#1 ∧
    st.toWord.extractLsb' 4 4 = st.code ∧ st.toWord.extractLsb' 8 24 = 0#24 := by
  have hdone := st.done.toNat_lt
  have herr := st.err.toNat_lt
  have hsna := st.sna.toNat_lt
  have hcode := st.code.isLt
  refine ⟨?_, ?_, ?_, ?_, ?_, ?_⟩ <;> apply BitVec.eq_of_toNat_eq <;>
    simp only [Status.toWord, BitVec.extractLsb'_toNat, BitVec.toNat_ofNat, BitVec.toNat_ofBool,
      Nat.shiftRight_eq_div_pow] <;> omega

theorem clen_layout (c : BitVec 5) :
    (c.setWidth 32).extractLsb' 0 5 = c ∧ (c.setWidth 32).extractLsb' 5 27 = 0#27 := by
  have hc := c.isLt
  refine ⟨?_, ?_⟩ <;> apply BitVec.eq_of_toNat_eq <;>
    simp only [BitVec.extractLsb'_toNat, BitVec.toNat_setWidth, BitVec.toNat_ofNat, Nat.shiftRight_eq_div_pow] <;> omega

/-- The word of `CS_INFO` (R28). -/
def csInfoWord (cs : ColourSet) : Word := BitVec.ofNat 32 (cs.count.val + 2 ^ 8 * cs.transp.toNat)

theorem csInfoWord_layout (cs : ColourSet) :
    ((csInfoWord cs).extractLsb' 0 5).toNat = cs.count.val ∧ (csInfoWord cs).extractLsb' 5 3 = 0#3 ∧
    (csInfoWord cs).extractLsb' 8 1 = BitVec.ofBool cs.transp ∧ (csInfoWord cs).extractLsb' 9 23 = 0#23 := by
  have hcount := cs.count.isLt
  have htransp := cs.transp.toNat_lt
  refine ⟨?_, BitVec.eq_of_toNat_eq ?_, BitVec.eq_of_toNat_eq ?_, BitVec.eq_of_toNat_eq ?_⟩ <;>
    simp only [csInfoWord, BitVec.extractLsb'_toNat, BitVec.toNat_ofNat, BitVec.toNat_ofBool,
      Nat.shiftRight_eq_div_pow] <;> omega

/-- The packed entries of a table are below the base of their width. -/
theorem forall_mem_map_toNat_lt {k : Nat} (xs : List (BitVec k)) : ∀ d ∈ xs.map BitVec.toNat, d < 2 ^ k := by
  intro d hd
  obtain ⟨x, -, rfl⟩ := List.mem_map.mp hd
  exact x.isLt

theorem wordOfIdx_layout (v : Vector (BitVec 2) 16) (i : Fin 16) :
    (wordOfIdx v).extractLsb' (2 * i.val) 2 = v[i] := by
  have hi := i.isLt
  rw [wordOfIdx, extractLsb'_packLE (by omega) (forall_mem_map_toNat_lt _), List.getD_eq_getElem _ _ (by simp)]
  simp

theorem wordOfK0_layout (v : Vector (BitVec 3) 16) (i : Fin 16) (hi : i.val < 8) :
    (wordOfK0 v).extractLsb' (3 * i.val) 3 = v[i] := by
  rw [wordOfK0, extractLsb'_packLE (by omega) (forall_mem_map_toNat_lt _), List.getD_eq_getElem _ _ (by simp; omega)]
  simp

theorem wordOfK1_layout (v : Vector (BitVec 3) 16) (i : Fin 16) (hi : 8 ≤ i.val) :
    (wordOfK1 v).extractLsb' (3 * (i.val - 8)) 3 = v[i] := by
  have hlt := i.isLt
  have hsum : 8 + (i.val - 8) = i.val := by omega
  rw [wordOfK1, extractLsb'_packLE (by omega) (forall_mem_map_toNat_lt _), List.getD_eq_getElem _ _ (by simp; omega)]
  simp [hsum]

theorem wordOfK0_above (v : Vector (BitVec 3) 16) : (wordOfK0 v).extractLsb' 24 8 = 0#8 :=
  extractLsb'_packLE_above (forall_mem_map_toNat_lt _) (by simp)

theorem wordOfK1_above (v : Vector (BitVec 3) 16) : (wordOfK1 v).extractLsb' 24 8 = 0#8 :=
  extractLsb'_packLE_above (forall_mem_map_toNat_lt _) (by simp)

theorem Pixel.toWord_layout (p : Pixel) :
    p.toWord.extractLsb' 0 8 = p.r ∧ p.toWord.extractLsb' 8 8 = p.g ∧ p.toWord.extractLsb' 16 8 = p.b ∧
    p.toWord.extractLsb' 24 8 = p.a := extractLsb'_wordOfBytes p.r p.g p.b p.a

/-- The channels of a pixel lie in the order of their field values (R24, R91). -/
theorem Pixel.toWord_channel (p : Pixel) (c : Channel) :
    p.toWord.extractLsb' (8 * (fieldOfCh c).toNat) 8 = p.ch c := by
  obtain ⟨hr, hg, hb, ha⟩ := p.toWord_layout
  cases c with
  | r => exact hr
  | g => exact hg
  | b => exact hb
  | a => exact ha

theorem Rgb8.toWord_layout (c : Rgb8) :
    c.toWord.extractLsb' 0 8 = c.r ∧ c.toWord.extractLsb' 8 8 = c.g ∧ c.toWord.extractLsb' 16 8 = c.b ∧
    c.toWord.extractLsb' 24 8 = 0#8 := extractLsb'_wordOfBytes c.r c.g c.b 0

theorem Engine.cblk_layout (e : Engine) (k : Fin 16) :
    (e.readReg (.cblk ⟨k.val / 4, by omega⟩)).extractLsb' (8 * (k.val % 4)) 8 = e.cblk[k] :=
  extractLsb'_wordOfBytes_at (fun k => e.cblk[k]) k

theorem Engine.csRemap_layout (e : Engine) (i : Fin 16) :
    (e.readReg (.csRemap ⟨i.val / 4, by omega⟩)).extractLsb' (8 * (i.val % 4)) 8 = remapByte e.cs.remap[i] :=
  extractLsb'_wordOfBytes_at e.cs.remap8 i

theorem toNat_remapByte_some (j : Fin 16) : (remapByte (some j)).toNat = j.val := by
  have hj := j.isLt
  rw [remapByte, BitVec.toNat_ofNat, Nat.mod_eq_of_lt (by omega)]

/-! ### Reads -/

theorem Engine.hostRead_offset (e : Engine) (r : Reg) : e.hostRead r.offset 32 = .value (e.readReg r) := by
  simp only [Engine.hostRead, accessReg_offset]

/-- Settles O10: a read of a register's offset answers its word, and each word is laid out by the lemmas above. -/
theorem readsAnswerTheRegisterAndChangeNothing : Obligations.ReadsAnswerTheRegisterAndChangeNothing := by
  refine ⟨fun s r rest hp => ?_, fun e => ⟨rfl, e.status.toWord_layout, clen_layout e.clen, rfl, ⟨rfl, rfl, rfl⟩,
    ⟨rfl, rfl, rfl⟩, wordOfIdx_layout e.fit.idx, fun h => if_pos h, fun h => if_neg (by rw [h]; nofun), ?_,
    wordOfK0_layout e.af.k, wordOfK1_layout e.af.k, ⟨wordOfK0_above e.af.k, wordOfK1_above e.af.k⟩,
    csInfoWord_layout e.cs, fun i => ?_, fun i c => ⟨e.pix[i].toWord_channel c, e.dpix[i].toWord_channel c⟩,
    e.cblk_layout, fun i => ⟨fun hnone => ?_, fun j hj => ?_⟩, fun i => ?_⟩⟩
  · rw [step_read hp, Engine.hostRead_offset]
    rfl
  · obtain ⟨hlo, hhi, -, -⟩ := extractLsb'_wordOfBytes e.af.lo e.af.hi 0 0
    exact ⟨hlo, hhi, extractLsb'_packLE_above (k := 8) (ds := [e.af.lo.toNat, e.af.hi.toNat])
      (List.forall_mem_cons.mpr ⟨e.af.lo.isLt, List.forall_mem_singleton.mpr e.af.hi.isLt⟩) (by simp)⟩
  · obtain ⟨hr, hg, hb, ha⟩ := e.pix[i].toWord_layout
    obtain ⟨hr', hg', hb', ha'⟩ := e.dpix[i].toWord_layout
    exact ⟨hr, hg, hb, ha, hr', hg', hb', ha'⟩
  · rw [Engine.csRemap_layout, hnone]
    rfl
  · rw [Engine.csRemap_layout, hj, toNat_remapByte_some]
  · obtain ⟨hr, hg, hb, ha⟩ := e.cs.rgb[i].toWord_layout
    exact ⟨hr, hg, hb, ha, rfl⟩

/-! ### The window shows the engine -/

theorem vector_eq_of_getElem {α : Type} {v w : Vector α 16} (h : ∀ i : Fin 16, v[i] = w[i]) : v = w :=
  Vector.ext fun i hi => h ⟨i, hi⟩

theorem ofBool_inj {b b' : Bool} (h : BitVec.ofBool b = BitVec.ofBool b') : b = b' := by
  revert h
  cases b <;> cases b' <;> decide

theorem Status.toWord_inj {st st' : Status} (h : st.toWord = st'.toWord) : st = st' := by
  obtain ⟨hdone, herr, hsna, -, hcode, -⟩ := st.toWord_layout
  obtain ⟨hdone', herr', hsna', -, hcode', -⟩ := st'.toWord_layout
  rw [h] at hdone herr hsna hcode
  have e1 := ofBool_inj (hdone.symm.trans hdone')
  have e2 := ofBool_inj (herr.symm.trans herr')
  have e3 := ofBool_inj (hsna.symm.trans hsna')
  have e4 := hcode.symm.trans hcode'
  cases st
  cases st'
  simp_all

theorem Pixel.toWord_inj {p q : Pixel} (h : p.toWord = q.toWord) : p = q := by
  rw [← p.ofWord_toWord, h, q.ofWord_toWord]

theorem Rgb8.toWord_inj {c d : Rgb8} (h : c.toWord = d.toWord) : c = d := by
  obtain ⟨hr, hg, hb, -⟩ := c.toWord_layout
  obtain ⟨hr', hg', hb', -⟩ := d.toWord_layout
  rw [h] at hr hg hb
  cases c
  cases d
  simp_all

theorem csInfoWord_inj {cs cs' : ColourSet} (h : csInfoWord cs = csInfoWord cs') :
    cs.count = cs'.count ∧ cs.transp = cs'.transp := by
  obtain ⟨hcount, -, htransp, -⟩ := csInfoWord_layout cs
  obtain ⟨hcount', -, htransp', -⟩ := csInfoWord_layout cs'
  rw [h] at hcount htransp
  exact ⟨Fin.ext (hcount.symm.trans hcount'), ofBool_inj (htransp.symm.trans htransp')⟩

theorem ColourSet.eq_of_readReg {e e' : Engine} (h : ∀ r : Reg, e.readReg r = e'.readReg r) : e.cs = e'.cs := by
  obtain ⟨hcount, htransp⟩ := csInfoWord_inj (h .csInfo)
  have hrgb : e.cs.rgb = e'.cs.rgb := vector_eq_of_getElem fun i => Rgb8.toWord_inj (h (.csRgb i))
  have hw : e.cs.w = e'.cs.w := vector_eq_of_getElem fun i => h (.csW i)
  have hremap : e.cs.remap = e'.cs.remap := vector_eq_of_getElem fun i => by
    rw [← remapByte_inj, ← Engine.csRemap_layout, h, Engine.csRemap_layout]
  cases hcs : e.cs
  cases hcs' : e'.cs
  simp_all

theorem Vec3.eq_of_lane {v w : Vec3} (h : ∀ l, v.lane l = w.lane l) : v = w := by
  have hx := h .r
  have hy := h .g
  have hz := h .b
  cases v
  cases w
  simp_all [Vec3.lane]

theorem FitRegs.eq_of_readReg {e e' : Engine} (h : ∀ r : Reg, e.readReg r = e'.readReg r) : e.fit = e'.fit := by
  have ha : e.fit.a = e'.fit.a := Vec3.eq_of_lane fun l => h (.fitA l)
  have hb : e.fit.b = e'.fit.b := Vec3.eq_of_lane fun l => h (.fitB l)
  have hidx : e.fit.idx = e'.fit.idx := vector_eq_of_getElem fun i => by
    have hword : wordOfIdx e.fit.idx = wordOfIdx e'.fit.idx := h .fitIdx
    rw [← wordOfIdx_layout, hword, wordOfIdx_layout]
  have hlv : e.fit.lv = e'.fit.lv := by
    have hword := h .fitLv
    revert hword
    simp only [Engine.readReg]
    cases e.fit.lv <;> cases e'.fit.lv <;> simp
  have herr : e.fit.err = e'.fit.err := h .fitErr
  cases hfit : e.fit
  cases hfit' : e'.fit
  simp_all

theorem AlphaRegs.eq_of_readReg {e e' : Engine} (h : ∀ r : Reg, e.readReg r = e'.readReg r) : e.af = e'.af := by
  obtain ⟨hlo, hhi, -, -⟩ := extractLsb'_wordOfBytes e.af.lo e.af.hi 0 0
  obtain ⟨hlo', hhi', -, -⟩ := extractLsb'_wordOfBytes e'.af.lo e'.af.hi 0 0
  have hend : wordOfBytes e.af.lo e.af.hi 0 0 = wordOfBytes e'.af.lo e'.af.hi 0 0 := h .afEnd
  rw [hend] at hlo hhi
  have hk : e.af.k = e'.af.k := vector_eq_of_getElem fun i => by
    have h0 : wordOfK0 e.af.k = wordOfK0 e'.af.k := h .afK0
    have h1 : wordOfK1 e.af.k = wordOfK1 e'.af.k := h .afK1
    by_cases hi : i.val < 8
    · rw [← wordOfK0_layout _ i hi, h0, wordOfK0_layout _ i hi]
    · rw [← wordOfK1_layout _ i (by omega), h1, wordOfK1_layout _ i (by omega)]
  cases haf : e.af
  cases haf' : e'.af
  simp_all

/-- Settles O12: each word determines the fields it is made of, and every field is in a word. -/
theorem theWindowShowsTheWholeEngine : Obligations.TheWindowShowsTheWholeEngine := by
  intro e e' h
  have hstatus : e.status = e'.status := Status.toWord_inj (h .status)
  have hclen : e.clen = e'.clen := by
    have hword : e.clen.setWidth 32 = e'.clen.setWidth 32 := h .clen
    have hlayout := (clen_layout e.clen).1
    rw [hword, (clen_layout e'.clen).1] at hlayout
    exact hlayout.symm
  have hfit := FitRegs.eq_of_readReg h
  have haf := AlphaRegs.eq_of_readReg h
  have hcs := ColourSet.eq_of_readReg h
  have hpix : e.pix = e'.pix := vector_eq_of_getElem fun i => Pixel.toWord_inj (h (.pix i))
  have hcblk : e.cblk = e'.cblk := vector_eq_of_getElem fun k => by
    rw [← Engine.cblk_layout, h, Engine.cblk_layout]
  have hdpix : e.dpix = e'.dpix := vector_eq_of_getElem fun i => Pixel.toWord_inj (h (.dpix i))
  cases e
  cases e'
  simp_all

/-! ### Writes -/

/-- A mask of the low bits is a remainder. -/
theorem toNat_and_lowMask {v m : Word} {n : Nat} (hm : m.toNat = 2 ^ n - 1) : (v &&& m).toNat = v.toNat % 2 ^ n := by
  rw [BitVec.toNat_and, hm, Nat.and_two_pow_sub_one_eq_mod]

theorem Vec3.lane_setLane (v : Vec3) (l l' : Lane) (x : F32) :
    (v.setLane l x).lane l' = if l' = l then x else v.lane l' := by
  cases l <;> cases l' <;> rfl

/-- A written word of `CBLK` reads back: its bytes are those of the value. -/
theorem Engine.cblk_writeReg_same (e : Engine) (j : Fin 4) (v : Word) :
    (e.writeReg (.cblk j) v).readReg (.cblk j) = v := by
  have hj := j.isLt
  have h0 : (4 * j.val) / 4 = j.val ∧ (4 * j.val) % 4 = 0 := by omega
  have h1 : (4 * j.val + 1) / 4 = j.val ∧ (4 * j.val + 1) % 4 = 1 := by omega
  have h2 : (4 * j.val + 2) / 4 = j.val ∧ (4 * j.val + 2) % 4 = 2 := by omega
  have h3 : (4 * j.val + 3) / 4 = j.val ∧ (4 * j.val + 3) % 4 = 3 := by omega
  simp only [Engine.writeReg, Engine.readReg, tab16_getElem, h0, h1, h2, h3, if_true, wordOfBytes_byteOf]

theorem Engine.cblk_writeReg_other (e : Engine) {i j : Fin 4} (h : i ≠ j) (v : Word) :
    (e.writeReg (.cblk j) v).readReg (.cblk i) = e.readReg (.cblk i) := by
  have hne : i.val ≠ j.val := fun heq => h (Fin.ext heq)
  have h0 : ¬(4 * i.val) / 4 = j.val := by omega
  have h1 : ¬(4 * i.val + 1) / 4 = j.val := by omega
  have h2 : ¬(4 * i.val + 2) / 4 = j.val := by omega
  have h3 : ¬(4 * i.val + 3) / 4 = j.val := by omega
  simp only [Engine.writeReg, Engine.readReg, tab16_getElem, h0, h1, h2, h3, if_false, Fin.getElem_fin]

/-- A read/write register reads back the bits its layout stores (R45, R63). -/
theorem Engine.readReg_writeReg_same (e : Engine) {r : Reg} (h : r.acc = .rw) (v : Word) :
    (e.writeReg r v).readReg r = v &&& r.storedBits := by
  have hall : v &&& 0xFFFFFFFF#32 = v := BitVec.and_allOnes
  cases r with
  | cmd | status | fitErr | csInfo => cases h
  | csRemap _ | dpix _ | csRgb _ | csW _ => cases h
  | clen =>
    refine BitVec.eq_of_toNat_eq ((?_ : _ = v.toNat % 2 ^ 5).trans (toNat_and_lowMask rfl).symm)
    simp only [Engine.writeReg, Engine.readReg, BitVec.toNat_setWidth]
    omega
  | fitA l => exact ((Vec3.lane_setLane e.fit.a l l v).trans (if_pos rfl)).trans hall.symm
  | fitB l => exact ((Vec3.lane_setLane e.fit.b l l v).trans (if_pos rfl)).trans hall.symm
  | fitIdx => exact (wordOfIdx_idxOfWord v).trans hall.symm
  | fitLv =>
    refine BitVec.eq_of_toNat_eq ((?_ : _ = v.toNat % 2 ^ 1).trans (toNat_and_lowMask rfl).symm)
    simp only [Engine.writeReg, Engine.readReg]
    rcases Nat.mod_two_eq_zero_or_one v.toNat with hv | hv <;> simp [hv]
  | afEnd =>
    refine BitVec.eq_of_toNat_eq ((?_ : _ = v.toNat % 2 ^ 16).trans (toNat_and_lowMask rfl).symm)
    have hzero : (0 : Byte).toNat = 0 := rfl
    simp only [Engine.writeReg, Engine.readReg, toNat_wordOfBytes, byteOf, digitLE, BitVec.toNat_ofNat, hzero,
      Nat.reduceMul, Nat.reducePow]
    omega
  | afK0 => exact BitVec.eq_of_toNat_eq ((wordOfK0_setK0 _ v).trans (toNat_and_lowMask rfl).symm)
  | afK1 => exact BitVec.eq_of_toNat_eq ((wordOfK1_setK1 _ v).trans (toNat_and_lowMask rfl).symm)
  | pix i =>
    refine Eq.trans ?_ hall.symm
    simp [Engine.writeReg, Engine.readReg]
  | cblk j => exact (e.cblk_writeReg_same j v).trans hall.symm

theorem wordOfK1_setK0 (k : Vector (BitVec 3) 16) (v : Word) : wordOfK1 (setK0 k v) = wordOfK1 k := by
  have hdrop : (setK0 k v).toList.drop 8 = k.toList.drop 8 := by
    refine List.ext_getElem (by simp) fun i hi hi' => ?_
    simp [setK0, Fin.lt_def]
  rw [wordOfK1, hdrop, wordOfK1]

theorem wordOfK0_setK1 (k : Vector (BitVec 3) 16) (v : Word) : wordOfK0 (setK1 k v) = wordOfK0 k := by
  have htake : (setK1 k v).toList.take 8 = k.toList.take 8 := by
    refine List.ext_getElem (by simp) fun i hi hi' => ?_
    have hlt : i < 8 := by simpa using hi
    simp [setK1, Fin.lt_def, hlt]
  rw [wordOfK0, htake, wordOfK0]

/-- A write to one register leaves every other (R63). -/
theorem Engine.readReg_writeReg_other (e : Engine) {q r : Reg} (h : q ≠ r) (v : Word) :
    (e.writeReg r v).readReg q = e.readReg q := by
  cases r with
  | cmd | status | fitErr | csInfo => rfl
  | csRemap _ | dpix _ | csRgb _ | csW _ => rfl
  | fitA l =>
    cases q with
    | fitA l' =>
      have hl : l' ≠ l := fun heq => h (heq ▸ rfl)
      exact (Vec3.lane_setLane _ l l' v).trans (if_neg hl)
    | _ => rfl
  | fitB l =>
    cases q with
    | fitB l' =>
      have hl : l' ≠ l := fun heq => h (heq ▸ rfl)
      exact (Vec3.lane_setLane _ l l' v).trans (if_neg hl)
    | _ => rfl
  | afK0 =>
    cases q with
    | afK0 => exact absurd rfl h
    | afK1 => exact wordOfK1_setK0 e.af.k v
    | _ => rfl
  | afK1 =>
    cases q with
    | afK1 => exact absurd rfl h
    | afK0 => exact wordOfK0_setK1 e.af.k v
    | _ => rfl
  | pix i =>
    cases q with
    | pix i' =>
      have hi : i.val ≠ i'.val := fun heq => h (Fin.ext heq ▸ rfl)
      simp [Engine.writeReg, Engine.readReg, hi]
    | _ => rfl
  | cblk j =>
    cases q with
    | cblk j' =>
      have hj : j' ≠ j := fun heq => h (heq ▸ rfl)
      exact Engine.cblk_writeReg_other e hj v
    | _ => rfl
  | clen =>
    cases q with
    | clen => exact absurd rfl h
    | _ => rfl
  | fitIdx =>
    cases q with
    | fitIdx => exact absurd rfl h
    | _ => rfl
  | fitLv =>
    cases q with
    | fitLv => exact absurd rfl h
    | _ => rfl
  | afEnd =>
    cases q with
    | afEnd => exact absurd rfl h
    | _ => rfl

theorem Engine.writeReg_readOnly (e : Engine) {r : Reg} (h : r.acc = .ro) (v : Word) : e.writeReg r v = e := by
  cases r with
  | status | fitErr | csInfo => rfl
  | csRemap _ | dpix _ | csRgb _ | csW _ => rfl
  | _ => cases h

/-- Settles O11: a write reaches the register at its offset, which takes the bits it stores and leaves the others. -/
theorem writesStoreTheWritableBits : Obligations.WritesStoreTheWritableBits := by
  intro s r v rest hr hp
  exact ⟨_, (step_write hp).trans (hostWrite_reg hr v rest s), rfl, rfl, fun hrw => s.eng.readReg_writeReg_same hrw v,
    fun hro => s.eng.writeReg_readOnly hro v, fun q hq => s.eng.readReg_writeReg_other hq v⟩

end Sys2Proof.Machine

/-!
What each command leaves alone: an effect changes the registers of its row of R21 and no others.
-/
namespace Sys2Proof.Machine

/-! ### Effects as updates of fields -/

theorem Engine.readReg_of_status (e : Engine) (st : Status) {r : Reg} (hst : r ≠ .status) :
    ({ e with status := st } : Engine).readReg r = e.readReg r := by
  cases r with
  | status => exact absurd rfl hst
  | _ => rfl

theorem Engine.exists_fitDispatch_eq (e : Engine) (lv : Levels) (fit : FitQuality) (met : Metric) (pt : Bool)
    (ro : Nat) : ∃ st regs, e.fitDispatch lv fit met pt ro = { e with status := st, fit := regs } := by
  unfold Engine.fitDispatch
  split
  · exact e.exists_fitSingle_eq lv met
  · split
    · exact ⟨e.status, _, by rw [Engine.fitRange_eq, Engine.commit_eq]⟩
    · exact ⟨e.status, _, by rw [Engine.fitCluster_eq, Engine.commit_eq]⟩

theorem Engine.exists_setHalf_eq (h : Half) (b : Vector Byte 8) (e : Engine) :
    ∃ blk, e.setHalf h b = { e with cblk := blk } := ⟨_, rfl⟩

theorem Engine.exists_colourEnc_eq (off : Half) (e : Engine) : ∃ blk, e.colourEnc off = { e with cblk := blk } :=
  Engine.exists_setHalf_eq off _ e

theorem Engine.exists_alphaEnc4_eq (off : Half) (e : Engine) : ∃ blk, e.alphaEnc4 off = { e with cblk := blk } :=
  Engine.exists_setHalf_eq off _ e

theorem Engine.exists_alphaEnc8_eq (off : Half) (e : Engine) : ∃ blk, e.alphaEnc8 off = { e with cblk := blk } :=
  Engine.exists_setHalf_eq off _ e

theorem Engine.exists_clearUpper_eq (e : Engine) : ∃ blk, e.clearUpper = { e with cblk := blk } :=
  Engine.exists_setHalf_eq .upper _ e

/-- The colour part of COMPRESS writes `STATUS`, the colour set, the fit and the block (R342). -/
theorem Engine.exists_colourPart_eq (lv : Levels) (fit : FitQuality) (met : Metric) (pt wa : Bool) (ro : Nat)
    (off : Half) (e : Engine) : ∃ st regs cs blk,
      e.colourPart lv fit met pt wa ro off = { e with status := st, fit := regs, cs := cs, cblk := blk } := by
  obtain ⟨st, regs, hfit⟩ := (e.csBuild pt wa).exists_fitDispatch_eq lv fit met pt ro
  obtain ⟨blk, hblk⟩ := ((e.csBuild pt wa).fitDispatch lv fit met pt ro).exists_colourEnc_eq off
  exact ⟨st, regs, _, blk, by rw [Engine.colourPart, hblk, hfit, Engine.csBuild]⟩

theorem Engine.exists_alphaPart_eq (ch : Channel) (off : Half) (e : Engine) :
    ∃ af blk, e.alphaPart ch off = { e with af := af, cblk := blk } := by
  obtain ⟨blk, hblk⟩ := (e.alphaFitCh ch).exists_alphaEnc8_eq off
  exact ⟨_, blk, by rw [Engine.alphaPart, hblk, Engine.alphaFitCh]⟩

/-- COMPRESS writes all but the pixels and the decoded block (R21). -/
theorem Engine.exists_compressBlock_eq (f : Format) (fit : FitQuality) (met : Metric) (pt wa : Bool) (ro : Nat)
    (e : Engine) : ∃ st len regs af cs blk, e.compressBlock f fit met pt wa ro
      = { e with status := st, clen := len, fit := regs, af := af, cs := cs, cblk := blk } := by
  cases f with
  | bc1 =>
    obtain ⟨st, regs, cs, blk, h⟩ := e.exists_colourPart_eq (levelsOfPt pt) fit met pt wa ro .lower
    obtain ⟨blk', h'⟩ := (e.colourPart (levelsOfPt pt) fit met pt wa ro .lower).exists_clearUpper_eq
    exact ⟨st, _, regs, e.af, cs, blk', by rw [Engine.compressBlock, h', h, Engine.setLen]⟩
  | bc2 =>
    obtain ⟨blk', h'⟩ := e.exists_alphaEnc4_eq .lower
    obtain ⟨st, regs, cs, blk, h⟩ := (e.alphaEnc4 .lower).exists_colourPart_eq .four fit met false wa ro .upper
    exact ⟨st, _, regs, e.af, cs, blk, by rw [Engine.compressBlock, h, h', Engine.setLen]⟩
  | bc3 =>
    obtain ⟨af, blk', h'⟩ := e.exists_alphaPart_eq .a .lower
    obtain ⟨st, regs, cs, blk, h⟩ := (e.alphaPart .a .lower).exists_colourPart_eq .four fit met false wa ro .upper
    exact ⟨st, _, regs, af, cs, blk, by rw [Engine.compressBlock, h, h', Engine.setLen]⟩
  | bc4 =>
    obtain ⟨af, blk, h⟩ := e.exists_alphaPart_eq .r .lower
    obtain ⟨blk', h'⟩ := (e.alphaPart .r .lower).exists_clearUpper_eq
    exact ⟨e.status, _, e.fit, af, e.cs, blk', by rw [Engine.compressBlock, h', h, Engine.setLen]⟩
  | bc5 =>
    obtain ⟨af, blk, h⟩ := e.exists_alphaPart_eq .r .lower
    obtain ⟨af', blk', h'⟩ := (e.alphaPart .r .lower).exists_alphaPart_eq .g .upper
    exact ⟨e.status, _, e.fit, af', e.cs, blk', by rw [Engine.compressBlock, h', h, Engine.setLen]⟩

/-- DECOMPRESS writes the decoded block alone (R350). -/
theorem Engine.exists_decompressBlock_eq (f : Format) (e : Engine) :
    ∃ dpix, e.decompressBlock f = { e with dpix := dpix } := by
  cases f <;> exact ⟨_, rfl⟩

/-! ### The frames -/

theorem SameExcept.mono {W W' : Reg → Bool} {s t : State} (h : SameExcept W s t) (hle : ∀ r, W' r = false → W r = false) :
    SameExcept W' s t := by
  obtain ⟨hpending, hanswer, hregs⟩ := h
  exact ⟨hpending, hanswer, fun r hr => hregs r (hle r hr)⟩

/-- A command whose effect keeps every register it does not list. -/
theorem completeWith_sameExcept {W : Reg → Bool} {f : Engine → Engine} {s : State} (hstatus : W .status = true)
    (h : ∀ r, r ≠ .status → W r = false → (f s.eng).readReg r = s.eng.readReg r) :
    SameExcept W s (s.completeWith f) := by
  refine ⟨rfl, rfl, fun r hr => ?_⟩
  have hne : r ≠ .status := fun heq => by rw [heq, hstatus] at hr; cases hr
  exact ((f s.eng).readReg_of_status _ hne).trans (h r hne hr)

theorem raise_sameExcept_of_status {W : Reg → Bool} (hstatus : W .status = true) (k : ErrorKind) (s : State) :
    SameExcept W s (s.raise k) :=
  (s.raise_sameExcept k).mono fun r hr => beq_eq_false_iff_ne.mpr fun heq => by rw [heq, hstatus] at hr; cases hr

/-- `STATUS` is in every row of the writers column. -/
theorem commandWrites_status (i : Instr) : commandWrites i .status = true := by cases i <;> rfl

theorem compress_readReg {f : Format} {fit : FitQuality} {met : Metric} {pt wa : Bool} {ro : Nat} {r : Reg}
    (hr : commandWrites (.compress (.supported f) fit met pt wa ro) r = false) (e : Engine) :
    (e.compressBlock f fit met pt wa ro).readReg r = e.readReg r := by
  obtain ⟨st, len, regs, af, cs, blk, h⟩ := e.exists_compressBlock_eq f fit met pt wa ro
  rw [h]
  cases r with
  | cmd => rfl
  | pix i => rfl
  | dpix i => rfl
  | _ => cases hr

/-- An effect leaves every register outside its command's row (R21). -/
theorem commandEffect_readReg {i : Instr} (hi : i ≠ .sreset) {r : Reg} (hst : r ≠ .status)
    (hr : commandWrites i r = false) (e : Engine) : (commandEffect i e).readReg r = e.readReg r := by
  have hrow {b : Bool} (hb : (r == .status || b) = false) : b = false := (Bool.or_eq_false_iff.mp hb).2
  cases i with
  | sreset => exact absurd rfl hi
  | nop => rfl
  | clrerr => exact e.readReg_of_status _ hst
  | compress fmt fit met pt wa ro =>
    cases fmt with
    | reserved n => rfl
    | supported f => exact compress_readReg hr e
  | decompress fmt =>
    cases fmt with
    | reserved n => rfl
    | supported f =>
      obtain ⟨dpix, h⟩ := e.exists_decompressBlock_eq f
      rw [commandEffect, h]
      exact e.readReg_of_status_dpix e.status dpix hst (hrow hr)
  | csbuild pt wa => exact e.readReg_of_status_cs e.status (buildSet pt wa e.pix) hst (hrow hr)
  | fitsingle lv met =>
    obtain ⟨st, regs, h⟩ := e.exists_fitSingle_eq lv met
    rw [commandEffect, h]
    exact e.readReg_of_status_fit st regs hst (hrow hr)
  | fitrange lv met =>
    rw [commandEffect, Engine.fitRange_eq, Engine.commit_eq]
    exact e.readReg_of_status_fit e.status _ hst (hrow hr)
  | fitcluster lv met pt ro =>
    rw [commandEffect, Engine.fitCluster_eq, Engine.commit_eq]
    exact e.readReg_of_status_fit e.status _ hst (hrow hr)
  | cenc off => exact e.readReg_of_status_half e.status off _ hst (hrow hr)
  | aenc4 off => exact e.readReg_of_status_half e.status off _ hst (hrow hr)
  | aenc8 off => exact e.readReg_of_status_half e.status off _ hst (hrow hr)
  | cdec off m3 => exact e.readReg_of_status_dpix e.status _ hst (hrow hr)
  | adec4 off => exact e.readReg_of_status_dpix e.status _ hst (hrow hr)
  | adec8 off ch => exact e.readReg_of_status_dpix e.status _ hst (hrow hr)
  | afit ch => exact e.readReg_of_status_af e.status _ hst (hrow hr)

/-- Settles O14: a raise writes `STATUS` alone, SRESET is listed for every register, and every other effect keeps what
its row does not list. -/
theorem commandsWriteOnlyTheirRegisters : Obligations.CommandsWriteOnlyTheirRegisters := by
  intro i s t h
  rcases exec_effect_cases h with ⟨k, -, rfl⟩ | ⟨rfl, rfl⟩ | ⟨-, hi, rfl⟩
  · exact raise_sameExcept_of_status (commandWrites_status i) k s
  · exact ⟨rfl, rfl, nofun⟩
  · exact completeWith_sameExcept (commandWrites_status i) fun r hst hr => commandEffect_readReg hi hst hr s.eng

end Sys2Proof.Machine

/-!
No command reads a flag: an effect on an engine with other flags is the effect on the engine itself, with flags carried
along (R40, R412).
-/
namespace Sys2Proof.Machine

/-- The colour set with another `CS_TRANSP`. -/
def ColourSet.setTransp (b : Bool) (cs : ColourSet) : ColourSet := { cs with transp := b }

/-- The engine with another `STATUS` and another `CS_TRANSP`. -/
def Engine.reflag (st : Status) (b : Bool) (e : Engine) : Engine := { e with status := st, cs := e.cs.setTransp b }

theorem ColourSet.setTransp_count (b : Bool) (cs : ColourSet) : (cs.setTransp b).count = cs.count := rfl

theorem ColourSet.setTransp_self (cs : ColourSet) : cs.setTransp cs.transp = cs := rfl

theorem Engine.reflag_cs (st : Status) (b : Bool) (e : Engine) : (e.reflag st b).cs = e.cs.setTransp b := rfl

/-- What a command makes of two engines that differ in their flags: results that do, `SNA` and `CS_TRANSP` written alike
or kept. -/
structure FlagBlindAt (f : Engine → Engine) (e : Engine) (st : Status) (b : Bool) (st' : Status) (b' : Bool) : Prop where
  effect : f (e.reflag st b) = (f e).reflag st' b'
  transp : b' = (f e).cs.transp ∨ (f e).cs.transp = e.cs.transp ∧ b' = b
  sna : st'.sna = (f e).status.sna ∨ (f e).status.sna = e.status.sna ∧ st'.sna = st.sna

/-- An effect that no flag influences but flags. -/
def FlagBlind (f : Engine → Engine) : Prop := ∀ e st b, ∃ st' b', FlagBlindAt f e st b st' b'

/-- An effect that carries the flags along unread. -/
theorem FlagBlind.of_commutes {f : Engine → Engine} (h : ∀ e st b, f (e.reflag st b) = (f e).reflag st b)
    (hcs : ∀ e, (f e).cs = e.cs) (hstatus : ∀ e, (f e).status = e.status) : FlagBlind f := fun e st b =>
  ⟨st, b, h e st b, .inr ⟨by rw [hcs], rfl⟩, .inr ⟨by rw [hstatus], rfl⟩⟩

theorem FlagBlind.comp {f g : Engine → Engine} (hg : FlagBlind g) (hf : FlagBlind f) : FlagBlind fun e => g (f e) := by
  intro e st b
  obtain ⟨st₁, b₁, heff₁, htr₁, hsna₁⟩ := hf e st b
  obtain ⟨st₂, b₂, heff₂, htr₂, hsna₂⟩ := hg (f e) st₁ b₁
  refine ⟨st₂, b₂, by rw [heff₁, heff₂], ?_, ?_⟩
  · rcases htr₂ with h | ⟨h, rfl⟩
    · exact .inl h
    · rw [h]
      exact htr₁
  · rcases hsna₂ with h | ⟨h, h'⟩
    · exact .inl h
    · rw [h, h']
      exact hsna₁

/-! ### The fits read no flag of the set -/

theorem rangeFitCore_setTransp (cs : ColourSet) (b : Bool) (lv : Levels) (m : Vec3) :
    rangeFitCore (cs.setTransp b) lv m = rangeFitCore cs lv m := rfl

theorem candidateFit_setTransp (cs : ColourSet) (b : Bool) (lv : Levels) (m : Vec3) (x : List (Fin 16) × Cuts) :
    candidateFit (cs.setTransp b) lv m x = candidateFit cs lv m x := by
  have hpre (acc : GroupAcc) (o : List (Fin 16)) : prefixSums (cs.setTransp b) acc o = prefixSums cs acc o := by
    induction o generalizing acc with
    | nil => rfl
    | cons i o ih => exact congrArg (acc :: ·) (ih _)
  have herr (m : Vec3) (lvs : List Rgb8) (c : Cuts) (acc : F32) (t : Nat) (o : List (Fin 16)) :
      splitErrFrom (cs.setTransp b) m lvs c acc t o = splitErrFrom cs m lvs c acc t o := by
    induction o generalizing acc t with
    | nil => rfl
    | cons i o ih => exact ih _ _
  simp only [candidateFit, evalSplit, hpre, herr]

theorem tryCandidate_setTransp (cs : ColourSet) (b : Bool) (lv : Levels) (m : Vec3) :
    Search.tryCandidate (cs.setTransp b) lv m = Search.tryCandidate cs lv m := by
  funext s x
  rw [Search.tryCandidate_eq, Search.tryCandidate_eq, candidateFit_setTransp]

theorem reorderPasses_setTransp (cs : ColourSet) (b : Bool) (lv : Levels) (pt : Bool) (m : Vec3) (ro : Nat) (best : Best) :
    reorderPasses (cs.setTransp b) lv pt m ro best = reorderPasses cs lv pt m ro best := by
  induction ro generalizing best with
  | zero => rfl
  | succ ro ih =>
    simp only [reorderPasses, reorderPass_eq, tryCandidate_setTransp, ih]

theorem axis_setTransp (cs : ColourSet) (b : Bool) : axis (cs.setTransp b) = axis cs := rfl

theorem sortByProjection_setTransp (cs : ColourSet) (b : Bool) (v : Vec3) :
    sortByProjection (cs.setTransp b) v = sortByProjection cs v := rfl

theorem clusterFitCore_setTransp (cs : ColourSet) (b : Bool) (lv : Levels) (m : Vec3) (pt : Bool) (ro : Nat) :
    clusterFitCore (cs.setTransp b) lv m pt ro = clusterFitCore cs lv m pt ro := by
  simp only [clusterFitCore, splitSearch_eq, tryCandidate_setTransp, reorderPasses_setTransp, axis_setTransp,
    sortByProjection_setTransp, rangeFitCore_setTransp, ColourSet.setTransp_count]

theorem spread_setTransp (cs : ColourSet) (b : Bool) (x : Vector (BitVec 2) 16) :
    spread (cs.setTransp b) x = spread cs x := rfl

/-! ### The effects -/

theorem flagBlind_setHalf (off : Half) (blk : Engine → Vector Byte 8)
    (hblk : ∀ e st b, blk (e.reflag st b) = blk e) : FlagBlind fun e => e.setHalf off (blk e) :=
  FlagBlind.of_commutes (fun e st b => by rw [hblk]; rfl) (fun e => Engine.setHalf_cs off _ e)
    (fun e => Engine.setHalf_status off _ e)

theorem Engine.half_reflag (off : Half) (e : Engine) (st : Status) (b : Bool) : (e.reflag st b).half off = e.half off :=
  Engine.half_congr rfl off

theorem flagBlind_dpix (dpix : Engine → Vector Pixel 16) (h : ∀ e st b, dpix (e.reflag st b) = dpix e) :
    FlagBlind fun e => { e with dpix := dpix e } :=
  FlagBlind.of_commutes (fun e st b => by rw [h]; rfl) (fun _ => rfl) (fun _ => rfl)

theorem flagBlind_colourEnc (off : Half) : FlagBlind (Engine.colourEnc off) :=
  flagBlind_setHalf off (fun e => encodeColour e.fit) fun _ _ _ => rfl

theorem flagBlind_alphaEnc4 (off : Half) : FlagBlind (Engine.alphaEnc4 off) :=
  flagBlind_setHalf off (fun e => encodeAlpha4 e.pix) fun _ _ _ => rfl

theorem flagBlind_alphaEnc8 (off : Half) : FlagBlind (Engine.alphaEnc8 off) :=
  flagBlind_setHalf off (fun e => encodeAlpha8 e.af) fun _ _ _ => rfl

theorem flagBlind_clearUpper : FlagBlind Engine.clearUpper :=
  flagBlind_setHalf .upper (fun _ => Vector.replicate 8 0) fun _ _ _ => rfl

theorem flagBlind_colourDec (off : Half) (m3 : Bool) : FlagBlind (Engine.colourDec off m3) :=
  flagBlind_dpix (fun e => decodeColour m3 (e.half off)) fun e st b => by rw [Engine.half_reflag]

theorem flagBlind_alphaDec4 (off : Half) : FlagBlind (Engine.alphaDec4 off) :=
  flagBlind_dpix (fun e => tab16 fun i => e.dpix[i].setCh .a (decodeAlpha4 (e.half off) i)) fun e st b => by
    rw [Engine.half_reflag]
    rfl

theorem flagBlind_alphaDec8 (off : Half) (ch : Channel) : FlagBlind (Engine.alphaDec8 off ch) :=
  flagBlind_dpix (fun e => tab16 fun i => e.dpix[i].setCh ch (decodeAlpha8 (e.half off) i)) fun e st b => by
    rw [Engine.half_reflag]
    rfl

theorem flagBlind_fillOpaqueBlack : FlagBlind Engine.fillOpaqueBlack :=
  flagBlind_dpix (fun _ => Vector.replicate 16 ⟨0, 0, 0, 255⟩) fun _ _ _ => rfl

theorem Engine.channel_reflag (ch : Channel) (e : Engine) (st : Status) (b : Bool) :
    (e.reflag st b).channel ch = e.channel ch := Engine.channel_congr rfl ch

theorem flagBlind_alphaFitCh (ch : Channel) : FlagBlind (Engine.alphaFitCh ch) :=
  FlagBlind.of_commutes
    (fun e st b => by
      rw [Engine.alphaFitCh, Engine.channel_reflag]
      simp only [Engine.alphaFitCh, Engine.reflag])
    (fun e => Engine.alphaFitCh_cs ch e) (fun e => Engine.alphaFitCh_status ch e)

theorem flagBlind_setLen (n : Nat) : FlagBlind (Engine.setLen n) :=
  FlagBlind.of_commutes (fun _ _ _ => rfl) (fun e => Engine.setLen_cs n e) (fun e => Engine.setLen_status n e)

/-- CSBUILD writes `CS_TRANSP` from the pixels. -/
theorem flagBlind_csBuild (pt wa : Bool) : FlagBlind (Engine.csBuild pt wa) := fun e st b =>
  ⟨st, (buildSet pt wa e.pix).transp, by simp only [Engine.csBuild, Engine.reflag, ColourSet.setTransp_self], .inl rfl,
    .inr ⟨Engine.csBuild_status pt wa e ▸ rfl, rfl⟩⟩

theorem Engine.commit_reflag (qa qb : Rgb565) (x : Vector (BitVec 2) 16) (err : F32) (lv : Levels) (e : Engine)
    (st : Status) (b : Bool) :
    (e.reflag st b).commit qa qb x err lv = (e.commit qa qb x err lv).reflag st b := by
  rw [Engine.commit_eq, Engine.commit_eq, Engine.reflag_cs, spread_setTransp]
  simp only [Engine.reflag]

theorem flagBlind_fitRange (lv : Levels) (met : Metric) : FlagBlind (Engine.fitRange lv met) :=
  FlagBlind.of_commutes
    (fun e st b => by
      rw [Engine.fitRange_eq, Engine.reflag_cs, rangeFitCore_setTransp, Engine.commit_reflag, ← Engine.fitRange_eq])
    (fun e => Engine.fitRange_cs lv met e) (fun e => Engine.fitRange_status lv met e)

theorem flagBlind_fitCluster (lv : Levels) (met : Metric) (pt : Bool) (ro : Nat) :
    FlagBlind (Engine.fitCluster lv met pt ro) :=
  FlagBlind.of_commutes
    (fun e st b => by
      rw [Engine.fitCluster_eq, Engine.reflag_cs, clusterFitCore_setTransp, Engine.commit_reflag,
        ← Engine.fitCluster_eq])
    (fun e => Engine.fitCluster_cs lv met pt ro e) (fun e => Engine.fitCluster_status lv met pt ro e)

theorem singleFit_setTransp (cs : ColourSet) (b : Bool) (lv : Levels) (m : Vec3) (k : IndexChoice) :
    singleFit (cs.setTransp b) lv m k = singleFit cs lv m k := by
  rw [singleFit, spread_setTransp, singleFit, ColourSet.setTransp]

/-- FITSINGLE writes `SNA` from the count (R196). -/
theorem Engine.fitSingle_reflag (lv : Levels) (met : Metric) (e : Engine) (st : Status) (b : Bool) :
    (e.reflag st b).fitSingle lv met = (e.fitSingle lv met).reflag (st.setSna (decide (e.cs.count.val ≠ 1))) b := by
  by_cases h : e.cs.count.val = 1
  · have hrgb : (e.cs.setTransp b).rgb = e.cs.rgb := rfl
    rw [Engine.fitSingle_of_count_eq_one (e := e.reflag st b) h, Engine.fitSingle_of_count_eq_one h, Engine.reflag_cs,
      singleFit_setTransp, hrgb]
    simp only [Engine.reflag, h, ne_eq, not_true, decide_false]
  · rw [Engine.fitSingle_of_count_ne_one (e := e.reflag st b) h, Engine.fitSingle_of_count_ne_one h]
    simp only [Engine.reflag, ne_eq, h, not_false_eq_true, decide_true]

theorem Engine.fitSingle_cs (lv : Levels) (met : Metric) (e : Engine) : (e.fitSingle lv met).cs = e.cs := by
  obtain ⟨st, fit, h⟩ := e.exists_fitSingle_eq lv met
  rw [h]

theorem flagBlind_fitSingle (lv : Levels) (met : Metric) : FlagBlind (Engine.fitSingle lv met) := fun e st b =>
  ⟨_, b, e.fitSingle_reflag lv met st b, .inr ⟨by rw [Engine.fitSingle_cs], rfl⟩,
    .inl (by rw [Engine.fitSingle_status, Status.setSna_sna, Status.setSna_sna])⟩

theorem Engine.fitDispatch_of_one {e : Engine} (h : e.cs.count.val = 1) (lv : Levels) (fit : FitQuality)
    (met : Metric) (pt : Bool) (ro : Nat) : e.fitDispatch lv fit met pt ro = e.fitSingle lv met := by
  rw [Engine.fitDispatch, if_pos h]

theorem Engine.fitDispatch_of_range {e : Engine} {fit : FitQuality} (h : e.cs.count.val ≠ 1)
    (hr : fit = .rangeFit ∨ e.cs.count.val = 0) (lv : Levels) (met : Metric) (pt : Bool) (ro : Nat) :
    e.fitDispatch lv fit met pt ro = e.fitRange lv met := by
  rw [Engine.fitDispatch, if_neg h, if_pos hr]

theorem Engine.fitDispatch_of_cluster {e : Engine} {fit : FitQuality} (h : e.cs.count.val ≠ 1)
    (hr : ¬(fit = .rangeFit ∨ e.cs.count.val = 0)) (lv : Levels) (met : Metric) (pt : Bool) (ro : Nat) :
    e.fitDispatch lv fit met pt ro = e.fitCluster lv met pt ro := by
  rw [Engine.fitDispatch, if_neg h, if_neg hr]

/-- An effect that is, on an engine and on it with other flags, one that reads no flag. -/
theorem FlagBlind.at_congr {f g : Engine → Engine} (hg : FlagBlind g) {e : Engine} {st : Status} {b : Bool}
    (he : f e = g e) (he' : f (e.reflag st b) = g (e.reflag st b)) : ∃ st' b', FlagBlindAt f e st b st' b' := by
  obtain ⟨st', b', heff, htr, hsna⟩ := hg e st b
  exact ⟨st', b', by rw [he, he', heff], by rwa [he], by rwa [he]⟩

/-- The count the dispatch of R344 reads is no flag. -/
theorem flagBlind_fitDispatch (lv : Levels) (fit : FitQuality) (met : Metric) (pt : Bool) (ro : Nat) :
    FlagBlind (Engine.fitDispatch lv fit met pt ro) := by
  intro e st b
  have hcount : (e.reflag st b).cs.count = e.cs.count := rfl
  by_cases h1 : e.cs.count.val = 1
  · exact (flagBlind_fitSingle lv met).at_congr (Engine.fitDispatch_of_one h1 ..)
      (Engine.fitDispatch_of_one (by rwa [hcount]) ..)
  · by_cases h0 : fit = .rangeFit ∨ e.cs.count.val = 0
    · exact (flagBlind_fitRange lv met).at_congr (Engine.fitDispatch_of_range h1 h0 ..)
        (Engine.fitDispatch_of_range (by rwa [hcount]) (by rwa [hcount]) ..)
    · exact (flagBlind_fitCluster lv met pt ro).at_congr (Engine.fitDispatch_of_cluster h1 h0 ..)
        (Engine.fitDispatch_of_cluster (by rwa [hcount]) (by rwa [hcount]) ..)

theorem flagBlind_colourPart (lv : Levels) (fit : FitQuality) (met : Metric) (pt wa : Bool) (ro : Nat) (off : Half) :
    FlagBlind (Engine.colourPart lv fit met pt wa ro off) :=
  (flagBlind_colourEnc off).comp ((flagBlind_fitDispatch lv fit met pt ro).comp (flagBlind_csBuild pt wa))

theorem flagBlind_alphaPart (ch : Channel) (off : Half) : FlagBlind (Engine.alphaPart ch off) :=
  (flagBlind_alphaEnc8 off).comp (flagBlind_alphaFitCh ch)

theorem flagBlind_compressBlock (f : Format) (fit : FitQuality) (met : Metric) (pt wa : Bool) (ro : Nat) :
    FlagBlind (Engine.compressBlock f fit met pt wa ro) := by
  cases f with
  | bc1 => exact (flagBlind_setLen _).comp (flagBlind_clearUpper.comp (flagBlind_colourPart _ fit met pt wa ro .lower))
  | bc2 => exact (flagBlind_setLen _).comp ((flagBlind_colourPart _ fit met _ wa ro .upper).comp (flagBlind_alphaEnc4 _))
  | bc3 => exact (flagBlind_setLen _).comp ((flagBlind_colourPart _ fit met _ wa ro .upper).comp (flagBlind_alphaPart _ _))
  | bc4 => exact (flagBlind_setLen _).comp (flagBlind_clearUpper.comp (flagBlind_alphaPart _ _))
  | bc5 => exact (flagBlind_setLen _).comp ((flagBlind_alphaPart _ _).comp (flagBlind_alphaPart _ _))

theorem flagBlind_decompressBlock (f : Format) : FlagBlind (Engine.decompressBlock f) := by
  cases f with
  | bc1 => exact flagBlind_colourDec .lower true
  | bc2 => exact (flagBlind_alphaDec4 .lower).comp (flagBlind_colourDec .upper false)
  | bc3 => exact (flagBlind_alphaDec8 .lower .a).comp (flagBlind_colourDec .upper false)
  | bc4 => exact (flagBlind_alphaDec8 .lower .r).comp flagBlind_fillOpaqueBlack
  | bc5 => exact (flagBlind_alphaDec8 .upper .g).comp ((flagBlind_alphaDec8 .lower .r).comp flagBlind_fillOpaqueBlack)

theorem flagBlind_id : FlagBlind id := FlagBlind.of_commutes (fun _ _ _ => rfl) (fun _ => rfl) (fun _ => rfl)

theorem flagBlind_commandEffect {i : Instr} (hi : i ≠ .sreset) : FlagBlind (commandEffect i) := by
  cases i with
  | sreset => exact absurd rfl hi
  | nop => exact flagBlind_id
  | clrerr => exact fun e st b => ⟨st.clearErr, b, rfl, .inr ⟨rfl, rfl⟩, .inr ⟨rfl, rfl⟩⟩
  | compress fmt fit met pt wa ro =>
    cases fmt with
    | reserved n => exact flagBlind_id
    | supported f => exact flagBlind_compressBlock f fit met pt wa ro
  | decompress fmt =>
    cases fmt with
    | reserved n => exact flagBlind_id
    | supported f => exact flagBlind_decompressBlock f
  | csbuild pt wa => exact flagBlind_csBuild pt wa
  | fitsingle lv met => exact flagBlind_fitSingle lv met
  | fitrange lv met => exact flagBlind_fitRange lv met
  | fitcluster lv met pt ro => exact flagBlind_fitCluster lv met pt ro
  | cenc off => exact flagBlind_colourEnc off
  | cdec off m3 => exact flagBlind_colourDec off m3
  | aenc4 off => exact flagBlind_alphaEnc4 off
  | adec4 off => exact flagBlind_alphaDec4 off
  | afit ch => exact flagBlind_alphaFitCh ch
  | aenc8 off => exact flagBlind_alphaEnc8 off
  | adec8 off ch => exact flagBlind_alphaDec8 off ch

/-! ### The commands -/

/-- Other flags show in `STATUS` and `CS_INFO` alone. -/
theorem Engine.readReg_reflag (e : Engine) (st : Status) (b : Bool) {r : Reg} (hst : r ≠ .status) (hinfo : r ≠ .csInfo) :
    (e.reflag st b).readReg r = e.readReg r := by
  cases r with
  | status => exact absurd rfl hst
  | csInfo => exact absurd rfl hinfo
  | _ => rfl

/-- The table of R402 reads no flag. -/
theorem raisesIn_reflag (i : Instr) (s : State) (st : Status) (b : Bool) :
    raisesIn i { s with eng := s.eng.reflag st b } = raisesIn i s := by
  unfold raisesIn
  rfl

/-- Settles O21: what raises does so for every value of the flags; SRESET overwrites them; every other effect carries
them along or writes them alike. -/
theorem commandsDoNotReadTheFlags : Obligations.CommandsDoNotReadTheFlags := by
  intro i s st b
  obtain ⟨t, ht⟩ := exists_exec_eq_next i s
  obtain ⟨t', ht'⟩ := exists_exec_eq_next i { s with eng := s.eng.reflag st b }
  refine ⟨t, t', ht, ht', ?_⟩
  have htable := raisesIn_reflag i s st b
  rcases exec_effect_cases ht with ⟨k, hk, rfl⟩ | ⟨rfl, rfl⟩ | ⟨hnone, hi, rfl⟩
  · cases (exec_of_raisesIn_some (htable.trans hk)).symm.trans ht'
    exact ⟨rfl, rfl, fun r hst hinfo => (Engine.readReg_raise hst k _).trans
      ((s.eng.readReg_reflag st b hst hinfo).trans (Engine.readReg_raise hst k _).symm), rfl, .inr ⟨rfl, rfl⟩, rfl,
      .inr ⟨rfl, rfl⟩⟩
  · cases (exec_sreset _).symm.trans ht'
    exact ⟨rfl, rfl, fun _ _ _ => rfl, rfl, .inl rfl, rfl, .inl rfl⟩
  · cases (exec_of_raisesIn_none (htable.trans hnone) hi).symm.trans ht'
    obtain ⟨st', b', heff, htr, hsna⟩ := flagBlind_commandEffect hi s.eng st b
    simp only [State.completeWith_eq, heff]
    generalize commandEffect i s.eng = e at htr hsna ⊢
    exact ⟨trivial, trivial, fun r hst hinfo => (e.readReg_reflag st'.complete b' hst hinfo).trans
      (e.readReg_of_status e.status.complete hst).symm, rfl, htr, rfl, hsna⟩

end Sys2Proof.Machine

/-!
The colour block both ways: packing is one to one, and a fit encoded and decoded gives every pixel the level its index
names (R270, R282, R283).
-/
namespace Sys2Proof.Machine

/-! ### Endpoints, indices, bytes -/

theorem Rgb565.ext_toNat {q p : Rgb565} (hr : q.r.toNat = p.r.toNat) (hg : q.g.toNat = p.g.toNat)
    (hb : q.b.toNat = p.b.toNat) : q = p := by
  cases q
  cases p
  simp only [Rgb565.mk.injEq]
  exact ⟨BitVec.eq_of_toNat_eq hr, BitVec.eq_of_toNat_eq hg, BitVec.eq_of_toNat_eq hb⟩

theorem toNat_pack565 (q : Rgb565) :
    (pack565 q).toNat = 2 ^ 11 * q.r.toNat + 2 ^ 5 * q.g.toNat + q.b.toNat := by
  have hr := q.r.isLt
  have hg := q.g.isLt
  have hb := q.b.isLt
  rw [pack565, BitVec.toNat_ofNat]
  omega

theorem unpack565_pack565 (q : Rgb565) : unpack565 (pack565 q) = q := by
  have hr := q.r.isLt
  have hg := q.g.isLt
  have hb := q.b.isLt
  apply Rgb565.ext_toNat <;> simp only [unpack565, toNat_pack565, BitVec.toNat_ofNat] <;> omega

theorem pack565_unpack565 (p : BitVec 16) : pack565 (unpack565 p) = p := by
  apply BitVec.eq_of_toNat_eq
  simp only [toNat_pack565, unpack565, BitVec.toNat_ofNat]
  omega

theorem pack565_inj {q p : Rgb565} (h : pack565 q = pack565 p) : q = p := by
  rw [← unpack565_pack565 q, h, unpack565_pack565]

/-- The index of a pixel is the digit of its number in the index byte of its row (R110, R274). -/
theorem wireIndex2_toBytes (x : ColourBlock) (i : Fin 16) : wireIndex2 x.toBytes i = (x.x[i]).toNat := by
  have hbyte : x.toBytes[4 + i.val / 4] = idxByte x.x ⟨i.val / 4, by omega⟩ :=
    x.toBytes_idxByte ⟨i.val / 4, by omega⟩
  have h0 := x.x[4 * (i.val / 4)].isLt
  have h1 := x.x[4 * (i.val / 4) + 1].isLt
  have h2 := x.x[4 * (i.val / 4) + 2].isLt
  have h3 := x.x[4 * (i.val / 4) + 3].isLt
  have hdigit := Nat.div_add_mod i.val 4
  have hplace : i.val % 4 = 0 ∨ i.val % 4 = 1 ∨ i.val % 4 = 2 ∨ i.val % 4 = 3 := by omega
  have hx {k : Nat} (hk : k < 16) (h : k = i.val) : (x.x[i]).toNat = (x.x[k]).toNat := by
    subst h
    rfl
  rw [wireIndex2, hbyte, toNat_idxByte]
  dsimp only
  rcases hplace with hm | hm | hm | hm <;> rw [hm] at hdigit ⊢ <;> rw [hx (by omega) hdigit]
  · simp only [Nat.add_zero]
    omega
  · omega
  · omega
  · omega

theorem ColourBlock.ofBytes_toBytes (x : ColourBlock) : ofBytes x.toBytes = x := by
  obtain ⟨h0, h1, h2, h3⟩ := x.toBytes_endpoints
  have ha : (ofBytes x.toBytes).a = x.a := BitVec.eq_of_toNat_eq <| by
    rw [ofBytes, toNat_word16, h0, h1]
    omega
  have hb : (ofBytes x.toBytes).b = x.b := BitVec.eq_of_toNat_eq <| by
    rw [ofBytes, toNat_word16, h2, h3]
    omega
  have hx : (ofBytes x.toBytes).x = x.x := vector_eq_of_getElem fun i => BitVec.eq_of_toNat_eq <| by
    rw [toNat_ofBytes_x, wireIndex2_toBytes]
  calc ofBytes x.toBytes = ⟨(ofBytes x.toBytes).a, (ofBytes x.toBytes).b, (ofBytes x.toBytes).x⟩ := rfl
    _ = ⟨x.a, x.b, x.x⟩ := by rw [ha, hb, hx]

/-- A byte of indices is the byte they were read from. -/
theorem idxByte_ofBytes (y : Vector Byte 8) (j : Fin 4) : idxByte (ColourBlock.ofBytes y).x j = y[4 + j.val] := by
  have hj := j.isLt
  have hx (k : Nat) (hk : k < 4) : ((ColourBlock.ofBytes y).x[4 * j.val + k]).toNat = y[4 + j.val].toNat / 4 ^ k % 4 := by
    have h := ColourBlock.toNat_ofBytes_x y ⟨4 * j.val + k, by omega⟩
    have hdiv : (4 * j.val + k) / 4 = j.val := by omega
    have hmod : (4 * j.val + k) % 4 = k := by omega
    simpa only [wireIndex2, Fin.getElem_fin, hdiv, hmod] using h
  have h0 : ((ColourBlock.ofBytes y).x[4 * j.val]).toNat = y[4 + j.val].toNat / 4 ^ 0 % 4 := hx 0 (by decide)
  have hbyte := y[4 + j.val].isLt
  apply BitVec.eq_of_toNat_eq
  rw [toNat_idxByte, h0, hx 1 (by decide), hx 2 (by decide), hx 3 (by decide)]
  omega

theorem ColourBlock.toBytes_ofBytes (y : Vector Byte 8) : (ofBytes y).toBytes = y := by
  obtain ⟨h0, h1, h2, h3⟩ := (ofBytes y).toBytes_endpoints
  have ha : (ofBytes y).a.toNat = y[0].toNat + 256 * y[1].toNat := toNat_word16 _ _
  have hb : (ofBytes y).b.toNat = y[2].toNat + 256 * y[3].toNat := toNat_word16 _ _
  have hy (i : Nat) (hi : i < 8) := y[i].isLt
  have hlow : ∀ i (hi : i < 4), ((ofBytes y).toBytes[i]).toNat = (y[i]).toNat := by
    intro i hi
    have y0 := hy 0 (by decide)
    have y2 := hy 2 (by decide)
    interval_cases i
    · rw [h0, ha]; omega
    · rw [h1, ha]; omega
    · rw [h2, hb]; omega
    · rw [h3, hb]; omega
  refine Vector.ext fun i hi => ?_
  by_cases h : i < 4
  · exact BitVec.eq_of_toNat_eq (hlow i h)
  · have hidx := (ofBytes y).toBytes_idxByte ⟨i - 4, by omega⟩
    rw [idxByte_ofBytes] at hidx
    simpa only [show 4 + (i - 4) = i by omega] using hidx

/-- Settles O44: packed fields and bytes read back digit by digit. -/
theorem colourBlockPackingIsInvertible : Obligations.ColourBlockPackingIsInvertible :=
  ⟨unpack565_pack565, pack565_unpack565, ColourBlock.ofBytes_toBytes, ColourBlock.toBytes_ofBytes⟩

/-! ### Exchanged endpoints -/

theorem blend_comm (p q : Nat) (a b : Byte) : blend p q a b = blend q p b a := by
  rw [blend, blend, Nat.add_comm (p * a.toNat), Nat.add_comm p]

theorem blendRgb_comm (p q : Nat) (a b : Rgb8) : blendRgb p q a b = blendRgb q p b a := by
  rw [blendRgb, blendRgb, blend_comm, blend_comm p q a.g, blend_comm p q a.b]

theorem blendRgb_self {p q : Nat} (h : 0 < p + q) (a : Rgb8) : blendRgb p q a a = a := by
  have hself (x : Byte) : blend p q x x = x := by
    rw [blend, ← Nat.add_mul, Nat.mul_div_cancel_left _ h, BitVec.ofNat_toNat, BitVec.setWidth_eq]
  rw [blendRgb, hself, hself, hself]

/-- Exchanged endpoints with exchanged indices are the same four levels (R273). -/
theorem levels8_four_flip (qa qb : Rgb565) (k : BitVec 2) :
    (levels8 qb qa .four)[(flip4 k).toNat]? = (levels8 qa qb .four)[k.toNat]? := by
  have hk : k = 0#2 ∨ k = 1#2 ∨ k = 2#2 ∨ k = 3#2 := by bv_omega
  rcases hk with rfl | rfl | rfl | rfl
  · rfl
  · rfl
  · exact congrArg some (blendRgb_comm 1 2 (expand565 qb) (expand565 qa))
  · exact congrArg some (blendRgb_comm 2 1 (expand565 qb) (expand565 qa))

/-- Exchanged endpoints with exchanged indices are the same three levels, and index 3 names none (R273). -/
theorem levels8_three_flip (qa qb : Rgb565) (k : BitVec 2) :
    (levels8 qb qa .three)[(flip3 k).toNat]? = (levels8 qa qb .three)[k.toNat]? := by
  have hk : k = 0#2 ∨ k = 1#2 ∨ k = 2#2 ∨ k = 3#2 := by bv_omega
  rcases hk with rfl | rfl | rfl | rfl
  · rfl
  · rfl
  · exact congrArg some (blendRgb_comm 1 1 (expand565 qb) (expand565 qa))
  · rfl

/-- Between equal endpoints every level is the one colour. -/
theorem levels8_four_self (q : Rgb565) (k : BitVec 2) : (levels8 q q .four)[k.toNat]? = some (expand565 q) := by
  have hk : k = 0#2 ∨ k = 1#2 ∨ k = 2#2 ∨ k = 3#2 := by bv_omega
  rcases hk with rfl | rfl | rfl | rfl
  · rfl
  · rfl
  · exact congrArg some (blendRgb_self (by decide) (expand565 q))
  · exact congrArg some (blendRgb_self (by decide) (expand565 q))

/-! ### A fit encoded and decoded -/

/-- The pixel of a level, or transparent black where there is none (R280). -/
def levelPixel : Option Rgb8 → Pixel
  | some l => l.withAlpha 255#8
  | none => Pixel.zero

theorem ColourBlock.pixel_eq (m3 : Bool) (c : ColourBlock) (k : BitVec 2) :
    c.pixel m3 k = levelPixel (levels8 (unpack565 c.a) (unpack565 c.b) (c.levels m3))[k.toNat]? := by
  cases h : (levels8 (unpack565 c.a) (unpack565 c.b) (c.levels m3))[k.toNat]? with
  | none => exact pixel_of_no_level h
  | some l => exact pixel_of_level h

/-- What a decoded pixel is in terms of the stored block. -/
theorem decodeColour_toBytes (m3 : Bool) (c : ColourBlock) (i : Fin 16) :
    (decodeColour m3 c.toBytes)[i] = c.pixel m3 c.x[i] := by
  rw [decodeColour, ColourBlock.ofBytes_toBytes, tab16_getElem_fin]

/-- In the order of the mode, the level of a pixel is the one its fit index names (R271, R273, R283). -/
theorem pixel_orderBlock {lv : Levels} {m3 : Bool} (hm3 : lv = .three → m3 = true) (qa qb : Rgb565)
    (x : Vector (BitVec 2) 16) (i : Fin 16) :
    (orderBlock lv ⟨pack565 qa, pack565 qb, x⟩).pixel m3 (orderBlock lv ⟨pack565 qa, pack565 qb, x⟩).x[i]
      = levelPixel (levels8 qa qb lv)[x[i].toNat]? := by
  cases lv with
  | four =>
    by_cases hlt : (pack565 qa).toNat < (pack565 qb).toNat
    · rw [orderBlock_four_of_lt hlt, ColourBlock.pixel_eq,
        ColourBlock.levels_of_not_mode3 (fun h => absurd h.2 (Nat.not_le.mpr hlt)), unpack565_pack565, unpack565_pack565,
        tab16_getElem_fin, levels8_four_flip]
    · rw [orderBlock_four_of_not_lt hlt, ColourBlock.pixel_eq, unpack565_pack565, unpack565_pack565,
        tab16_getElem_fin]
      by_cases heq : pack565 qa = pack565 qb
      · have hq := pack565_inj heq
        subst hq
        rw [if_pos rfl, levels8_four_self]
        cases ColourBlock.levels m3 _ <;> rfl
      · have hne : (pack565 qa).toNat ≠ (pack565 qb).toNat := fun h => heq (BitVec.eq_of_toNat_eq h)
        rw [if_neg heq, ColourBlock.levels_of_not_mode3 (fun h => absurd h.2 (by dsimp only; omega))]
  | three =>
    by_cases hgt : (pack565 qb).toNat < (pack565 qa).toNat
    · rw [orderBlock_three_of_gt hgt, ColourBlock.pixel_eq, ColourBlock.levels_of_mode3 ⟨hm3 rfl, Nat.le_of_lt hgt⟩,
        unpack565_pack565, unpack565_pack565, tab16_getElem_fin, levels8_three_flip]
    · rw [orderBlock_three_of_not_gt hgt, ColourBlock.pixel_eq,
        ColourBlock.levels_of_mode3 ⟨hm3 rfl, Nat.not_lt.mp hgt⟩, unpack565_pack565, unpack565_pack565]

/-- A fit whose endpoints are on the grid decodes, in the mode of its level count, to the levels of its indices. -/
theorem decodeColour_encodeColour {f : FitRegs} {qa qb : Rgb565} (ha : f.a = grid qa) (hb : f.b = grid qb) {m3 : Bool}
    (hm3 : f.lv = .three → m3 = true) (i : Fin 16) :
    (decodeColour m3 (encodeColour f))[i] = levelPixel (levels8 qa qb f.lv)[f.idx[i].toNat]? := by
  rw [encodeColour, decodeColour_toBytes, ha, hb, q565_grid, q565_grid, pixel_orderBlock hm3]

/-- Index 3 names no level of a three-level fit, every other index one (R276). -/
theorem levels8_three_getElem? (qa qb : Rgb565) (k : BitVec 2) :
    (k = 3#2 → (levels8 qa qb .three)[k.toNat]? = none) ∧
    (k ≠ 3#2 → ∃ l, (levels8 qa qb .three)[k.toNat]? = some l) := by
  have hk : k = 0#2 ∨ k = 1#2 ∨ k = 2#2 ∨ k = 3#2 := by bv_omega
  rcases hk with rfl | rfl | rfl | rfl
  · exact ⟨nofun, fun _ => ⟨_, rfl⟩⟩
  · exact ⟨nofun, fun _ => ⟨_, rfl⟩⟩
  · exact ⟨nofun, fun _ => ⟨_, rfl⟩⟩
  · exact ⟨fun _ => rfl, fun h => absurd rfl h⟩

theorem exists_levels8_four (qa qb : Rgb565) (k : BitVec 2) : ∃ l, (levels8 qa qb .four)[k.toNat]? = some l :=
  ⟨_, List.getElem?_eq_getElem (show k.toNat < 4 from k.isLt)⟩

/-- CENC then CDEC of the same half decodes the fit. -/
theorem cenc_cdec_dpix (off : Half) (m3 : Bool) (s : State) (i : Fin 16) :
    ((s.completeWith (Engine.colourEnc off)).completeWith (Engine.colourDec off m3)).eng.dpix[i]
      = (decodeColour m3 (encodeColour s.eng.fit))[i] := by
  rw [State.completeWith_dpix, Engine.colourDec_dpix, cenc_half]
  rfl

/-- Settles O45: the decoded pixel is the level of its fit index, in the exchanged order or not. -/
theorem encodedFitDecodesToItsLevels : Obligations.EncodedFitDecodesToItsLevels := by
  intro s off m3 qa qb ha hb hm3
  refine ⟨_, by rw [runAll_cons_of_next (exec_cenc off s), runAll_cons_of_next (exec_cdec off m3 _), runAll_nil],
    fun i => ?_⟩
  rw [cenc_cdec_dpix, decodeColour_encodeColour ha hb hm3]
  refine ⟨fun hlv hidx => ?_, fun hlv hidx => ?_, fun hlv => ?_⟩
  · rw [hlv, (levels8_three_getElem? qa qb _).1 hidx, levelPixel]
  · obtain ⟨l, hl⟩ := (levels8_three_getElem? qa qb _).2 hidx
    exact ⟨l, hl, by rw [hlv, hl, levelPixel]⟩
  · obtain ⟨l, hl⟩ := exists_levels8_four qa qb s.eng.fit.idx[i]
    exact ⟨l, hl, by rw [hlv, hl, levelPixel]⟩

end Sys2Proof.Machine

/-!
Alpha blocks both ways: explicit alpha within 8 (R302), interpolated alpha within half a step (R308, R314).
-/
namespace Sys2Proof.Machine

/-! ### Explicit alpha -/

theorem natDist_quant4 (a : Byte) : natDist (17 * quant4 a) a.toNat ≤ 8 := by
  rw [natDist, quant4]
  omega

theorem quant4_exact {a : Byte} (h : a.toNat % 17 = 0) : 17 * quant4 a = a.toNat := by
  rw [quant4]
  omega

theorem aenc4_adec4_alpha (off : Half) (s : State) (i : Fin 16) :
    (((s.completeWith (Engine.alphaEnc4 off)).completeWith (Engine.alphaDec4 off)).eng.dpix[i]).a.toNat
      = 17 * quant4 s.eng.pix[i].a := by
  rw [adec4_dpix, aenc4_half]
  exact (toNat_decodeAlpha4 _ i).trans (by rw [wireNibble_encodeAlpha4])

/-- Settles O48: the nibble of an alpha expands to the nearest multiple of 17. -/
theorem explicitAlphaComesBackWithinEight : Obligations.ExplicitAlphaComesBackWithinEight := by
  intro off s
  refine ⟨_, by rw [runAll_cons_of_next (exec_aenc4 off s), runAll_cons_of_next (exec_adec4 off _), runAll_nil],
    fun i => ⟨?_, fun hmul => BitVec.eq_of_toNat_eq ?_⟩⟩
  · rw [aenc4_adec4_alpha]
    exact natDist_quant4 _
  · rw [aenc4_adec4_alpha, quant4_exact hmul]

/-! ### The levels of an interpolated block -/

/-- With the larger end first, the code of a remapped level is the linear level (R310, R312). -/
theorem wireCode_wireOfLevel {lo hi : Byte} (h : lo.toNat < hi.toNat) (k : BitVec 3) :
    wireCode hi.toNat lo.toNat (wireOfLevel k) = linearLevel lo hi k.toNat := by
  have hk : k = 0#3 ∨ k = 1#3 ∨ k = 2#3 ∨ k = 3#3 ∨ k = 4#3 ∨ k = 5#3 ∨ k = 6#3 ∨ k = 7#3 := by bv_omega
  rcases hk with rfl | rfl | rfl | rfl | rfl | rfl | rfl | rfl <;>
    simp [wireCode, wireOfLevel, linearLevel, h, Nat.add_comm]

theorem linearLevel_zero (lo hi : Byte) : linearLevel lo hi 0 = lo.toNat := by
  rw [linearLevel]
  omega

theorem linearLevel_seven (lo hi : Byte) : linearLevel lo hi 7 = hi.toNat := by
  rw [linearLevel]
  omega

/-- A value equal to the lower end takes level 0. -/
theorem nearestAlpha_low (lo hi : Byte) : nearestAlpha lo hi lo = 0 := by
  by_contra hne
  have hfar := alphaDist_nearestAlpha_lt (Nat.pos_of_ne_zero hne)
  have hzero : alphaDist lo hi lo 0 = 0 := by
    rw [alphaDist_eq_natDist, linearLevel_zero, natDist]
    omega
  omega

/-- The level a value takes is at most half a step of the ladder away (R308). -/
theorem natDist_nearestAlpha_le {lo hi x : Byte} (hlo : lo.toNat ≤ x.toNat) (hhi : x.toNat ≤ hi.toNat) :
    natDist x.toNat (linearLevel lo hi (nearestAlpha lo hi x)) ≤ (hi.toNat - lo.toNat + 13) / 14 := by
  have hnear (k : Nat) (hk : k < 8) : natDist x.toNat (linearLevel lo hi (nearestAlpha lo hi x))
      ≤ natDist x.toNat (linearLevel lo hi k) := alphaDist_nearestAlpha_le lo hi x hk
  have hstep : ∃ k, k < 7 ∧ linearLevel lo hi k ≤ x.toNat ∧ x.toNat ≤ linearLevel lo hi (k + 1) := by
    have h0 := linearLevel_zero lo hi
    have h7 := linearLevel_seven lo hi
    by_contra hnone
    simp only [not_exists, not_and] at hnone
    have hup (k : Nat) (hk : k < 7) (h : linearLevel lo hi k ≤ x.toNat) : linearLevel lo hi (k + 1) ≤ x.toNat :=
      Nat.le_of_not_le fun hle => hnone k hk h hle
    have h6 := hup 5 (by decide) (hup 4 (by decide) (hup 3 (by decide) (hup 2 (by decide) (hup 1 (by decide)
      (hup 0 (by decide) (h0 ▸ hlo))))))
    exact hnone 6 (by decide) h6 (h7 ▸ hhi)
  obtain ⟨k, hk, hbelow, habove⟩ := hstep
  have hgap : linearLevel lo hi (k + 1) ≤ linearLevel lo hi k + (hi.toNat - lo.toNat + 6) / 7 := by
    rw [linearLevel, linearLevel]
    interval_cases k <;> omega
  have hleft := hnear k (by omega)
  have hright := hnear (k + 1) (by omega)
  generalize natDist x.toNat (linearLevel lo hi (nearestAlpha lo hi x)) = d at hleft hright ⊢
  rw [natDist] at hleft hright
  omega

/-! ### A channel fitted, encoded and decoded -/

/-- What a channel comes back as (R314). -/
def restored (x : Vector Byte 16) (i : Fin 16) : Byte := decodeAlpha8 (encodeAlpha8 (alphaFit x)) i

/-- A channel comes back as the linear levels its fit chose (R314). -/
theorem toNat_restored (x : Vector Byte 16) (i : Fin 16) :
    (restored x i).toNat = linearLevel (minByte x) (maxByte x) (nearestAlpha (minByte x) (maxByte x) x[i]) := by
  have h0 : (encodeAlpha8 (alphaFit x))[0] = maxByte x := rfl
  have h1 : (encodeAlpha8 (alphaFit x))[1] = minByte x := rfl
  rw [restored, toNat_decodeAlpha8, h0, h1, wireIndex3_encodeAlpha8, ← toNat_alphaFit_k]
  have hlo := minByte_le x i
  have hhi := le_maxByte x i
  by_cases hlt : (minByte x).toNat < (maxByte x).toNat
  · exact wireCode_wireOfLevel hlt _
  · have hx : x[i] = minByte x := BitVec.eq_of_toNat_eq (by omega)
    have hk : (alphaFit x).k[i] = 0#3 := BitVec.eq_of_toNat_eq <| by
      rw [toNat_alphaFit_k, hx, nearestAlpha_low]
      rfl
    rw [hk]
    exact (linearLevel_zero _ _).symm

theorem natDist_comm (a b : Nat) : natDist a b = natDist b a := Nat.add_comm _ _

theorem natDist_restored_le (x : Vector Byte 16) (i : Fin 16) :
    natDist (restored x i).toNat x[i].toNat ≤ ((maxByte x).toNat - (minByte x).toNat + 13) / 14 := by
  rw [toNat_restored, natDist_comm]
  exact natDist_nearestAlpha_le (minByte_le x i) (le_maxByte x i)

/-- A value at either end comes back exactly. -/
theorem restored_of_end {x : Vector Byte 16} {i : Fin 16} (h : x[i] = minByte x ∨ x[i] = maxByte x) :
    restored x i = x[i] := by
  have hnear (k : Nat) (hk : k < 8) : natDist x[i].toNat (restored x i).toNat
      ≤ natDist x[i].toNat (linearLevel (minByte x) (maxByte x) k) := by
    rw [toNat_restored]
    exact alphaDist_nearestAlpha_le _ _ _ hk
  have hzero : natDist x[i].toNat (restored x i).toNat = 0 := by
    rcases h with h | h
    · have := hnear 0 (by decide)
      rw [linearLevel_zero, ← h] at this
      simp only [natDist] at this ⊢
      omega
    · have := hnear 7 (by decide)
      rw [linearLevel_seven, ← h] at this
      simp only [natDist] at this ⊢
      omega
  rw [natDist] at hzero
  exact BitVec.eq_of_toNat_eq (by omega)

/-- The state after AFIT, AENC8 and ADEC8. -/
def channelRestored (ch ch' : Channel) (off : Half) (s : State) : State :=
  ((s.completeWith (Engine.alphaFitCh ch)).completeWith (Engine.alphaEnc8 off)).completeWith (Engine.alphaDec8 off ch')

theorem channelRestored_af (ch ch' : Channel) (off : Half) (s : State) :
    (channelRestored ch ch' off s).eng.af = alphaFit (s.eng.channel ch) := by
  rw [channelRestored, State.completeWith_af, Engine.alphaDec8_af, State.completeWith_af, Engine.alphaEnc8_af,
    State.completeWith_af, Engine.alphaFitCh_af]

theorem channelRestored_dpix (ch ch' : Channel) (off : Half) (s : State) (i : Fin 16) :
    ((channelRestored ch ch' off s).eng.dpix[i]).ch ch' = restored (s.eng.channel ch) i := by
  rw [channelRestored, adec8_dpix, aenc8_half, Pixel.ch_setCh, if_pos rfl, State.completeWith_af,
    Engine.alphaFitCh_af, restored]

/-- Settles O52: the channel comes back as the levels of its fit. -/
theorem interpolatedAlphaComesBackWithinHalfAStep : Obligations.InterpolatedAlphaComesBackWithinHalfAStep := by
  intro ch ch' off s
  refine ⟨channelRestored ch ch' off s, by rw [runAll_cons_of_next (exec_afit ch s),
    runAll_cons_of_next (exec_aenc8 off _), runAll_cons_of_next (exec_adec8 off ch' _), runAll_nil, channelRestored], ?_⟩
  simp only [channelRestored_af, channelRestored_dpix, toNat_alphaFit_k, alphaFit_lo, alphaFit_hi,
    ← Engine.channel_getElem]
  exact ⟨(minByte_le _ 0).trans (le_maxByte _ 0),
    fun i => ⟨toNat_restored _ i, natDist_restored_le _ i, restored_of_end⟩⟩

end Sys2Proof.Machine

/-!
COMPRESS: the effect as the sum of its component commands and the two writes of R346, what it leaves alone, and what
DECOMPRESS brings back from the interpolated formats (R342 to R351).
-/
namespace Sys2Proof.Machine

/-! ### `DONE` carried along by the colour commands -/

theorem Engine.completed_eq_reflag (e : Engine) : e.completed = e.reflag e.status.complete e.cs.transp := rfl

theorem Engine.fitSingle_completed (lv : Levels) (met : Metric) (e : Engine) :
    e.completed.fitSingle lv met = (e.fitSingle lv met).completed := by
  rw [Engine.completed_eq_reflag, Engine.fitSingle_reflag, Engine.completed_eq_reflag, Engine.fitSingle_cs,
    Engine.fitSingle_status]
  rfl

theorem Engine.fitRange_completed (lv : Levels) (met : Metric) (e : Engine) :
    e.completed.fitRange lv met = (e.fitRange lv met).completed := by
  rw [Engine.completed_eq_reflag, Engine.fitRange_eq, Engine.reflag_cs, ColourSet.setTransp_self, Engine.commit_reflag,
    ← Engine.fitRange_eq, Engine.completed_eq_reflag, Engine.fitRange_cs, Engine.fitRange_status]

theorem Engine.fitCluster_completed (lv : Levels) (met : Metric) (pt : Bool) (ro : Nat) (e : Engine) :
    e.completed.fitCluster lv met pt ro = (e.fitCluster lv met pt ro).completed := by
  rw [Engine.completed_eq_reflag, Engine.fitCluster_eq, Engine.reflag_cs, ColourSet.setTransp_self,
    Engine.commit_reflag, ← Engine.fitCluster_eq, Engine.completed_eq_reflag, Engine.fitCluster_cs,
    Engine.fitCluster_status]

theorem Engine.fitDispatch_completed (lv : Levels) (fit : FitQuality) (met : Metric) (pt : Bool) (ro : Nat)
    (e : Engine) : e.completed.fitDispatch lv fit met pt ro = (e.fitDispatch lv fit met pt ro).completed := by
  by_cases h1 : e.cs.count.val = 1
  · rw [Engine.fitDispatch_of_one (e := e.completed) h1, Engine.fitDispatch_of_one h1, Engine.fitSingle_completed]
  · by_cases h0 : fit = .rangeFit ∨ e.cs.count.val = 0
    · rw [Engine.fitDispatch_of_range (e := e.completed) h1 h0, Engine.fitDispatch_of_range h1 h0,
        Engine.fitRange_completed]
    · rw [Engine.fitDispatch_of_cluster (e := e.completed) h1 h0, Engine.fitDispatch_of_cluster h1 h0,
        Engine.fitCluster_completed]

theorem Engine.csBuild_completed (pt wa : Bool) (e : Engine) :
    e.completed.csBuild pt wa = (e.csBuild pt wa).completed := by
  simp only [Engine.csBuild, Engine.completed]

theorem Engine.setHalf_completed (off : Half) (blk : Vector Byte 8) (e : Engine) :
    e.completed.setHalf off blk = (e.setHalf off blk).completed := rfl

theorem Engine.colourEnc_completed (off : Half) (e : Engine) :
    e.completed.colourEnc off = (e.colourEnc off).completed := Engine.setHalf_completed off _ e

theorem Engine.alphaEnc8_completed (off : Half) (e : Engine) :
    e.completed.alphaEnc8 off = (e.alphaEnc8 off).completed := Engine.setHalf_completed off _ e

theorem Engine.alphaFitCh_completed (ch : Channel) (e : Engine) :
    e.completed.alphaFitCh ch = (e.alphaFitCh ch).completed := by
  have hchannel : e.completed.channel ch = e.channel ch := Engine.channel_congr rfl ch
  rw [Engine.alphaFitCh, hchannel]
  simp only [Engine.alphaFitCh, Engine.completed]

theorem Engine.colourPart_completed (lv : Levels) (fit : FitQuality) (met : Metric) (pt wa : Bool) (ro : Nat)
    (off : Half) (e : Engine) :
    e.completed.colourPart lv fit met pt wa ro off = (e.colourPart lv fit met pt wa ro off).completed := by
  rw [Engine.colourPart, Engine.csBuild_completed, Engine.fitDispatch_completed, Engine.colourEnc_completed,
    Engine.colourPart]

/-! ### The component scripts -/

theorem State.completeWith_congr {f g : Engine → Engine} {s : State} (h : f s.eng = g s.eng) :
    s.completeWith f = s.completeWith g := by
  rw [State.completeWith_eq, h, State.completeWith_eq]

/-- The fit command of R344 has the effect of the dispatch. -/
theorem exec_fitCommand (lv : Levels) (fit : FitQuality) (met : Metric) (pt : Bool) (ro : Nat) (s : State) :
    exec (fitCommand lv fit met pt ro s.eng.cs.count.val) s
      = .next (s.completeWith (Engine.fitDispatch lv fit met pt ro)) := by
  by_cases h1 : s.eng.cs.count.val = 1
  · rw [fitCommand, if_pos h1, exec_fitsingle, State.completeWith_congr (Engine.fitDispatch_of_one h1 ..).symm]
  · by_cases h0 : fit = .rangeFit ∨ s.eng.cs.count.val = 0
    · rw [fitCommand, if_neg h1, if_pos h0, exec_fitrange,
        State.completeWith_congr (Engine.fitDispatch_of_range h1 h0 ..).symm]
    · rw [fitCommand, if_neg h1, if_neg h0, exec_fitcluster,
        State.completeWith_congr (Engine.fitDispatch_of_cluster h1 h0 ..).symm]

/-- CSBUILD, the fit and CENC add up to the colour part of COMPRESS. -/
theorem colourScript_eq (lv : Levels) (fit : FitQuality) (met : Metric) (pt wa : Bool) (ro : Nat) (off : Half)
    (s : State) :
    colourScript lv fit met pt wa ro off s = .next (s.completeWith (Engine.colourPart lv fit met pt wa ro off)) := by
  rw [colourScript, exec_csbuild, andThen, runAll_cons_of_next (exec_fitCommand lv fit met pt ro _),
    runAll_cons_of_next (exec_cenc off _), runAll_nil,
    completeWith_completeWith (Engine.fitDispatch_completed lv fit met pt ro),
    completeWith_completeWith (Engine.colourEnc_completed off)]
  rfl

theorem alphaScript_eq (ch : Channel) (off : Half) (s : State) (is : List Instr) :
    runAll (.afit ch :: .aenc8 off :: is) s = runAll is (s.completeWith (Engine.alphaPart ch off)) := by
  rw [runAll_cons_of_next (exec_afit ch s), runAll_cons_of_next (exec_aenc8 off _),
    completeWith_completeWith (Engine.alphaEnc8_completed off)]
  rfl

theorem Engine.alphaPart_completed (ch : Channel) (off : Half) (e : Engine) :
    e.completed.alphaPart ch off = (e.alphaPart ch off).completed := by
  rw [Engine.alphaPart, Engine.alphaFitCh_completed, Engine.alphaEnc8_completed, Engine.alphaPart]

/-- The component effects of COMPRESS, without the writes of R346. -/
def Engine.compressParts (f : Format) (fit : FitQuality) (met : Metric) (pt wa : Bool) (ro : Nat) (e : Engine) :
    Engine :=
  match f with
  | .bc1 => e.colourPart (levelsOfPt pt) fit met pt wa ro .lower
  | .bc2 => (e.alphaEnc4 .lower).colourPart .four fit met false wa ro .upper
  | .bc3 => (e.alphaPart .a .lower).colourPart .four fit met false wa ro .upper
  | .bc4 => e.alphaPart .r .lower
  | .bc5 => (e.alphaPart .r .lower).alphaPart .g .upper

theorem compressScript_eq (f : Format) (fit : FitQuality) (met : Metric) (pt wa : Bool) (ro : Nat) (s : State) :
    compressScript f fit met pt wa ro s = .next (s.completeWith (Engine.compressParts f fit met pt wa ro)) := by
  cases f with
  | bc1 => exact colourScript_eq _ fit met pt wa ro .lower s
  | bc2 =>
    rw [compressScript, runAll_cons_of_next (exec_aenc4 .lower s), runAll_nil, andThen, colourScript_eq,
      completeWith_completeWith (Engine.colourPart_completed .four fit met false wa ro .upper)]
    rfl
  | bc3 =>
    rw [compressScript, alphaScript_eq, runAll_nil, andThen, colourScript_eq,
      completeWith_completeWith (Engine.colourPart_completed .four fit met false wa ro .upper)]
    rfl
  | bc4 => exact alphaScript_eq .r .lower s []
  | bc5 =>
    rw [compressScript, alphaScript_eq, alphaScript_eq, runAll_nil,
      completeWith_completeWith (Engine.alphaPart_completed .g .upper)]
    rfl

/-! ### The writes of R346 -/

theorem Engine.clearUpper_cblk (e : Engine) : e.clearUpper.cblk = lowerOnly e.cblk := by
  refine vector_eq_of_getElem fun i => ?_
  by_cases hi : i.val < 8
  · have hnot : ¬8 ≤ i.val := by omega
    simp [Engine.clearUpper, Engine.setHalf, lowerOnly, hi, hnot]
  · have hle : 8 ≤ i.val := by omega
    simp [Engine.clearUpper, Engine.setHalf, lowerOnly, hi, hle]

theorem Engine.clearUpper_eq (e : Engine) : e.clearUpper = { e with cblk := lowerOnly e.cblk } := by
  obtain ⟨blk, h⟩ := e.exists_clearUpper_eq
  have hblk : blk = lowerOnly e.cblk := by rw [← Engine.clearUpper_cblk, h]
  rw [h, hblk]

theorem Engine.compressBlock_eq_parts (f : Format) (fit : FitQuality) (met : Metric) (pt wa : Bool) (ro : Nat)
    (e : Engine) :
    e.compressBlock f fit met pt wa ro = { e.compressParts f fit met pt wa ro with
      clen := BitVec.ofNat 5 (blockSize f)
      cblk := if blockSize f = 8 then lowerOnly (e.compressParts f fit met pt wa ro).cblk
        else (e.compressParts f fit met pt wa ro).cblk } := by
  cases f with
  | bc1 =>
    have hsize : blockSize .bc1 = 8 := rfl
    rw [Engine.compressBlock, Engine.clearUpper_eq, Engine.setLen]
    simp only [Engine.compressParts, hsize, if_true]
  | bc4 =>
    have hsize : blockSize .bc4 = 8 := rfl
    rw [Engine.compressBlock, Engine.clearUpper_eq, Engine.setLen]
    simp only [Engine.compressParts, hsize, if_true]
  | bc2 =>
    rw [Engine.compressBlock, Engine.setLen]
    simp only [Engine.compressParts, if_neg (by decide : blockSize .bc2 ≠ 8)]
  | bc3 =>
    rw [Engine.compressBlock, Engine.setLen]
    simp only [Engine.compressParts, if_neg (by decide : blockSize .bc3 ≠ 8)]
  | bc5 =>
    rw [Engine.compressBlock, Engine.setLen]
    simp only [Engine.compressParts, if_neg (by decide : blockSize .bc5 ≠ 8)]

/-- Settles O53: the scripts add up to the component effects, which COMPRESS completes by the writes of R346. -/
theorem compressEqualsItsComponentCommands : Obligations.CompressEqualsItsComponentCommands := by
  refine ⟨selects_assemble .compress, fun f fit met pt wa ro s => ?_, exec_compress_reserved⟩
  refine ⟨_, _, exec_compress_supported f fit met pt wa ro s, compressScript_eq f fit met pt wa ro s, ?_⟩
  rw [State.completeWith_eq, Engine.compressBlock_eq_parts, State.completeWith_eq]
  rfl

/-! ### What COMPRESS leaves alone -/

theorem Engine.fitDispatch_af (lv : Levels) (fit : FitQuality) (met : Metric) (pt : Bool) (ro : Nat) (e : Engine) :
    (e.fitDispatch lv fit met pt ro).af = e.af := by
  obtain ⟨st, regs, h⟩ := e.exists_fitDispatch_eq lv fit met pt ro
  rw [h]

theorem Engine.colourPart_af (lv : Levels) (fit : FitQuality) (met : Metric) (pt wa : Bool) (ro : Nat) (off : Half)
    (e : Engine) : (e.colourPart lv fit met pt wa ro off).af = e.af := by
  rw [Engine.colourPart, Engine.colourEnc_af, Engine.fitDispatch_af, Engine.csBuild_af]

/-- BC1 and BC2 leave the alpha fit (R349). -/
theorem Engine.compressBlock_af {f : Format} (h : f = .bc1 ∨ f = .bc2) (fit : FitQuality) (met : Metric) (pt wa : Bool)
    (ro : Nat) (e : Engine) : (e.compressBlock f fit met pt wa ro).af = e.af := by
  rcases h with rfl | rfl
  · rw [Engine.compressBlock, Engine.setLen_af, Engine.clearUpper_af, Engine.colourPart_af]
  · rw [Engine.compressBlock, Engine.setLen_af, Engine.colourPart_af, Engine.alphaEnc4_af]

/-- BC4 and BC5 leave the colour set, the fit and `STATUS` (R349). -/
theorem Engine.compressBlock_channels {f : Format} (h : f = .bc4 ∨ f = .bc5) (fit : FitQuality) (met : Metric)
    (pt wa : Bool) (ro : Nat) (e : Engine) :
    (e.compressBlock f fit met pt wa ro).cs = e.cs ∧ (e.compressBlock f fit met pt wa ro).fit = e.fit ∧
    (e.compressBlock f fit met pt wa ro).status = e.status := by
  rcases h with rfl | rfl <;> simp [Engine.compressBlock]

/-- Punch-through is an option of BC1 alone (R343). -/
theorem Engine.compressBlock_pt {f : Format} (h : f ≠ .bc1) (fit : FitQuality) (met : Metric) (pt pt' wa : Bool)
    (ro : Nat) : Engine.compressBlock f fit met pt wa ro = Engine.compressBlock f fit met pt' wa ro := by
  cases f with
  | bc1 => exact absurd rfl h
  | _ => rfl

/-- BC4 and BC5 have no colour option (R347). -/
theorem Engine.compressBlock_options {f : Format} (h : f = .bc4 ∨ f = .bc5) (fit fit' : FitQuality) (met met' : Metric)
    (pt pt' wa wa' : Bool) (ro ro' : Nat) :
    Engine.compressBlock f fit met pt wa ro = Engine.compressBlock f fit' met' pt' wa' ro' := by
  rcases h with rfl | rfl <;> rfl

/-- Settles O55: the options a format does not have do not occur in its effect, and the registers it does not use pass
through. -/
theorem compressLeavesWhatItDoesNotUse : Obligations.CompressLeavesWhatItDoesNotUse := by
  intro f fit fit' met met' pt pt' wa wa' ro ro' s t h
  rw [exec_compress_supported] at h
  simp only [Host.Outcome.next.injEq] at h
  subst h
  refine ⟨fun hf => ?_, fun hf => ?_, fun hf => ?_, fun hsna => ?_⟩
  · rw [exec_compress_supported, Engine.compressBlock_pt hf fit met pt' pt wa ro]
  · obtain ⟨hcs, hfit, hstatus⟩ := s.eng.compressBlock_channels hf fit met pt wa ro
    refine ⟨hcs, hfit, ?_, ?_⟩
    · rw [State.completeWith_status, hstatus, Status.complete_sna]
    · rw [exec_compress_supported, Engine.compressBlock_options hf fit' fit met' met pt' pt wa' wa ro' ro]
  · rw [State.completeWith_af, Engine.compressBlock_af hf]
  · rw [State.completeWith_status, Status.complete_sna]
    rcases s.eng.compressBlock_status_cases f fit met pt wa ro with h | h <;> rw [h]
    · exact hsna
    · exact Status.setSna_sna false _

/-! ### What DECOMPRESS brings back -/

/-- The state after COMPRESS and DECOMPRESS of one format. -/
def roundTrip (f : Format) (fit : FitQuality) (met : Metric) (pt wa : Bool) (ro : Nat) (s : State) : State :=
  (s.completeWith (Engine.compressBlock f fit met pt wa ro)).completeWith (Engine.decompressBlock f)

/-- The length COMPRESS writes is the one DECOMPRESS asks for (R346, R352). -/
theorem runAll_roundTrip (f : Format) (fit : FitQuality) (met : Metric) (pt wa : Bool) (ro : Nat) (s : State) :
    runAll [.compress (.supported f) fit met pt wa ro, .decompress (.supported f)] s
      = .next (roundTrip f fit met pt wa ro s) := by
  have hlen : (s.completeWith (Engine.compressBlock f fit met pt wa ro)).eng.clen.toNat = blockSize f := by
    rw [State.completeWith_clen, Engine.compressBlock_clen, toNat_ofNat_blockSize]
  rw [runAll_cons_of_next (exec_compress_supported f fit met pt wa ro s),
    runAll_cons_of_next (exec_decompress_supported f _ hlen), runAll_nil, roundTrip]

theorem half_completeWith_compressBlock (f : Format) (fit : FitQuality) (met : Metric) (pt wa : Bool) (ro : Nat)
    (s : State) (g : Half) :
    (s.completeWith (Engine.compressBlock f fit met pt wa ro)).eng.half g
      = compressedHalf f fit met pt wa ro s.eng.pix g := by
  rw [Engine.half_congr (State.completeWith_cblk _ s) g, Engine.half_compressBlock]

theorem Engine.half_of_dpix (e : Engine) (d : Vector Pixel 16) (g : Half) :
    ({ e with dpix := d } : Engine).half g = e.half g := Engine.half_congr rfl g

theorem Engine.decompressBlock_bc3_dpix (e : Engine) (i : Fin 16) :
    ((e.decompressBlock .bc3).dpix[i]).a = decodeAlpha8 (e.half .lower) i := by
  rw [Engine.decompressBlock, Engine.alphaDec8_dpix, tab16_getElem_fin, Engine.colourDec, Engine.half_of_dpix]
  rfl

theorem Engine.decompressBlock_bc4_dpix (e : Engine) (i : Fin 16) :
    (e.decompressBlock .bc4).dpix[i] = ⟨decodeAlpha8 (e.half .lower) i, 0, 0, 255⟩ := by
  rw [Engine.decompressBlock, Engine.alphaDec8_dpix, tab16_getElem_fin, Engine.fillOpaqueBlack, Engine.half_of_dpix]
  simp [Pixel.setCh]

theorem Engine.decompressBlock_bc5_dpix (e : Engine) (i : Fin 16) :
    (e.decompressBlock .bc5).dpix[i] = ⟨decodeAlpha8 (e.half .lower) i, decodeAlpha8 (e.half .upper) i, 0, 255⟩ := by
  have hhalf : (e.fillOpaqueBlack.alphaDec8 .lower .r).half .upper = e.half .upper := Engine.half_congr rfl _
  rw [Engine.decompressBlock, Engine.alphaDec8_dpix, tab16_getElem_fin, hhalf, Engine.alphaDec8_dpix,
    tab16_getElem_fin, Engine.fillOpaqueBlack, Engine.half_of_dpix]
  simp [Pixel.setCh]

/-- A channel stored in an interpolated half comes back within half a step of bounds that hold it (R308). -/
theorem natDist_decode_channelBytes {pix : Vector Pixel 16} {ch : Channel} {lo hi : Nat}
    (h : ∀ i : Fin 16, lo ≤ (pix[i].ch ch).toNat ∧ (pix[i].ch ch).toNat ≤ hi) (i : Fin 16) :
    natDist (decodeAlpha8 (channelBytes ch pix) i).toNat (pix[i].ch ch).toNat ≤ (hi - lo + 13) / 14 := by
  have hx (j : Fin 16) : (tab16 fun i => pix[i].ch ch)[j] = pix[j].ch ch := tab16_getElem_fin _ j
  have hnear := natDist_restored_le (tab16 fun i => pix[i].ch ch) i
  obtain ⟨jmin, hmin⟩ := exists_minByte_eq (tab16 fun i => pix[i].ch ch)
  obtain ⟨jmax, hmax⟩ := exists_maxByte_eq (tab16 fun i => pix[i].ch ch)
  rw [hmin, hmax, hx, hx, hx] at hnear
  have hlo := (h jmin).1
  have hhi := (h jmax).2
  exact hnear.trans (by omega)

/-- Settles O58: the half a format decodes a channel from is the one it stored it in. -/
theorem interpolatedFormatsComeBackWithinHalfAStep : Obligations.InterpolatedFormatsComeBackWithinHalfAStep := by
  intro f fit met pt wa ro s ch lo hi hcase hbounds
  refine ⟨_, runAll_roundTrip f fit met pt wa ro s, rfl, fun i => ?_⟩
  have hnear := natDist_decode_channelBytes hbounds i
  rw [roundTrip, State.completeWith_dpix]
  rcases hcase with ⟨rfl, rfl⟩ | ⟨rfl, rfl⟩ | ⟨rfl, rfl | rfl⟩
  · refine ⟨?_, nofun, nofun⟩
    rwa [Pixel.ch, Engine.decompressBlock_bc3_dpix, half_completeWith_compressBlock]
  · rw [Engine.decompressBlock_bc4_dpix, half_completeWith_compressBlock]
    exact ⟨hnear, fun _ => ⟨rfl, rfl, rfl⟩, nofun⟩
  · rw [Engine.decompressBlock_bc5_dpix, half_completeWith_compressBlock, half_completeWith_compressBlock]
    exact ⟨hnear, nofun, fun _ => ⟨rfl, rfl⟩⟩
  · rw [Engine.decompressBlock_bc5_dpix, half_completeWith_compressBlock, half_completeWith_compressBlock]
    exact ⟨hnear, nofun, fun _ => ⟨rfl, rfl⟩⟩

end Sys2Proof.Machine

/-!
Searches for a first best value: the level nearest to a colour (R222) and the entries with the extreme projections
(R219) are each the first of a list that no other member is better than.
-/
namespace Sys2Proof.Machine

/-! ### The first best of a list -/

/-- A comparison of keys that a search replaces the held member by. -/
structure IsBetter (better : F32 → F32 → Bool) : Prop where
  irrefl : ∀ a, better a a = false
  trans : ∀ {a b c}, better a b = true → better b c = true → better a c = true
  congr : ∀ {a b}, feq a b = true → ∀ c, better a c = better b c

theorem isBetter_flt : IsBetter flt := ⟨flt_self, flt_trans, fun h _ => flt_of_feq_left h⟩

theorem isBetter_fgt : IsBetter fun a b => flt b a :=
  ⟨flt_self, fun h h' => flt_trans h' h, fun h _ => flt_of_feq_right h⟩

/-- The search that replaces the held member by a better one only. -/
def firstBest {α : Type} (better : F32 → F32 → Bool) (key : α → F32) (best : α) : List α → α
  | [] => best
  | x :: xs => firstBest better key (if better (key x) (key best) then x else best) xs

section
variable {α : Type} {better : F32 → F32 → Bool} (hb : IsBetter better) (key : α → F32)

theorem firstBest_mem (best : α) (xs : List α) : firstBest better key best xs ∈ best :: xs := by
  induction xs generalizing best with
  | nil => exact List.mem_singleton_self best
  | cons x xs ih =>
    rw [firstBest]
    split
    · exact List.mem_cons_of_mem _ (ih x)
    · rcases List.mem_cons.mp (ih best) with h | h
      · rw [h]
        exact List.mem_cons_self
      · exact List.mem_cons_of_mem _ (List.mem_cons_of_mem _ h)

include hb

/-- The result is the member held first, or better than it. -/
theorem firstBest_eq_or_better (best : α) (xs : List α) :
    firstBest better key best xs = best ∨ better (key (firstBest better key best xs)) (key best) = true := by
  induction xs generalizing best with
  | nil => exact .inl rfl
  | cons x xs ih =>
    rw [firstBest]
    split
    next hx =>
      rcases ih x with h | h
      · exact .inr (by rw [h]; exact hx)
      · exact .inr (hb.trans h hx)
    next => exact ih best

/-- No member is better than the result. -/
theorem not_better_firstBest (best : α) (xs : List α) :
    ∀ y ∈ best :: xs, better (key y) (key (firstBest better key best xs)) = false := by
  induction xs generalizing best with
  | nil =>
    intro y hy
    rw [List.mem_singleton.mp hy]
    exact hb.irrefl _
  | cons x xs ih =>
    intro y hy
    rw [firstBest]
    have hold {b : α} (hyb : better (key y) (key b) = false) :
        better (key y) (key (firstBest better key b xs)) = false := by
      rcases firstBest_eq_or_better hb key b xs with h | h
      · rw [h]
        exact hyb
      · exact Bool.eq_false_iff.mpr fun hlt => Bool.eq_false_iff.mp hyb (hb.trans hlt h)
    split
    next hx =>
      rcases List.mem_cons.mp hy with rfl | hy
      · exact hold (Bool.eq_false_iff.mpr fun hlt => Bool.eq_false_iff.mp (hb.irrefl _) (hb.trans hlt hx))
      · exact ih x y hy
    next hx =>
      rcases List.mem_cons.mp hy with rfl | hy
      · exact ih _ _ List.mem_cons_self
      rcases List.mem_cons.mp hy with rfl | hy
      · exact hold (Bool.eq_false_iff.mpr hx)
      · exact ih best y (List.mem_cons_of_mem _ hy)

/-- Of members with equal keys the result is the first: one that stands before it has another key. -/
theorem not_feq_firstBest_of_before {pos : α → Nat} {best : α} {xs : List α}
    (hsorted : (best :: xs).Pairwise fun x y => pos x < pos y) :
    ∀ y ∈ best :: xs, pos y < pos (firstBest better key best xs) →
      feq (key y) (key (firstBest better key best xs)) = false := by
  induction xs generalizing best with
  | nil =>
    intro y hy hlt
    rw [List.mem_singleton.mp hy] at hlt
    exact absurd hlt (Nat.lt_irrefl _)
  | cons x xs ih =>
    intro y hy
    obtain ⟨hbest, htail⟩ := List.pairwise_cons.mp hsorted
    have hdiffer {r : F32} (h : better r (key best) = true) (hnot : better (key y) (key best) = false) :
        feq (key y) r = false :=
      Bool.eq_false_iff.mpr fun heq => Bool.eq_false_iff.mp hnot ((hb.congr heq _).trans h)
    rw [firstBest]
    split
    next hx =>
      intro hlt
      have hnew : better (key (firstBest better key x xs)) (key best) = true := by
        rcases firstBest_eq_or_better hb key x xs with h | h
        · rw [h]
          exact hx
        · exact hb.trans h hx
      rcases List.mem_cons.mp hy with rfl | hy
      · exact hdiffer hnew (hb.irrefl _)
      · exact ih htail y hy hlt
    next hx =>
      have hsub : (best :: xs).Pairwise fun x y => pos x < pos y :=
        hsorted.sublist ((List.sublist_cons_self x xs).cons_cons best)
      intro hlt
      rcases List.mem_cons.mp hy with rfl | hy
      · exact ih hsub _ List.mem_cons_self hlt
      rcases List.mem_cons.mp hy with rfl | hy
      · have hmoved : better (key (firstBest better key best xs)) (key best) = true := by
          rcases firstBest_eq_or_better hb key best xs with h | h
          · rw [h] at hlt
            exact absurd (hlt.trans (hbest y List.mem_cons_self)) (Nat.lt_irrefl _)
          · exact h
        exact hdiffer hmoved (Bool.eq_false_iff.mpr hx)
      · exact ih hsub y (List.mem_cons_of_mem _ hy) hlt

end

/-! ### The nearest level -/

/-- The distance of a numbered level. -/
def levelDist (c : Rgb8) (m : Vec3) (x : Rgb8 × Nat) : F32 := metricDist c x.1 m

/-- A numbered level with its distance, as the look-up holds it. -/
def Nearest.of (c : Rgb8) (m : Vec3) (x : Rgb8 × Nat) : Nearest := ⟨BitVec.ofNat 2 x.2, levelDist c m x⟩

theorem levelDist_mk (c : Rgb8) (m : Vec3) (l : Rgb8) (k : Nat) : levelDist c m (l, k) = metricDist c l m := by
  rw [levelDist]

theorem Nearest.of_d (c : Rgb8) (m : Vec3) (x : Rgb8 × Nat) : (Nearest.of c m x).d = levelDist c m x := by
  rw [Nearest.of]

theorem Nearest.of_mk (c : Rgb8) (m : Vec3) (l : Rgb8) (k : Nat) :
    Nearest.of c m (l, k) = ⟨BitVec.ofNat 2 k, metricDist c l m⟩ := by
  rw [Nearest.of, levelDist_mk]

theorem nearestFrom_cons (c : Rgb8) (m : Vec3) (best : Nearest) (k : Nat) (l : Rgb8) (ls : List Rgb8) :
    nearestFrom c m best k (l :: ls)
      = nearestFrom c m (if flt (metricDist c l m) best.d then ⟨BitVec.ofNat 2 k, metricDist c l m⟩ else best)
          (k + 1) ls := by
  exact rfl

theorem nearestFrom_eq_firstBest (c : Rgb8) (m : Vec3) (best : Rgb8 × Nat) (k : Nat) (ls : List Rgb8) :
    nearestFrom c m (Nearest.of c m best) k ls = Nearest.of c m (firstBest flt (levelDist c m) best (ls.zipIdx k)) := by
  induction ls generalizing best k with
  | nil => rfl
  | cons l ls ih =>
    rw [nearestFrom_cons, List.zipIdx_cons, firstBest, ← ih, Nearest.of_d, apply_ite (Nearest.of c m),
      Nearest.of_mk c m l k, levelDist_mk c m l k]

/-- The numbered level the look-up ends at. -/
def nearestNumbered (c : Rgb8) (m : Vec3) (qa qb : Rgb565) (lv : Levels) : Rgb8 × Nat :=
  firstBest flt (levelDist c m) (expand565 qa, 0) (((levels8 qa qb lv).drop 1).zipIdx 1)

theorem levels8_zipIdx (qa qb : Rgb565) (lv : Levels) :
    (levels8 qa qb lv).zipIdx = (expand565 qa, 0) :: ((levels8 qa qb lv).drop 1).zipIdx 1 := by
  cases lv <;> rfl

theorem nearestLevel_eq (c : Rgb8) (m : Vec3) (qa qb : Rgb565) (lv : Levels) :
    nearestLevel c m qa qb lv = Nearest.of c m (nearestNumbered c m qa qb lv) := by
  rw [nearestNumbered, ← nearestFrom_eq_firstBest, Nearest.of_mk, nearestLevel, BitVec.ofNat_eq_ofNat]

theorem levels8_length_le (qa qb : Rgb565) (lv : Levels) : (levels8 qa qb lv).length ≤ 4 := by
  cases lv <;> simp [levels8]

theorem nearestNumbered_getElem? (c : Rgb8) (m : Vec3) (qa qb : Rgb565) (lv : Levels) :
    (levels8 qa qb lv)[(nearestNumbered c m qa qb lv).2]? = some (nearestNumbered c m qa qb lv).1 := by
  have hmem : nearestNumbered c m qa qb lv ∈ (levels8 qa qb lv).zipIdx := by
    rw [levels8_zipIdx]
    exact firstBest_mem _ _ _
  exact List.mem_zipIdx_iff_getElem?.mp hmem

theorem toNat_nearestLevel_k (c : Rgb8) (m : Vec3) (qa qb : Rgb565) (lv : Levels) :
    (nearestLevel c m qa qb lv).k.toNat = (nearestNumbered c m qa qb lv).2 := by
  have hlt := (List.getElem?_eq_some_iff.mp (nearestNumbered_getElem? c m qa qb lv)).1
  have hle := levels8_length_le qa qb lv
  rw [nearestLevel_eq, Nearest.of, BitVec.toNat_ofNat, Nat.mod_eq_of_lt (by omega)]

theorem zipIdx_sorted {α : Type} (xs : List α) : xs.zipIdx.Pairwise fun x y => x.2 < y.2 := by
  have h : (xs.zipIdx.map Prod.snd).Pairwise (· < ·) := by
    rw [List.zipIdx_map_snd]
    exact List.pairwise_lt_range'
  exact List.pairwise_map.mp h

/-- Settles O36: the look-up is the search of the numbered levels for the first of least distance. -/
theorem nearestLevelIsTheFirstOfLeastDistance : Obligations.NearestLevelIsTheFirstOfLeastDistance := by
  intro p m qa qb lv k l hl
  have hmem : (l, k) ∈ (expand565 qa, 0) :: ((levels8 qa qb lv).drop 1).zipIdx 1 := by
    rw [← levels8_zipIdx]
    exact List.mem_zipIdx_iff_getElem?.mpr hl
  have hsorted := zipIdx_sorted (levels8 qa qb lv)
  rw [levels8_zipIdx] at hsorted
  rw [toNat_nearestLevel_k]
  have hd : (nearestLevel p m qa qb lv).d = levelDist p m (nearestNumbered p m qa qb lv) := by
    rw [nearestLevel_eq, Nearest.of_d]
  rw [hd, ← levelDist_mk p m l k]
  refine ⟨⟨_, nearestNumbered_getElem? p m qa qb lv, by rw [levelDist]⟩, ?_, ?_⟩
  · exact not_better_firstBest isBetter_flt (levelDist p m) _ _ _ hmem
  · exact not_feq_firstBest_of_before isBetter_flt (levelDist p m) hsorted _ hmem

/-! ### The extreme projections -/

theorem foldl_extremes_add (p : Fin 16 → F32) (lo hi : Fin 16) (xs : List (Fin 16)) :
    xs.foldl (Extremes.add p) ⟨lo, hi, p lo, p hi⟩
      = ⟨firstBest flt p lo xs, firstBest (fun a b => flt b a) p hi xs, p (firstBest flt p lo xs),
          p (firstBest (fun a b => flt b a) p hi xs)⟩ := by
  induction xs generalizing lo hi with
  | nil => rfl
  | cons x xs ih =>
    have hlo : (if flt (p x) (p lo) = true then p x else p lo) = p (if flt (p x) (p lo) = true then x else lo) := by
      split <;> rfl
    have hhi : (if flt (p hi) (p x) = true then p x else p hi) = p (if flt (p hi) (p x) = true then x else hi) := by
      split <;> rfl
    rw [List.foldl_cons, Extremes.add]
    dsimp only
    rw [hlo, hhi, ih]
    rfl

/-- The entries of a set are the numbers below its count, ascending. -/
theorem mem_take_idx16 {n : Nat} {i : Fin 16} : i ∈ idx16.take n ↔ i.val < n := by
  have hidx : idx16 = List.finRange 16 := by decide
  rw [hidx, List.mem_take_iff_getElem]
  constructor
  · rintro ⟨j, hj, rfl⟩
    simp only [List.getElem_finRange, Fin.val_cast]
    omega
  · intro h
    have hi := i.isLt
    exact ⟨i.val, by simp only [List.length_finRange]; omega, by simp⟩

theorem ColourSet.mem_entries {cs : ColourSet} {i : Fin 16} : i ∈ cs.entries ↔ i.val < cs.count.val := mem_take_idx16

theorem ColourSet.entries_sorted (cs : ColourSet) : cs.entries.Pairwise fun i j => i.val < j.val := by
  have hidx : idx16.Pairwise fun i j => i.val < j.val := by decide
  exact hidx.sublist (List.take_sublist _ _)

/-- A set that is not empty begins with entry 0. -/
theorem ColourSet.entries_eq_cons {cs : ColourSet} (h : cs.count.val ≠ 0) : cs.entries = 0 :: cs.entries.drop 1 := by
  obtain ⟨n, hn⟩ := Nat.exists_eq_succ_of_ne_zero h
  rw [ColourSet.entries, hn]
  rfl

theorem extremes_eq (cs : ColourSet) (v : Vec3) :
    (extremes cs v).lo = firstBest flt (proj cs v) 0 (cs.entries.drop 1) ∧
    (extremes cs v).hi = firstBest (fun a b => flt b a) (proj cs v) 0 (cs.entries.drop 1) := by
  rw [extremes, foldl_extremes_add]
  exact ⟨rfl, rfl⟩

/-- What the entries of smallest and largest projection are (R219). -/
structure IsExtremes (cs : ColourSet) (v : Vec3) (x : Extremes) : Prop where
  lo_lt : x.lo.val < cs.count.val
  hi_lt : x.hi.val < cs.count.val
  lo_least : ∀ i : Fin 16, i.val < cs.count.val → flt (proj cs v i) (proj cs v x.lo) = false
  hi_most : ∀ i : Fin 16, i.val < cs.count.val → flt (proj cs v x.hi) (proj cs v i) = false
  lo_first : ∀ i : Fin 16, i.val < cs.count.val → i < x.lo → feq (proj cs v i) (proj cs v x.lo) = false
  hi_first : ∀ i : Fin 16, i.val < cs.count.val → i < x.hi → feq (proj cs v i) (proj cs v x.hi) = false

theorem extremes_spec {cs : ColourSet} (h : cs.count.val ≠ 0) (v : Vec3) : IsExtremes cs v (extremes cs v) := by
  obtain ⟨hlo, hhi⟩ := extremes_eq cs v
  have hcons := ColourSet.entries_eq_cons h
  have hsorted := cs.entries_sorted
  rw [hcons] at hsorted
  have hmem {i : Fin 16} (hi : i.val < cs.count.val) : i ∈ (0 : Fin 16) :: cs.entries.drop 1 := by
    rw [← hcons]
    exact ColourSet.mem_entries.mpr hi
  have hlt {better : F32 → F32 → Bool} : (firstBest better (proj cs v) 0 (cs.entries.drop 1)).val < cs.count.val := by
    rw [← ColourSet.mem_entries, hcons]
    exact firstBest_mem _ _ _
  constructor
  · rw [hlo]
    exact hlt
  · rw [hhi]
    exact hlt
  · intro i hi
    rw [hlo]
    exact not_better_firstBest isBetter_flt _ _ _ i (hmem hi)
  · intro i hi
    rw [hhi]
    exact not_better_firstBest isBetter_fgt (proj cs v) 0 _ i (hmem hi)
  · intro i hi
    rw [hlo]
    exact not_feq_firstBest_of_before isBetter_flt (proj cs v) (pos := Fin.val) hsorted i (hmem hi)
  · intro i hi
    rw [hhi]
    exact not_feq_firstBest_of_before isBetter_fgt (proj cs v) (pos := Fin.val) hsorted i (hmem hi)

/-! ### FITRANGE -/

theorem rangeFitCore_of_empty {cs : ColourSet} (h : cs.count.val = 0) (lv : Levels) (m : Vec3) :
    rangeFitCore cs lv m = ⟨Rgb565.zero, Rgb565.zero, Vector.replicate 16 0, f0⟩ := if_pos h

/-- The endpoints of Range Fit (R220). -/
def rangeEnd (cs : ColourSet) (i : Fin 16) : Rgb565 := q565 (vclamp (cs.colAt i))

/-- The nearest level of an entry between the endpoints of two entries (R222). -/
def rangeNear (cs : ColourSet) (lv : Levels) (m : Vec3) (lo hi i : Fin 16) : Nearest :=
  nearestLevel cs.rgb[i] m (rangeEnd cs lo) (rangeEnd cs hi) lv

theorem rangeFitCore_of_nonempty {cs : ColourSet} (h : cs.count.val ≠ 0) (lv : Levels) (m : Vec3) :
    rangeFitCore cs lv m =
      { qa := rangeEnd cs (extremes cs (axis cs)).lo
        qb := rangeEnd cs (extremes cs (axis cs)).hi
        eidx := tab16 fun i => if i.val < cs.count.val then
          (rangeNear cs lv m (extremes cs (axis cs)).lo (extremes cs (axis cs)).hi i).k else 0
        err := rangeErr cs (rangeNear cs lv m (extremes cs (axis cs)).lo (extremes cs (axis cs)).hi) } := if_neg h

theorem commit_sameExcept {f : Engine → Engine} {s : State} {regs : FitRegs}
    (h : f s.eng = { s.eng with fit := regs }) :
    SameExcept (fun r => r == .status || r.isFit) s (s.completeWith f) :=
  completeWith_sameExcept rfl fun r hst hr => by
    rw [h]
    exact s.eng.readReg_of_status_fit s.eng.status regs hst (Bool.or_eq_false_iff.mp hr).2

/-- Settles O37: the endpoints are the entries of extreme projection, each the first of its kind, and the indices and the
error are those of the nearest levels. -/
theorem fitrangeTakesTheExtremesOfTheAxis : Obligations.FitrangeTakesTheExtremesOfTheAxis := by
  intro lv met s
  refine ⟨_, exec_fitrange lv met s, commit_sameExcept (by rw [Engine.fitRange_eq, Engine.commit_eq]),
    completeWith_status_of_eq (Engine.fitRange_status lv met s.eng), ?_⟩
  rw [State.completeWith_fit, Engine.fitRange_fit]
  refine ⟨rfl, fun i hnone => spread_none hnone _, fun hempty => ?_, fun hcount => ?_⟩
  · rw [rangeFitCore_of_empty hempty]
    exact ⟨rfl, rfl, rfl, fun i hi => (spread_replicate _ _ i).trans (if_neg hi)⟩
  · have hx := extremes_spec hcount (axis s.eng.cs)
    refine ⟨_, _, hx.lo_lt, hx.hi_lt,
      fun i hi => ⟨hx.lo_least i hi, hx.hi_most i hi, hx.lo_first i hi, hx.hi_first i hi⟩, ?_⟩
    rw [rangeFitCore_of_nonempty hcount]
    refine ⟨rfl, rfl, fun i j hij hj => ?_, rfl⟩
    dsimp only
    rw [spread_some hij, tab16_getElem_fin, if_pos hj]
    rfl

end Sys2Proof.Machine

/-!
Cluster Fit: the splits in their order, the incumbent of the search and of the passes (R241 to R253).
-/
namespace Sys2Proof.Machine

/-! ### The splits -/

theorem mem_rangeIncl {lo hi x : Nat} : x ∈ rangeIncl lo hi ↔ lo ≤ x ∧ x ≤ hi := by
  simp only [rangeIncl, List.mem_map, List.mem_range]
  constructor
  · rintro ⟨d, hd, rfl⟩
    omega
  · rintro ⟨hlo, hhi⟩
    exact ⟨x - lo, by omega, by omega⟩

theorem rangeIncl_sorted (lo hi : Nat) : (rangeIncl lo hi).Pairwise (· < ·) :=
  List.pairwise_map.mpr (List.pairwise_lt_range.imp fun h => Nat.add_lt_add_left h lo)

/-- The order of the cuts of two splits (R244). -/
def Cuts.before (x y : Cuts) : Prop := x.i < y.i ∨ x.i = y.i ∧ (x.j < y.j ∨ x.j = y.j ∧ x.k < y.k)

/-- An outer loop over ascending first cuts. -/
theorem sorted_flatMap_i {lo hi : Nat} {f : Nat → List Cuts} (hi_eq : ∀ i, ∀ x ∈ f i, x.i = i)
    (hsorted : ∀ i, (f i).Pairwise Cuts.before) : ((rangeIncl lo hi).flatMap f).Pairwise Cuts.before := by
  refine List.pairwise_flatMap.mpr ⟨fun i _ => hsorted i, (rangeIncl_sorted lo hi).imp fun h x hx y hy => ?_⟩
  rw [Cuts.before, hi_eq _ x hx, hi_eq _ y hy]
  exact .inl h

/-- An inner loop over ascending second cuts. -/
theorem sorted_flatMap_j {lo hi i : Nat} {f : Nat → List Cuts} (h_eq : ∀ j, ∀ x ∈ f j, x.i = i ∧ x.j = j)
    (hsorted : ∀ j, (f j).Pairwise Cuts.before) : ((rangeIncl lo hi).flatMap f).Pairwise Cuts.before := by
  refine List.pairwise_flatMap.mpr ⟨fun j _ => hsorted j, (rangeIncl_sorted lo hi).imp fun h x hx y hy => ?_⟩
  obtain ⟨hxi, hxj⟩ := h_eq _ x hx
  obtain ⟨hyi, hyj⟩ := h_eq _ y hy
  rw [Cuts.before, hxi, hyi, hxj, hyj]
  exact .inr ⟨rfl, .inl h⟩

theorem mem_splits {lv : Levels} {pt : Bool} {n : Nat} {x : Cuts} : x ∈ splits lv pt n ↔
    x.i ≤ x.j ∧ x.j ≤ x.k ∧ x.k ≤ n ∧ (lv = .three → x.k = x.j) ∧ (lv = .three → pt = true → x.j = x.i) := by
  obtain ⟨i, j, k⟩ := x
  cases lv with
  | four =>
    simp only [splits, List.mem_flatMap, List.mem_map, mem_rangeIncl, Cuts.mk.injEq, reduceCtorEq, false_implies,
      and_true]
    constructor
    · rintro ⟨_, -, _, ⟨hij, -⟩, _, ⟨hjk, hkn⟩, rfl, rfl, rfl⟩
      exact ⟨hij, hjk, hkn⟩
    · rintro ⟨hij, hjk, hkn⟩
      exact ⟨i, by omega, j, by omega, k, by omega, rfl, rfl, rfl⟩
  | three =>
    cases pt with
    | false =>
      simp only [splits, List.mem_flatMap, List.mem_map, mem_rangeIncl, Cuts.mk.injEq, true_implies,
        false_implies, and_true, Bool.false_eq_true]
      constructor
      · rintro ⟨_, -, _, ⟨hij, hjn⟩, rfl, rfl, rfl⟩
        exact ⟨hij, Nat.le_refl _, hjn, rfl⟩
      · rintro ⟨hij, -, hkn, rfl⟩
        exact ⟨i, by omega, k, by omega, rfl, rfl, rfl⟩
    | true =>
      simp only [splits, List.mem_map, mem_rangeIncl, Cuts.mk.injEq, true_implies]
      constructor
      · rintro ⟨_, ⟨-, hin⟩, rfl, rfl, rfl⟩
        exact ⟨Nat.le_refl _, Nat.le_refl _, hin, rfl, rfl⟩
      · rintro ⟨-, -, hkn, rfl, rfl⟩
        exact ⟨k, by omega, rfl, rfl, rfl⟩

theorem splits_sorted (lv : Levels) (pt : Bool) (n : Nat) : (splits lv pt n).Pairwise Cuts.before := by
  cases lv with
  | four =>
    refine sorted_flatMap_i (fun i x hx => ?_) fun i => sorted_flatMap_j (i := i) (fun j x hx => ?_) fun j => ?_
    · obtain ⟨j, -, hx⟩ := List.mem_flatMap.mp hx
      obtain ⟨k, -, rfl⟩ := List.mem_map.mp hx
      rfl
    · obtain ⟨k, -, rfl⟩ := List.mem_map.mp hx
      exact ⟨rfl, rfl⟩
    · exact List.pairwise_map.mpr ((rangeIncl_sorted _ _).imp fun h => .inr ⟨rfl, .inr ⟨rfl, h⟩⟩)
  | three =>
    cases pt with
    | false =>
      refine sorted_flatMap_i (fun i x hx => ?_) fun i => ?_
      · obtain ⟨k, -, rfl⟩ := List.mem_map.mp hx
        rfl
      · exact List.pairwise_map.mpr ((rangeIncl_sorted _ _).imp fun h => .inr ⟨rfl, .inl h⟩)
    | true => exact List.pairwise_map.mpr ((rangeIncl_sorted _ _).imp fun h => .inl h)

/-- Settles O38: nested loops over ascending ranges list the cuts in lexicographic order. -/
theorem splitsAreEnumeratedLexicographically : Obligations.SplitsAreEnumeratedLexicographically :=
  fun lv pt n => ⟨fun _ => mem_splits, splits_sorted lv pt n⟩

/-! ### The search and the passes -/

theorem splitSearch_keeps (cs : ColourSet) (lv : Levels) (pt : Bool) (m : Vec3) (o : List (Fin 16)) (b : Best) :
    KeepsFirstBest cs lv m (candidatesOf lv pt o) b (splitSearch cs lv pt m o ⟨b, false⟩).best := by
  rw [splitSearch_eq]
  exact (foldl_tryCandidate cs lv m _ ⟨b, false⟩).1

/-- What a pass does: it leaves the incumbent, or replaces it by another and says so (R253). -/
theorem reorderPass_cases (cs : ColourSet) (lv : Levels) (pt : Bool) (m : Vec3) (o : List (Fin 16)) (c : Cuts)
    (b : Best) :
    KeepsFirstBest cs lv m (passCandidates lv pt (o, c)) b (reorderPass cs lv pt m o c b).best ∧
    ((reorderPass cs lv pt m o c b).improved = false ∧ (reorderPass cs lv pt m o c b).best = b ∨
      (reorderPass cs lv pt m o c b).improved = true ∧ (reorderPass cs lv pt m o c b).best ≠ b) := by
  rw [reorderPass_eq]
  obtain ⟨hkeeps, hno, hyes⟩ := foldl_tryCandidate cs lv m (passCandidates lv pt (o, c)) ⟨b, false⟩
  refine ⟨hkeeps, ?_⟩
  cases himp : ((passCandidates lv pt (o, c)).foldl (Search.tryCandidate cs lv m) ⟨b, false⟩).improved with
  | false => exact .inl ⟨rfl, by rw [hno himp]⟩
  | true => exact .inr ⟨rfl, (hyes himp).resolve_left nofun⟩

theorem reorderPasses_of_seed (cs : ColourSet) (lv : Levels) (pt : Bool) (m : Vec3) (ro : Nat) {b : Best}
    (h : b.part = none) : reorderPasses cs lv pt m ro b = b := by
  cases ro with
  | zero => rfl
  | succ ro => simp only [reorderPasses, h]

theorem reorderPasses_of_stuck {cs : ColourSet} {lv : Levels} {pt : Bool} {m : Vec3} {b : Best} {o : List (Fin 16)}
    {c : Cuts} (h : b.part = some (o, c)) (himp : (reorderPass cs lv pt m o c b).improved = false)
    (hbest : (reorderPass cs lv pt m o c b).best = b) (ro : Nat) : reorderPasses cs lv pt m (ro + 1) b = b := by
  simp only [reorderPasses, h, himp, Bool.false_eq_true, if_false, hbest]

theorem reorderPasses_of_improved {cs : ColourSet} {lv : Levels} {pt : Bool} {m : Vec3} {b : Best} {o : List (Fin 16)}
    {c : Cuts} (h : b.part = some (o, c)) (himp : (reorderPass cs lv pt m o c b).improved = true) (ro : Nat) :
    reorderPasses cs lv pt m (ro + 1) b = reorderPasses cs lv pt m ro (reorderPass cs lv pt m o c b).best := by
  simp only [reorderPasses, h, himp, if_true]

theorem reorderPasses_keep (cs : ColourSet) (lv : Levels) (pt : Bool) (m : Vec3) (ro : Nat) (b : Best) :
    PassesKeep cs lv pt m ro b (reorderPasses cs lv pt m ro b) := by
  induction ro generalizing b with
  | zero => rfl
  | succ ro ih =>
    cases hpart : b.part with
    | none =>
      rw [PassesKeep, hpart]
      exact reorderPasses_of_seed cs lv pt m (ro + 1) hpart
    | some x =>
      obtain ⟨o, c⟩ := x
      rw [PassesKeep, hpart]
      obtain ⟨hkeeps, ⟨himp, hbest⟩ | ⟨himp, hbest⟩⟩ := reorderPass_cases cs lv pt m o c b
      · rw [hbest] at hkeeps
        exact .inl ⟨hkeeps, reorderPasses_of_stuck hpart himp hbest ro⟩
      · rw [reorderPasses_of_improved hpart himp]
        exact .inr ⟨_, hbest, hkeeps, ih _⟩

/-! ### Cuts and exchanges -/

theorem mem_interiorCuts {n : Nat} {c : Cuts} {p : Nat} :
    p ∈ interiorCuts n c ↔ (p = c.i ∨ p = c.j ∨ p = c.k) ∧ 0 < p ∧ p < n := by
  have hone (P : Prop) [Decidable P] (a : Nat) : p ∈ (if P then [a] else []) ↔ P ∧ p = a := by
    split <;> simp [*]
  simp only [interiorCuts, List.mem_append, hone]
  constructor
  · rintro ((⟨⟨h0, hn⟩, rfl⟩ | ⟨⟨h0, hn, -⟩, rfl⟩) | ⟨⟨h0, hn, -⟩, rfl⟩)
    · exact ⟨.inl rfl, h0, hn⟩
    · exact ⟨.inr (.inl rfl), h0, hn⟩
    · exact ⟨.inr (.inr rfl), h0, hn⟩
  · rintro ⟨hp, h0, hn⟩
    omega

theorem interiorCuts_sorted {n : Nat} {c : Cuts} (hij : c.i ≤ c.j) (hjk : c.j ≤ c.k) :
    (interiorCuts n c).Pairwise (· < ·) := by
  have hone (P : Prop) [Decidable P] (a x : Nat) : x ∈ (if P then [a] else []) ↔ P ∧ x = a := by
    split <;> simp [*]
  have hsingle (P : Prop) [Decidable P] (a : Nat) : (if P then [a] else []).Pairwise (· < ·) := by
    split <;> simp
  rw [interiorCuts]
  refine List.pairwise_append.mpr ⟨List.pairwise_append.mpr ⟨hsingle _ _, hsingle _ _, ?_⟩, hsingle _ _, ?_⟩
  · intro x hx y hy
    rw [hone] at hx hy
    omega
  · intro x hx y hy
    simp only [List.mem_append, hone] at hx hy
    omega

/-- The neighbours a cut lies between, taken out of the order. -/
theorem exists_swapAt_eq {o : List (Fin 16)} {p : Nat} (h0 : 0 < p) (hp : p < o.length) :
    ∃ before x y rest, o = before ++ x :: y :: rest ∧ before.length = p - 1 ∧
      swapAt o p = before ++ y :: x :: rest := by
  have hdrop : o.drop (p - 1) = o[p - 1] :: o[p] :: o.drop (p + 1) := by
    rw [List.drop_eq_getElem_cons (by omega), show p - 1 + 1 = p by omega, List.drop_eq_getElem_cons hp]
  refine ⟨o.take (p - 1), o[p - 1], o[p], o.drop (p + 1), ?_, ?_, ?_⟩
  · rw [← hdrop, List.take_append_drop]
  · rw [List.length_take]
    omega
  · rw [swapAt, hdrop]

theorem swapAt_spec {o : List (Fin 16)} {p : Nat} (h0 : 0 < p) (hp : p < o.length) :
    (swapAt o p).length = o.length ∧
    ∀ q : Nat, (swapAt o p)[q]? = if q = p - 1 then o[p]? else if q = p then o[p - 1]? else o[q]? := by
  obtain ⟨before, x, y, rest, rfl, hlen, hswap⟩ := exists_swapAt_eq h0 hp
  rw [hswap]
  refine ⟨by simp, fun q => ?_⟩
  obtain ⟨d, rfl⟩ : ∃ d, p = d + 1 := ⟨p - 1, by omega⟩
  simp only [Nat.add_sub_cancel] at hlen ⊢
  subst hlen
  by_cases hq : q < before.length
  · have h1 : q ≠ before.length := by omega
    have h2 : q ≠ before.length + 1 := by omega
    simp [h1, h2, List.getElem?_append_left hq]
  · obtain ⟨d, rfl⟩ : ∃ d, q = before.length + d := ⟨q - before.length, by omega⟩
    match d with
    | 0 => simp
    | 1 => simp
    | d + 2 => simp [List.getElem?_append_right]

/-! ### FITCLUSTER -/

theorem clusterFitCore_of_empty {cs : ColourSet} (h : cs.count.val = 0) (lv : Levels) (m : Vec3) (pt : Bool)
    (ro : Nat) : clusterFitCore cs lv m pt ro = rangeFitCore cs lv m := if_pos h

/-- The incumbent before the search: the Range Fit result, from no order (R241). -/
def seedOf (cs : ColourSet) (lv : Levels) (m : Vec3) : Best := ⟨rangeFitCore cs lv m, none⟩

/-- The incumbent after the search of the principal-axis order. -/
def searched (cs : ColourSet) (lv : Levels) (m : Vec3) (pt : Bool) : Best :=
  (splitSearch cs lv pt m (sortByProjection cs (axis cs)) ⟨seedOf cs lv m, false⟩).best

theorem clusterFitCore_of_nonempty {cs : ColourSet} (h : cs.count.val ≠ 0) (lv : Levels) (m : Vec3) (pt : Bool)
    (ro : Nat) : clusterFitCore cs lv m pt ro = (reorderPasses cs lv pt m ro (searched cs lv m pt)).fit := if_neg h

/-- Settles O40: the search of the principal-axis order and each pass keep the first candidate of least error. -/
theorem fitclusterKeepsTheBestSplit : Obligations.FitclusterKeepsTheBestSplit := by
  refine ⟨fun lv met pt ro s => ?_, fun n c hij hjk => ⟨interiorCuts_sorted hij hjk, fun _ => mem_interiorCuts⟩,
    fun o p => swapAt_spec⟩
  refine ⟨_, _, exec_fitcluster lv met pt ro s, exec_fitrange lv met s,
    commit_sameExcept (by rw [Engine.fitCluster_eq, Engine.commit_eq]),
    completeWith_status_of_eq (Engine.fitCluster_status lv met pt ro s.eng), ?_⟩
  simp only [State.completeWith_fit, Engine.fitCluster_fit, Engine.fitRange_fit]
  refine ⟨trivial, fun i hnone => spread_none hnone _, fun hempty => ?_, fun hcount => ?_⟩
  · refine State.completeWith_congr ?_
    rw [Engine.fitCluster_eq, clusterFitCore_of_empty hempty, ← Engine.fitRange_eq]
  · rw [clusterFitCore_of_nonempty hcount]
    exact ⟨_, _, _, rfl, splitSearch_keeps s.eng.cs lv pt (metricVec met) _ (seedOf s.eng.cs lv (metricVec met)),
      reorderPasses_keep s.eng.cs lv pt (metricVec met) ro _, rfl⟩

/-! ### The error never grows -/

/-- The incumbent is the same or has a strictly smaller error. -/
def Best.improves (b' b : Best) : Prop := b' = b ∨ flt b'.fit.err b.fit.err = true

theorem Best.improves.refl (b : Best) : b.improves b := .inl rfl

theorem Best.improves.trans {a b c : Best} (h : a.improves b) (h' : b.improves c) : a.improves c := by
  rcases h with rfl | h
  · exact h'
  · rcases h' with rfl | h'
    · exact .inr h
    · exact .inr (Machine.flt_trans h h')

theorem Best.improves.not_flt {b' b : Best} (h : b'.improves b) : flt b.fit.err b'.fit.err = false := by
  rcases h with rfl | h
  · exact flt_self _
  · exact flt_asymm h

theorem KeepsFirstBest.improves {cs : ColourSet} {lv : Levels} {m : Vec3} {xs : List (List (Fin 16) × Cuts)}
    {b b' : Best} (h : KeepsFirstBest cs lv m xs b b') : b'.improves b := by
  rcases h with ⟨h, -⟩ | ⟨_, _, _, _, -, -, rfl, hlt, -, -⟩
  · exact .inl h
  · exact .inr hlt

/-- More passes leave the incumbent of fewer, or one of smaller error. -/
theorem reorderPasses_improves (cs : ColourSet) (lv : Levels) (pt : Bool) (m : Vec3) {ro ro' : Nat} (h : ro ≤ ro')
    (b : Best) : (reorderPasses cs lv pt m ro' b).improves (reorderPasses cs lv pt m ro b) := by
  induction ro' generalizing ro b with
  | zero =>
    rw [Nat.le_zero.mp h]
    exact .refl _
  | succ n ih =>
    cases hpart : b.part with
    | none =>
      rw [reorderPasses_of_seed cs lv pt m _ hpart, reorderPasses_of_seed cs lv pt m _ hpart]
      exact .refl b
    | some x =>
      obtain ⟨o, c⟩ := x
      obtain ⟨hkeeps, ⟨himp, hbest⟩ | ⟨himp, -⟩⟩ := reorderPass_cases cs lv pt m o c b
      · rw [reorderPasses_of_stuck hpart himp hbest]
        cases ro with
        | zero => exact .refl b
        | succ k =>
          rw [reorderPasses_of_stuck hpart himp hbest]
          exact .refl b
      · rw [reorderPasses_of_improved hpart himp]
        cases ro with
        | zero => exact (ih (Nat.zero_le n) _).trans hkeeps.improves
        | succ k =>
          rw [reorderPasses_of_improved hpart himp]
          exact ih (Nat.le_of_succ_le_succ h) _

/-- Settles O41: the incumbent starts at the Range Fit result and only a smaller error replaces it. -/
theorem clusterErrorNeverExceedsRangeError : Obligations.ClusterErrorNeverExceedsRangeError := by
  intro lv met pt ro ro' s hro
  refine ⟨_, _, _, exec_fitrange lv met s, exec_fitcluster lv met pt ro s, exec_fitcluster lv met pt ro' s, ?_⟩
  simp only [State.completeWith_fit, Engine.fitCluster_fit, Engine.fitRange_fit]
  by_cases hcount : s.eng.cs.count.val = 0
  · rw [clusterFitCore_of_empty hcount, clusterFitCore_of_empty hcount]
    exact ⟨flt_self _, flt_self _⟩
  · rw [clusterFitCore_of_nonempty hcount, clusterFitCore_of_nonempty hcount]
    have hsearch : (searched s.eng.cs lv (metricVec met) pt).improves (seedOf s.eng.cs lv (metricVec met)) :=
      (splitSearch_keeps s.eng.cs lv pt (metricVec met) _ _).improves
    have hpasses := reorderPasses_improves s.eng.cs lv pt (metricVec met) (Nat.zero_le ro)
      (searched s.eng.cs lv (metricVec met) pt)
    exact ⟨(hpasses.trans hsearch).not_flt, (reorderPasses_improves s.eng.cs lv pt (metricVec met) hro _).not_flt⟩

end Sys2Proof.Machine

/-!
The colour set of the reset registers (R31), and punch-through (R354 (3)): a three-level fit gives an entry an index
other than 3 whichever unit runs, so a decoded pixel is transparent exactly where the pixel was excluded.
-/
namespace Sys2Proof.Machine

/-! ### The colour set of the reset registers -/

/-- The remap entries of reset name entry 0 of an empty set. -/
theorem ColourSet.reset_remap (i : Fin 16) : ColourSet.reset.remap[i] = some 0 := by
  revert i
  decide

/-- The reset registers meet the invariant of R31 by its clause for reset. -/
theorem ColourSet.reset_legal : ColourSet.reset.Legal where
  transp_iff := by decide
  remap_onto := nofun
  colours_differ := nofun
  weights := by decide
  zero_above := by decide
  indexed := .inr ⟨rfl, ColourSet.reset_remap⟩

/-- Settles O33: the reset set is legal by its own clause, and its remap entries name an entry it does not have. -/
theorem resetColourSetBreaksTheRemapClauses : Obligations.ResetColourSetBreaksTheRemapClauses := by
  have hlegal := ColourSet.reset_legal
  have hcount : State.reset.eng.cs.count.val = 0 := rfl
  refine ⟨hlegal, by omega, hlegal.transp_iff, hlegal.remap_onto, hlegal.colours_differ, hlegal.weights,
    fun i => ⟨?_, fun j _ => by omega⟩, hcount, fun hindexed => ?_⟩
  · rw [show State.reset.eng.cs.remap[i] = some 0 from ColourSet.reset_remap i]
    nofun
  · have hlt := hindexed.remap_lt 0 0 (ColourSet.reset_remap 0)
    omega

/-! ### No entry of a three-level fit has index 3 -/

/-- Every index names a level of a three-level fit. -/
def NamesLevel (x : Vector (BitVec 2) 16) : Prop := ∀ j : Fin 16, x[j] ≠ 3#2

theorem namesLevel_replicate {k : BitVec 2} (h : k ≠ 3#2) : NamesLevel (Vector.replicate 16 k) := fun j => by
  rw [Fin.getElem_fin, Vector.getElem_replicate]
  exact h

/-- With the third group empty no position has index 3 (R245, R246). -/
theorem groupIdx_ne_three {c : Cuts} (h : c.k = c.j) (t : Nat) : groupIdx c t ≠ 3#2 := by
  rw [groupIdx, h]
  split
  · decide
  · split
    · decide
    · decide

theorem namesLevel_assignFrom {c : Cuts} (h : c.k = c.j) (o : List (Fin 16)) {x : Vector (BitVec 2) 16} {t : Nat}
    (hx : NamesLevel x) : NamesLevel (assignFrom c x t o) := by
  induction o generalizing x t with
  | nil => exact hx
  | cons i o ih =>
    refine ih fun j => ?_
    rw [Fin.getElem_fin, Vector.getElem_set]
    split
    · exact groupIdx_ne_three h t
    · exact hx j

theorem candidateFit_eidx {cs : ColourSet} {lv : Levels} {m : Vec3} {x : List (Fin 16) × Cuts} {f : FitCore}
    (h : candidateFit cs lv m x = some f) : f.eidx = assignFrom x.2 (Vector.replicate 16 0) 0 x.1 := by
  rw [candidateFit, evalSplit] at h
  dsimp only at h
  split at h
  · cases h
  · rw [← Option.some.inj h]

theorem namesLevel_candidateFit {cs : ColourSet} {lv : Levels} {m : Vec3} {x : List (Fin 16) × Cuts} {f : FitCore}
    (h : candidateFit cs lv m x = some f) (hc : x.2.k = x.2.j) : NamesLevel f.eidx := by
  rw [candidateFit_eidx h]
  exact namesLevel_assignFrom hc _ (namesLevel_replicate (by decide))

theorem cuts_of_mem_candidatesOf {pt : Bool} {o : List (Fin 16)} {x : List (Fin 16) × Cuts}
    (h : x ∈ candidatesOf .three pt o) : x.2.k = x.2.j := by
  obtain ⟨c, hc, rfl⟩ := List.mem_map.mp h
  obtain ⟨-, -, -, hkj, -⟩ := mem_splits.mp hc
  exact hkj rfl

theorem cuts_of_mem_passCandidates {pt : Bool} {y x : List (Fin 16) × Cuts} (h : x ∈ passCandidates .three pt y) :
    x.2.k = x.2.j := by
  obtain ⟨p, -, hx⟩ := List.mem_flatMap.mp h
  exact cuts_of_mem_candidatesOf hx

theorem KeepsFirstBest.namesLevel {cs : ColourSet} {lv : Levels} {m : Vec3} {xs : List (List (Fin 16) × Cuts)}
    {b b' : Best} (h : KeepsFirstBest cs lv m xs b b') (hxs : ∀ x ∈ xs, x.2.k = x.2.j) (hb : NamesLevel b.fit.eidx) :
    NamesLevel b'.fit.eidx := by
  rcases h with ⟨rfl, -⟩ | ⟨before, x, after, f, rfl, hf, rfl, -⟩
  · exact hb
  · exact namesLevel_candidateFit hf (hxs x (by simp))

theorem PassesKeep.namesLevel {cs : ColourSet} {pt : Bool} {m : Vec3} {ro : Nat} {b b' : Best}
    (h : PassesKeep cs .three pt m ro b b') (hb : NamesLevel b.fit.eidx) : NamesLevel b'.fit.eidx := by
  induction ro generalizing b with
  | zero =>
    rw [PassesKeep] at h
    rwa [h]
  | succ ro ih =>
    rw [PassesKeep] at h
    split at h
    next => rwa [h]
    next x _ =>
      rcases h with ⟨-, rfl⟩ | ⟨c, -, hkeeps, hrest⟩
      · exact hb
      · exact ih hrest (hkeeps.namesLevel (fun _ => cuts_of_mem_passCandidates) hb)

theorem nearestLevel_three_ne (c : Rgb8) (m : Vec3) (qa qb : Rgb565) : (nearestLevel c m qa qb .three).k ≠ 3#2 := by
  have hlt := (List.getElem?_eq_some_iff.mp (nearestNumbered_getElem? c m qa qb .three)).1
  have hlen : (levels8 qa qb .three).length = 3 := by simp [levels8]
  intro h
  rw [← toNat_nearestLevel_k, h, hlen] at hlt
  exact absurd hlt (by decide)

theorem namesLevel_rangeFitCore (cs : ColourSet) (m : Vec3) : NamesLevel (rangeFitCore cs .three m).eidx := by
  by_cases h : cs.count.val = 0
  · rw [rangeFitCore_of_empty h]
    exact namesLevel_replicate (by decide)
  · rw [rangeFitCore_of_nonempty h]
    intro j
    rw [tab16_getElem_fin]
    split
    · rw [rangeNear]
      exact nearestLevel_three_ne _ _ _ _
    · decide

theorem namesLevel_clusterFitCore (cs : ColourSet) (m : Vec3) (pt : Bool) (ro : Nat) :
    NamesLevel (clusterFitCore cs .three m pt ro).eidx := by
  by_cases h : cs.count.val = 0
  · rw [clusterFitCore_of_empty h]
    exact namesLevel_rangeFitCore cs m
  · have hsearch := splitSearch_keeps cs .three pt m (sortByProjection cs (axis cs)) (seedOf cs .three m)
    have hfound := hsearch.namesLevel (fun _ => cuts_of_mem_candidatesOf) (namesLevel_rangeFitCore cs m)
    rw [clusterFitCore_of_nonempty h]
    exact (reorderPasses_keep cs .three pt m ro (searched cs .three m pt)).namesLevel hfound

/-! ### The fit COMPRESS chooses -/

theorem dispatchedFit_ends (lv : Levels) (fit : FitQuality) (met : Metric) (pt : Bool) (ro : Nat) (cs : ColourSet) :
    ∃ qa qb, (dispatchedFit lv fit met pt ro cs).a = grid qa ∧ (dispatchedFit lv fit met pt ro cs).b = grid qb ∧
      (dispatchedFit lv fit met pt ro cs).lv = lv := by
  rw [dispatchedFit]
  split
  · exact ⟨_, _, by rw [singleFit], by rw [singleFit], by rw [singleFit]⟩
  · split
    · exact ⟨_, _, by rw [FitCore.regs], by rw [FitCore.regs], by rw [FitCore.regs]⟩
    · exact ⟨_, _, by rw [FitCore.regs], by rw [FitCore.regs], by rw [FitCore.regs]⟩

/-- The indices are spread from indices of entries, each a level of the fit. -/
theorem exists_dispatchedFit_idx (fit : FitQuality) (met : Metric) (pt : Bool) (ro : Nat) (cs : ColourSet) :
    ∃ x, NamesLevel x ∧ (dispatchedFit .three fit met pt ro cs).idx = spread cs x := by
  rw [dispatchedFit]
  split
  · rw [singleFit]
    refine ⟨_, namesLevel_replicate ?_, rfl⟩
    generalize scBest .three (metricVec met) cs.rgb[0] = k
    cases k
    · decide
    · decide
  · split
    · rw [FitCore.regs]
      exact ⟨_, namesLevel_rangeFitCore cs _, rfl⟩
    · rw [FitCore.regs]
      exact ⟨_, namesLevel_clusterFitCore cs _ pt ro, rfl⟩

/-- The index of a pixel is 3 exactly when the pixel is excluded (R223). -/
theorem dispatchedFit_idx_eq_three_iff (fit : FitQuality) (met : Metric) (pt : Bool) (ro : Nat) (cs : ColourSet)
    (i : Fin 16) : (dispatchedFit .three fit met pt ro cs).idx[i] = 3#2 ↔ cs.remap[i] = none := by
  obtain ⟨x, hx, hidx⟩ := exists_dispatchedFit_idx fit met pt ro cs
  rw [hidx]
  cases hr : cs.remap[i] with
  | none => exact iff_of_true (spread_none hr x) rfl
  | some j =>
    rw [spread_some hr]
    exact iff_of_false (hx j) nofun

/-! ### Punch-through -/

theorem decodeColour_colourBytes_three (fit : FitQuality) (met : Metric) (pt wa : Bool) (ro : Nat)
    (pix : Vector Pixel 16) (i : Fin 16) :
    ((buildSet pt wa pix).remap[i] = none →
      (decodeColour true (colourBytes .three fit met pt wa ro pix))[i] = Pixel.zero) ∧
    ((buildSet pt wa pix).remap[i] ≠ none →
      ((decodeColour true (colourBytes .three fit met pt wa ro pix))[i]).a = 255#8) := by
  obtain ⟨qa, qb, ha, hb, hlv⟩ := dispatchedFit_ends .three fit met pt ro (buildSet pt wa pix)
  have hiff := dispatchedFit_idx_eq_three_iff fit met pt ro (buildSet pt wa pix) i
  rw [colourBytes, decodeColour_encodeColour ha hb (fun _ => rfl), hlv]
  constructor
  · intro h
    rw [(levels8_three_getElem? qa qb _).1 (hiff.mpr h), levelPixel]
  · intro h
    obtain ⟨l, hl⟩ := (levels8_three_getElem? qa qb _).2 (mt hiff.mp h)
    rw [hl, levelPixel, Rgb8.withAlpha]

theorem Engine.decompressBlock_bc1_dpix (e : Engine) (i : Fin 16) :
    (e.decompressBlock .bc1).dpix[i] = (decodeColour true (e.half .lower))[i] := by
  rw [Engine.decompressBlock, Engine.colourDec]

/-- Settles O57: the pixels of index 3 are the excluded ones, those of alpha below 128. -/
theorem punchThroughPixelsDecodeTransparent : Obligations.PunchThroughPixelsDecodeTransparent := by
  intro fit met wa ro s
  refine ⟨_, runAll_roundTrip .bc1 fit met true wa ro s, rfl, fun i => ?_⟩
  obtain ⟨hexcluded, hkept⟩ := decodeColour_colourBytes_three fit met true wa ro s.eng.pix i
  rw [Ne, buildSet_remap_eq_none_iff] at hkept
  rw [buildSet_remap_eq_none_iff] at hexcluded
  rw [roundTrip, State.completeWith_dpix, Engine.decompressBlock_bc1_dpix, half_completeWith_compressBlock]
  exact ⟨fun h => hexcluded ⟨rfl, h⟩, fun h => hkept fun hlt => absurd hlt.2 (Nat.not_lt.mpr h)⟩

end Sys2Proof.Machine

/-!
The principal axis (R214 to R217, R242): the sums channel by channel, the rounds of the power iteration, the bounds they
keep for a legal colour set, and the order of the projections.
-/
namespace Sys2Proof.Machine

/-! ### The sums of the centroid and the covariance -/

/-- The f32 sum of a term over entries, from a start value. -/
def sumFrom (term : Fin 16 → F32) (acc : F32) (es : List (Fin 16)) : F32 :=
  es.foldl (fun acc i => fadd acc (term i)) acc

theorem sumOver_eq (es : List (Fin 16)) (term : Fin 16 → F32) : sumOver es term = sumFrom term f0 es := by
  rw [sumOver, sumFrom]

theorem sumFrom_nil (term : Fin 16 → F32) (acc : F32) : sumFrom term acc [] = acc := by rw [sumFrom, List.foldl_nil]

theorem sumFrom_cons (term : Fin 16 → F32) (acc : F32) (i : Fin 16) (es : List (Fin 16)) :
    sumFrom term acc (i :: es) = sumFrom term (fadd acc (term i)) es := by rw [sumFrom, List.foldl_cons, sumFrom]

/-- One channel of the weighted colour of an entry. -/
def weighted (cs : ColourSet) (ch : Vec3 → F32) (i : Fin 16) : F32 := fmul cs.w[i] (ch (cs.colAt i))

/-- The difference of an entry's colour from the centroid. -/
def meanDiff (cs : ColourSet) (cen : Vec3) (i : Fin 16) : Vec3 := vsub (cs.colAt i) cen

/-- The weighted product of two channels of the difference. -/
def diffProduct (cs : ColourSet) (cen : Vec3) (ch ch' : Vec3 → F32) (i : Fin 16) : F32 :=
  fmul (ch (meanDiff cs cen i)) (ch' (vscale cs.w[i] (meanDiff cs cen i)))

theorem foldl_meanAcc (cs : ColourSet) (acc : MeanAcc) (es : List (Fin 16)) :
    es.foldl (MeanAcc.add cs) acc
      = ⟨sumFrom (fun i => cs.w[i]) acc.w es,
          ⟨sumFrom (weighted cs Vec3.x) acc.s.x es, sumFrom (weighted cs Vec3.y) acc.s.y es,
            sumFrom (weighted cs Vec3.z) acc.s.z es⟩⟩ := by
  induction es generalizing acc with
  | nil => simp only [List.foldl_nil, sumFrom_nil]
  | cons i es ih =>
    rw [List.foldl_cons, ih]
    simp only [sumFrom_cons, MeanAcc.add, vadd, vscale, weighted]

theorem foldl_sym3 (cs : ColourSet) (cen : Vec3) (c : Sym3) (es : List (Fin 16)) :
    es.foldl (fun c i => c.add (vsub (cs.colAt i) cen) (vscale cs.w[i] (vsub (cs.colAt i) cen))) c
      = { xx := sumFrom (diffProduct cs cen Vec3.x Vec3.x) c.xx es
          xy := sumFrom (diffProduct cs cen Vec3.x Vec3.y) c.xy es
          xz := sumFrom (diffProduct cs cen Vec3.x Vec3.z) c.xz es
          yy := sumFrom (diffProduct cs cen Vec3.y Vec3.y) c.yy es
          yz := sumFrom (diffProduct cs cen Vec3.y Vec3.z) c.yz es
          zz := sumFrom (diffProduct cs cen Vec3.z Vec3.z) c.zz es } := by
  induction es generalizing c with
  | nil => simp only [List.foldl_nil, sumFrom_nil]
  | cons i es ih =>
    rw [List.foldl_cons, ih]
    simp only [sumFrom_cons, Sym3.add, diffProduct, meanDiff]

/-- The total weight of a set. -/
def totalWeight (cs : ColourSet) : F32 := sumFrom (fun i => cs.w[i]) f0 cs.entries

theorem centroid_eq (cs : ColourSet) :
    centroid cs = if feq (totalWeight cs) f0 then Vec3.zero
      else ⟨fdiv (sumFrom (weighted cs Vec3.x) f0 cs.entries) (totalWeight cs),
        fdiv (sumFrom (weighted cs Vec3.y) f0 cs.entries) (totalWeight cs),
        fdiv (sumFrom (weighted cs Vec3.z) f0 cs.entries) (totalWeight cs)⟩ := by
  have hfold := foldl_meanAcc cs ⟨f0, Vec3.zero⟩ cs.entries
  rw [centroid, hfold, totalWeight]
  rfl

theorem covariance_eq (cs : ColourSet) (cen : Vec3) :
    covariance cs cen
      = { xx := sumFrom (diffProduct cs cen Vec3.x Vec3.x) f0 cs.entries
          xy := sumFrom (diffProduct cs cen Vec3.x Vec3.y) f0 cs.entries
          xz := sumFrom (diffProduct cs cen Vec3.x Vec3.z) f0 cs.entries
          yy := sumFrom (diffProduct cs cen Vec3.y Vec3.y) f0 cs.entries
          yz := sumFrom (diffProduct cs cen Vec3.y Vec3.z) f0 cs.entries
          zz := sumFrom (diffProduct cs cen Vec3.z Vec3.z) f0 cs.entries } := by
  rw [covariance, foldl_sym3]

/-! ### The rounds of the power iteration -/

/-- One round: the product over the magnitude of its largest component (R217). -/
def axisRound (c : Sym3) (v : Vec3) : Vec3 :=
  ⟨fdiv (c.mulVec v).x (largestMag (c.mulVec v)), fdiv (c.mulVec v).y (largestMag (c.mulVec v)),
    fdiv (c.mulVec v).z (largestMag (c.mulVec v))⟩

theorem powerIterate_succ (c : Sym3) (n : Nat) (v : Vec3) :
    powerIterate c (n + 1) v
      = if feq (largestMag (c.mulVec v)) f0 then v else powerIterate c n (axisRound c v) := by
  exact rfl

/-- The rounds go on until the product is zero or none is left. -/
theorem powerIterate_eq_iterate (c : Sym3) (n : Nat) (v : Vec3) :
    ∃ k, k ≤ n ∧ powerIterate c n v = (axisRound c)^[k] v ∧
      (∀ j, j < k → feq (largestMag (c.mulVec ((axisRound c)^[j] v))) f0 = false) ∧
      (k < n → feq (largestMag (c.mulVec ((axisRound c)^[k] v))) f0 = true) := by
  induction n generalizing v with
  | zero => exact ⟨0, Nat.le_refl 0, rfl, fun j hj => absurd hj (Nat.not_lt_zero j), fun h => absurd h (Nat.lt_irrefl 0)⟩
  | succ n ih =>
    rw [powerIterate_succ]
    cases hzero : feq (largestMag (c.mulVec v)) f0 with
    | true => exact ⟨0, Nat.zero_le _, if_pos rfl, fun j hj => absurd hj (Nat.not_lt_zero j), fun _ => hzero⟩
    | false =>
      obtain ⟨k, hk, heq, hgo, hstop⟩ := ih (axisRound c v)
      refine ⟨k + 1, Nat.succ_le_succ hk, ?_, fun j hj => ?_, fun hlt => ?_⟩
      · rw [if_neg Bool.false_ne_true, heq, Function.iterate_succ_apply]
      · cases j with
        | zero => exact hzero
        | succ j =>
          rw [Function.iterate_succ_apply]
          exact hgo j (Nat.lt_of_succ_lt_succ hj)
      · rw [Function.iterate_succ_apply]
        exact hstop (Nat.lt_of_succ_lt_succ hlt)

/-! ### Bounds in units of 1.0 -/

/-- Finite, and at most `B` in magnitude. -/
def Within (r : F32) (B : Nat) : Prop := f32IsFinite r = true ∧ (f32Val r).natAbs ≤ B * 2 ^ 149

theorem IsRounded.within {num : Int} {den : Nat} {r : F32} (h : IsRounded num den r) (h0 : 0 < den) {B : Nat}
    (hB : B < 0x1000000) (hle : num.natAbs ≤ B * 2 ^ 149 * den) : Within r B := by
  have hhi := isF32_ofInt (n := (B : Int)) hB
  have hcast : ((B * 2 ^ 149 * den : Nat) : Int) = (B : Int) * 2 ^ 149 * (den : Int) := by
    rw [Int.natCast_mul, Int.natCast_mul, Int.natCast_pow]
    rfl
  have hnum : ((num.natAbs : Nat) : Int) ≤ (B : Int) * 2 ^ 149 * (den : Int) := hcast ▸ Int.ofNat_le.mpr hle
  obtain ⟨hfin, hlo, hle'⟩ := h.between h0 hhi.neg hhi (by rw [Int.neg_mul]; omega) (by omega)
  exact ⟨hfin, by omega⟩

theorem Within.mono {r : F32} {B C : Nat} (h : Within r B) (hle : B ≤ C) : Within r C :=
  ⟨h.1, h.2.trans (Nat.mul_le_mul_right _ hle)⟩

theorem Within.fadd {a b : F32} {A B : Nat} (ha : Within a A) (hb : Within b B) (h : A + B < 0x1000000) :
    Within (fadd a b) (A + B) := by
  obtain ⟨hafin, hale⟩ := ha
  obtain ⟨hbfin, hble⟩ := hb
  exact (isRounded_fadd hafin hbfin).within Nat.one_pos h (by omega)

theorem Within.fmul {a b : F32} {A B : Nat} (ha : Within a A) (hb : Within b B) (h : A * B < 0x1000000) :
    Within (fmul a b) (A * B) := by
  obtain ⟨hafin, hale⟩ := ha
  obtain ⟨hbfin, hble⟩ := hb
  refine (isRounded_fmul hafin hbfin).within (Nat.two_pow_pos 149) h ?_
  rw [Int.natAbs_mul]
  calc (f32Val a).natAbs * (f32Val b).natAbs ≤ A * 2 ^ 149 * (B * 2 ^ 149) := Nat.mul_le_mul hale hble
    _ = A * B * 2 ^ 149 * 2 ^ 149 := by
      generalize 2 ^ 149 = unit
      ring

theorem within_sumFrom {term : Fin 16 → F32} {B : Nat} (hterm : ∀ i, Within (term i) B) {es : List (Fin 16)} {acc : F32}
    {A : Nat} (hacc : Within acc A) (h : A + es.length * B < 0x1000000) :
    Within (sumFrom term acc es) (A + es.length * B) := by
  induction es generalizing acc A with
  | nil =>
    rw [sumFrom_nil]
    exact hacc.mono (Nat.le_add_right _ _)
  | cons i es ih =>
    rw [List.length_cons, Nat.succ_mul] at h ⊢
    rw [sumFrom_cons]
    exact (ih (hacc.fadd (hterm i) (by omega)) (by omega)).mono (by omega)

theorem within_f0 (B : Nat) : Within f0 B := ⟨finite_f0, by rw [f32Val_f0]; exact Nat.zero_le _⟩

theorem inUnit_channel (c : Byte) : InUnit (fdiv (i2f (c.toNat : Int)) f255) := by
  have hc : c.toNat < 256 := c.isLt
  have hfin : f32IsFinite f255 = true := by decide
  have hval := f32Val_f255
  obtain ⟨hnfin, hnval⟩ := i2f_exact (n := (c.toNat : Int)) (by omega)
  exact inUnit_fdiv hnfin hfin (by omega) (by omega) (by omega)

theorem within_of_inUnit {a : F32} (h : InUnit a) : Within a 1 := by
  obtain ⟨hfin, h0, h1⟩ := h
  exact ⟨hfin, by omega⟩

theorem within_fsub_of_inUnit {a b : F32} (ha : InUnit a) (hb : InUnit b) : Within (fsub a b) 1 := by
  obtain ⟨hafin, ha0, ha1⟩ := ha
  obtain ⟨hbfin, hb0, hb1⟩ := hb
  exact (isRounded_fsub hafin hbfin).within Nat.one_pos (by decide) (by omega)

/-- Rounding keeps the order of natural numbers. -/
theorem IsRounded.mono {num num' : Int} {den : Nat} {r r' : F32} (h : IsRounded num den r) (h' : IsRounded num' den r')
    (h0 : 0 < den) (hnum : 0 ≤ num) (hle : num ≤ num') : f32Val r ≤ f32Val r' := by
  have hpos : 0 ≤ f32Val r' := h'.le_val h0 isF32_zero (by omega)
  have hopen := openLow_mono h0 (show num.natAbs ≤ num'.natAbs by omega)
  have hmag : f32Mag r ≤ f32Mag r' := by
    rw [f32Mag_eq_lowMag, f32Mag_eq_lowMag, h.low, h'.low, roundLow_eq, roundLow_eq]
    exact lowMag_strictMono.monotone (min_le_min_left _ hopen)
  rw [← natAbs_f32Val, ← natAbs_f32Val] at hmag
  omega

/-! ### The bounds of a legal set -/

section
variable {cs : ColourSet} (hlegal : cs.Legal)
include hlegal

theorem ColourSet.Legal.weight (i : Fin 16) :
    f32IsFinite cs.w[i] = true ∧ 0 ≤ f32Val cs.w[i] ∧ f32Val cs.w[i] ≤ 16 * 2 ^ 149 := by
  obtain ⟨hfin, hlo, hhi⟩ := hlegal.weights i
  have hnan := not_nan_of_finite hfin
  rw [flt_eq_false_iff hnan (by decide), f32Val_f0] at hlo
  rw [flt_eq_false_iff (by decide) hnan, f32Val_f16] at hhi
  exact ⟨hfin, hlo, hhi⟩

theorem ColourSet.Legal.within_weight (i : Fin 16) : Within cs.w[i] 16 := by
  obtain ⟨hfin, hlo, hhi⟩ := hlegal.weight i
  exact ⟨hfin, by omega⟩
end

/-- Each channel of an entry's colour is from 0 to 1. -/
theorem inUnit_colAt (cs : ColourSet) (i : Fin 16) :
    InUnit (cs.colAt i).x ∧ InUnit (cs.colAt i).y ∧ InUnit (cs.colAt i).z := by
  rw [ColourSet.colAt, col]
  exact ⟨inUnit_channel _, inUnit_channel _, inUnit_channel _⟩

/-- A weighted channel is from 0 to the weight. -/
theorem fmul_le_weight {w c : F32} (hw : f32IsFinite w = true) (hw0 : 0 ≤ f32Val w) (hc : InUnit c) :
    f32IsFinite (fmul w c) = true ∧ 0 ≤ f32Val (fmul w c) ∧ f32Val (fmul w c) ≤ f32Val w := by
  obtain ⟨hcfin, hc0, hc1⟩ := hc
  refine (isRounded_fmul hw hcfin).between (Nat.two_pow_pos 149) isF32_zero (isF32_f32Val hw) ?_ ?_
  · rw [Int.zero_mul]
    exact Int.mul_nonneg hw0 hc0
  · rw [Int.natCast_pow]
    exact Int.mul_le_mul_of_nonneg_left hc1 hw0

/-- Of two sums, one of terms no larger than the other's, the first is no larger. -/
theorem sumFrom_le {t w : Fin 16 → F32}
    (hw : ∀ i, f32IsFinite (w i) = true ∧ 0 ≤ f32Val (w i) ∧ f32Val (w i) ≤ 16 * 2 ^ 149)
    (ht : ∀ i, f32IsFinite (t i) = true ∧ 0 ≤ f32Val (t i) ∧ f32Val (t i) ≤ f32Val (w i))
    {es : List (Fin 16)} {a b : F32} {A : Nat} (ha : f32IsFinite a = true) (hb : f32IsFinite b = true)
    (ha0 : 0 ≤ f32Val a) (hab : f32Val a ≤ f32Val b) (hbA : f32Val b ≤ A * 2 ^ 149)
    (h : A + es.length * 16 < 0x1000000) :
    f32IsFinite (sumFrom t a es) = true ∧ f32IsFinite (sumFrom w b es) = true ∧ 0 ≤ f32Val (sumFrom t a es) ∧
      f32Val (sumFrom t a es) ≤ f32Val (sumFrom w b es) := by
  induction es generalizing a b A with
  | nil =>
    rw [sumFrom_nil, sumFrom_nil]
    exact ⟨ha, hb, ha0, hab⟩
  | cons i es ih =>
    rw [List.length_cons] at h
    obtain ⟨hwfin, hw0, hw1⟩ := hw i
    obtain ⟨htfin, ht0, ht1⟩ := ht i
    have hround := isRounded_fadd hb hwfin
    have hround' := isRounded_fadd ha htfin
    have hle := hround'.mono hround Nat.one_pos (by omega) (by omega)
    have htop : IsF32 (((A + 16 : Nat) : Int) * 2 ^ 149) := isF32_ofInt (by omega)
    obtain ⟨hfin, -, hA⟩ := hround.between Nat.one_pos isF32_zero htop (by omega) (by omega)
    obtain ⟨hfin', h0, -⟩ := hround'.between Nat.one_pos isF32_zero htop (by omega) (by omega)
    rw [sumFrom_cons, sumFrom_cons]
    exact ih hfin' hfin h0 hle hA (by omega)

theorem ColourSet.length_entries_le (cs : ColourSet) : cs.entries.length ≤ 16 := by
  rw [ColourSet.entries, List.length_take]
  exact Nat.min_le_right _ _

theorem inUnit_centroid {cs : ColourSet} (hlegal : cs.Legal) :
    InUnit (centroid cs).x ∧ InUnit (centroid cs).y ∧ InUnit (centroid cs).z := by
  have hlen := cs.length_entries_le
  have hsum {ch : Vec3 → F32} (hch : ∀ i, InUnit (ch (cs.colAt i))) :=
    sumFrom_le (t := weighted cs ch) (w := fun i => cs.w[i]) (es := cs.entries) (A := 0) (fun i => hlegal.weight i)
      (fun i => fmul_le_weight (hlegal.weight i).1 (hlegal.weight i).2.1 (hch i)) finite_f0 finite_f0
      (Int.le_of_eq f32Val_f0.symm) (Int.le_refl _) (by rw [f32Val_f0]; omega) (by omega)
  rw [centroid_eq]
  split
  next => exact ⟨inUnit_f0, inUnit_f0, inUnit_f0⟩
  next hne =>
    have hquot {ch : Vec3 → F32} (hch : ∀ i, InUnit (ch (cs.colAt i))) :
        InUnit (fdiv (sumFrom (weighted cs ch) f0 cs.entries) (totalWeight cs)) := by
      obtain ⟨hsfin, hwfin, h0, hle⟩ := hsum hch
      refine inUnit_fdiv hsfin hwfin h0 hle ?_
      by_contra hpos
      refine hne ((feq_iff _ _).mpr ⟨not_nan_of_finite hwfin, by decide, ?_⟩)
      rw [totalWeight] at hpos ⊢
      rw [f32Val_f0]
      omega
    exact ⟨hquot fun i => (inUnit_colAt cs i).1, hquot fun i => (inUnit_colAt cs i).2.1,
      hquot fun i => (inUnit_colAt cs i).2.2⟩

end Sys2Proof.Machine

/-!
The axis of a legal set has largest magnitude 1.0 and the projections on it are finite (R214, R217, R242); the order of
the projections is a stable sort.
-/
namespace Sys2Proof.Machine

/-! ### The covariance and the product of a legal set -/

/-- The components are at most `B` in magnitude. -/
def Vec3.Within (v : Vec3) (B : Nat) : Prop := Machine.Within v.x B ∧ Machine.Within v.y B ∧ Machine.Within v.z B

/-- The entries are at most `B` in magnitude. -/
structure Sym3.Within (c : Sym3) (B : Nat) : Prop where
  xx : Machine.Within c.xx B
  xy : Machine.Within c.xy B
  xz : Machine.Within c.xz B
  yy : Machine.Within c.yy B
  yz : Machine.Within c.yz B
  zz : Machine.Within c.zz B

theorem Vec3.Within.vdot {u v : Vec3} {A B : Nat} (hu : u.Within A) (hv : v.Within B)
    (h : A * B + A * B + A * B < 0x1000000) : Machine.Within (vdot u v) (A * B + A * B + A * B) := by
  obtain ⟨hux, huy, huz⟩ := hu
  obtain ⟨hvx, hvy, hvz⟩ := hv
  rw [Machine.vdot]
  exact ((hux.fmul hvx (by omega)).fadd (huy.fmul hvy (by omega)) (by omega)).fadd (huz.fmul hvz (by omega)) h

section
variable {cs : ColourSet} (hlegal : cs.Legal)
include hlegal

theorem within_meanDiff (i : Fin 16) : (meanDiff cs (centroid cs) i).Within 1 := by
  obtain ⟨hx, hy, hz⟩ := inUnit_colAt cs i
  obtain ⟨hcx, hcy, hcz⟩ := inUnit_centroid hlegal
  rw [meanDiff, vsub]
  exact ⟨within_fsub_of_inUnit hx hcx, within_fsub_of_inUnit hy hcy, within_fsub_of_inUnit hz hcz⟩

theorem within_weightedDiff (i : Fin 16) : (vscale cs.w[i] (meanDiff cs (centroid cs) i)).Within 16 := by
  obtain ⟨hx, hy, hz⟩ := within_meanDiff hlegal i
  have hscale {d : F32} (hd : Within d 1) : Within (fmul cs.w[i] d) 16 :=
    ((hlegal.within_weight i).fmul hd (by omega)).mono (by omega)
  rw [vscale]
  exact ⟨hscale hx, hscale hy, hscale hz⟩

theorem within_covariance : (covariance cs (centroid cs)).Within 256 := by
  have hlen := cs.length_entries_le
  have hsum {ch ch' : Vec3 → F32} (hch : ∀ i, Within (ch (meanDiff cs (centroid cs) i)) 1)
      (hch' : ∀ i, Within (ch' (vscale cs.w[i] (meanDiff cs (centroid cs) i))) 16) :
      Within (sumFrom (diffProduct cs (centroid cs) ch ch') f0 cs.entries) 256 :=
    (within_sumFrom (fun i => (hch i).fmul (hch' i) (by omega)) (within_f0 0) (by omega)).mono (by omega)
  have hx (i : Fin 16) := (within_meanDiff hlegal i).1
  have hy (i : Fin 16) := (within_meanDiff hlegal i).2.1
  have hz (i : Fin 16) := (within_meanDiff hlegal i).2.2
  have hwx (i : Fin 16) := (within_weightedDiff hlegal i).1
  have hwy (i : Fin 16) := (within_weightedDiff hlegal i).2.1
  have hwz (i : Fin 16) := (within_weightedDiff hlegal i).2.2
  rw [covariance_eq]
  exact ⟨hsum hx hwx, hsum hx hwy, hsum hx hwz, hsum hy hwy, hsum hy hwz, hsum hz hwz⟩
end

theorem within_mulVec {c : Sym3} (hc : c.Within 256) {v : Vec3} (hv : v.Within 1) : (c.mulVec v).Within 768 := by
  have hrow {u : Vec3} (hu : u.Within 256) : Machine.Within (vdot u v) 768 := (hu.vdot hv (by omega)).mono (by omega)
  rw [Sym3.mulVec]
  exact ⟨hrow ⟨hc.xx, hc.xy, hc.xz⟩, hrow ⟨hc.xy, hc.yy, hc.yz⟩, hrow ⟨hc.xz, hc.yz, hc.zz⟩⟩

/-! ### The largest magnitude -/

/-- The larger of two finite values that are not negative, one of them. -/
theorem fmax_spec {a b : F32} (ha : f32IsFinite a = true) (hb : f32IsFinite b = true) (hna : f32Neg a = false)
    (hnb : f32Neg b = false) :
    f32IsFinite (fmax a b) = true ∧ f32Neg (fmax a b) = false ∧ f32Val (fmax a b) = max (f32Val a) (f32Val b) := by
  rw [fmax]
  split
  next h =>
    obtain ⟨-, -, hlt⟩ := (flt_iff a b).mp h
    exact ⟨hb, hnb, (max_eq_right (Int.le_of_lt hlt)).symm⟩
  next h =>
    have hle := (flt_eq_false_iff (not_nan_of_finite ha) (not_nan_of_finite hb)).mp (Bool.eq_false_iff.mpr h)
    exact ⟨ha, hna, (max_eq_left hle).symm⟩

theorem largestMag_spec {v : Vec3} {B : Nat} (hv : v.Within B) :
    f32IsFinite (largestMag v) = true ∧ f32Neg (largestMag v) = false ∧
      f32Val (largestMag v) = max ((f32Val v.x).natAbs : Int) (max ((f32Val v.y).natAbs : Int) (f32Val v.z).natAbs) := by
  obtain ⟨⟨hx, -⟩, ⟨hy, -⟩, ⟨hz, -⟩⟩ := hv
  have hfin {a : F32} (h : f32IsFinite a = true) : f32IsFinite (fabs a) = true := by rw [f32IsFinite_fabs, h]
  obtain ⟨hyzfin, hyzneg, hyzval⟩ := fmax_spec (hfin hy) (hfin hz) (f32Neg_fabs _) (f32Neg_fabs _)
  obtain ⟨hxyzfin, hxyzneg, hxyzval⟩ := fmax_spec (hfin hx) hyzfin (f32Neg_fabs _) hyzneg
  rw [largestMag]
  exact ⟨hxyzfin, hxyzneg, by rw [hxyzval, hyzval, f32Val_fabs, f32Val_fabs, f32Val_fabs]⟩

/-! ### The axis of a legal set -/

/-- A vector of components at most 1 in magnitude, one of them 1 exactly. -/
def Vec3.UnitMag (v : Vec3) : Prop :=
  v.Within 1 ∧ ((f32Val v.x).natAbs = 2 ^ 149 ∨ (f32Val v.y).natAbs = 2 ^ 149 ∨ (f32Val v.z).natAbs = 2 ^ 149)

theorem unitMag_ones : Vec3.UnitMag ⟨f1, f1, f1⟩ := by
  have hone : Machine.Within f1 1 := ⟨finite_f1, by rw [f32Val_f1]; decide⟩
  exact ⟨⟨hone, hone, hone⟩, .inl (by rw [f32Val_f1]; decide)⟩

theorem largestMag_of_unitMag {v : Vec3} (hv : v.UnitMag) : largestMag v = f1 := by
  obtain ⟨hwithin, hone⟩ := hv
  obtain ⟨-, hneg, hval⟩ := largestMag_spec hwithin
  obtain ⟨⟨-, hx⟩, ⟨-, hy⟩, ⟨-, hz⟩⟩ := hwithin
  refine eq_of_f32Val_eq ?_ (hneg.trans (by decide))
  rw [hval, f32Val_f1]
  omega

/-- A component over a magnitude at least as large. -/
theorem within_fdiv_of_le {a m : F32} (ha : f32IsFinite a = true) (hm : f32IsFinite m = true) (hpos : 0 < f32Val m)
    (hle : ((f32Val a).natAbs : Int) ≤ f32Val m) : Within (fdiv a m) 1 := by
  refine (isRounded_fdiv_of_pos ha hm hpos).within (by omega) (by decide) ?_
  rw [Int.natAbs_mul, Int.natAbs_pow]
  have hnat : (f32Val a).natAbs ≤ (f32Val m).natAbs := by omega
  rw [Nat.one_mul, Nat.mul_comm]
  exact Nat.mul_le_mul_left _ hnat

/-- A component over its own magnitude is 1 in magnitude, exactly. -/
theorem natAbs_fdiv_of_eq {a m : F32} (ha : f32IsFinite a = true) (hm : f32IsFinite m = true) (hpos : 0 < f32Val m)
    (heq : ((f32Val a).natAbs : Int) = f32Val m) : (f32Val (fdiv a m)).natAbs = 2 ^ 149 := by
  have hround := isRounded_fdiv_of_pos ha hm hpos
  rcases Int.natAbs_eq (f32Val a) with hsign | hsign
  · have hexact := hround.exact (by omega) isF32_one (by rw [hsign, heq, Int.mul_comm]; omega)
    rw [hexact.2]
    decide
  · have hexact := hround.exact (by omega) isF32_one.neg (by rw [hsign, heq]; omega)
    rw [hexact.2]
    decide

theorem unitMag_axisRound {c : Sym3} {v : Vec3} (hw : (c.mulVec v).Within 768)
    (hne : feq (largestMag (c.mulVec v)) f0 = false) : (axisRound c v).UnitMag := by
  obtain ⟨hmfin, -, hmval⟩ := largestMag_spec hw
  have hmne : f32Val (largestMag (c.mulVec v)) ≠ 0 := fun h =>
    Bool.eq_false_iff.mp hne ((feq_iff _ _).mpr ⟨not_nan_of_finite hmfin, by decide, by rw [h, f32Val_f0]⟩)
  rw [axisRound]
  generalize c.mulVec v = w at *
  generalize largestMag w = m at *
  obtain ⟨⟨hx, -⟩, ⟨hy, -⟩, ⟨hz, -⟩⟩ := hw
  have hpos : 0 < f32Val m := by omega
  refine ⟨⟨within_fdiv_of_le hx hmfin hpos (by omega), within_fdiv_of_le hy hmfin hpos (by omega),
    within_fdiv_of_le hz hmfin hpos (by omega)⟩, ?_⟩
  have hlargest : ((f32Val w.x).natAbs : Int) = f32Val m ∨ ((f32Val w.y).natAbs : Int) = f32Val m ∨
      ((f32Val w.z).natAbs : Int) = f32Val m := by omega
  rcases hlargest with h | h | h
  · exact .inl (natAbs_fdiv_of_eq hx hmfin hpos h)
  · exact .inr (.inl (natAbs_fdiv_of_eq hy hmfin hpos h))
  · exact .inr (.inr (natAbs_fdiv_of_eq hz hmfin hpos h))

theorem unitMag_powerIterate {c : Sym3} (hc : c.Within 256) (n : Nat) {v : Vec3} (hv : v.UnitMag) :
    (powerIterate c n v).UnitMag := by
  induction n generalizing v with
  | zero => exact hv
  | succ n ih =>
    rw [powerIterate_succ]
    split
    next => exact hv
    next hne => exact ih (unitMag_axisRound (within_mulVec hc hv.1) (Bool.eq_false_iff.mpr hne))

theorem unitMag_axis {cs : ColourSet} (hlegal : cs.Legal) : (axis cs).UnitMag := by
  rw [axis]
  exact unitMag_powerIterate (within_covariance hlegal) _ unitMag_ones

/-- The vectors of the power iteration of a set, from (1, 1, 1) on. -/
def axisSeq (cs : ColourSet) (j : Nat) : Vec3 := (axisRound (covariance cs (centroid cs)))^[j] ⟨f1, f1, f1⟩

theorem axisSeq_succ (cs : ColourSet) (j : Nat) :
    axisSeq cs (j + 1) = axisRound (covariance cs (centroid cs)) (axisSeq cs j) := by
  rw [axisSeq, Function.iterate_succ_apply', axisSeq]

/-- Settles O60: the sums channel by channel, the rounds, and the exact 1.0 each round leaves. -/
theorem principalAxisIsFoundByPowerIteration : Obligations.PrincipalAxisIsFoundByPowerIteration := by
  intro cs
  refine ⟨⟨cs.entries, totalWeight cs, rfl, by rw [sumOver_eq, totalWeight], fun h => ?_, fun h => ?_⟩, fun cen => ?_, ?_,
    fun hlegal => largestMag_of_unitMag (unitMag_axis hlegal)⟩
  · rw [centroid_eq, if_pos h]
    rfl
  · rw [centroid_eq, if_neg (Bool.eq_false_iff.mp h), sumOver_eq, sumOver_eq, sumOver_eq]
    rfl
  · refine ⟨cs.entries, meanDiff cs cen, fun i => vscale cs.w[i] (meanDiff cs cen i), rfl, fun i => ?_, fun i => ?_, ?_⟩
    · rw [meanDiff, vsub, ColourSet.colAt]
    · dsimp only
      rw [vscale]
    · simp only [covariance_eq, sumOver_eq]
      rfl
  · obtain ⟨k, hk, heq, hgo, hstop⟩ :=
      powerIterate_eq_iterate (covariance cs (centroid cs)) Config.powerIters ⟨f1, f1, f1⟩
    refine ⟨k, axisSeq cs, fun j => (covariance cs (centroid cs)).mulVec (axisSeq cs j),
      fun j => largestMag ((covariance cs (centroid cs)).mulVec (axisSeq cs j)),
      hk, rfl, by rw [axis, heq, axisSeq], fun j => ?_, fun j => ?_, fun j hj => ⟨hgo j hj, ?_⟩, hstop⟩
    · dsimp only
      rw [Sym3.mulVec, axisProduct, vdot, vdot, vdot]
    · dsimp only
      rw [largestMag]
    · rw [axisSeq_succ, axisRound]

/-! ### The order of the projections -/

theorem finite_proj {cs : ColourSet} (hlegal : cs.Legal) (i : Fin 16) : f32IsFinite (proj cs (axis cs) i) = true := by
  obtain ⟨hx, hy, hz⟩ := inUnit_colAt cs i
  have hcol : (cs.colAt i).Within 1 := ⟨within_of_inUnit hx, within_of_inUnit hy, within_of_inUnit hz⟩
  rw [proj]
  exact (hcol.vdot (unitMag_axis hlegal).1 (by omega)).1

/-- The order R242 asks for: ascending by projection, entries of equal projection in entry order. -/
def projBefore (p : Fin 16 → F32) (x y : Fin 16) : Prop :=
  flt (p x) (p y) = true ∨ feq (p x) (p y) = true ∧ x < y

theorem projBefore_iff (p : Fin 16 → F32) (x y : Fin 16) : projBefore p x y ↔
    f32IsNaN (p x) = false ∧ f32IsNaN (p y) = false ∧
      (f32Val (p x) < f32Val (p y) ∨ f32Val (p x) = f32Val (p y) ∧ x < y) := by
  rw [projBefore, flt_iff, feq_iff]
  tauto

theorem projBefore_trans {p : Fin 16 → F32} {x y z : Fin 16} (h : projBefore p x y) (h' : projBefore p y z) :
    projBefore p x z := by
  rw [projBefore_iff] at *
  obtain ⟨hx, -, hxy⟩ := h
  obtain ⟨-, hz, hyz⟩ := h'
  refine ⟨hx, hz, ?_⟩
  omega

/-- Insertion of a later entry keeps an order that is held last-first (R242). -/
theorem insertByProj_sorted {p : Fin 16 → F32} {x : Fin 16} {ys : List (Fin 16)} (hnan : f32IsNaN (p x) = false)
    (hys : ∀ y ∈ ys, f32IsNaN (p y) = false ∧ y < x) (h : ys.Pairwise fun a b => projBefore p b a) :
    (insertByProj p x ys).Pairwise fun a b => projBefore p b a := by
  induction ys with
  | nil => exact List.pairwise_singleton _ x
  | cons y ys ih =>
    obtain ⟨hy, htail⟩ := List.pairwise_cons.mp h
    obtain ⟨hynan, hyx⟩ := hys y List.mem_cons_self
    rw [insertByProj]
    split
    next hlt =>
      refine List.pairwise_cons.mpr ⟨fun z hz => ?_, ih (fun z hz => hys z (List.mem_cons_of_mem _ hz)) htail⟩
      rcases List.mem_cons.mp ((insertByProj_perm p x ys).mem_iff.mp hz) with rfl | hz
      · exact .inl hlt
      · exact hy z hz
    next hge =>
      have hle := (flt_eq_false_iff hnan hynan).mp (Bool.eq_false_iff.mpr hge)
      have hbefore : projBefore p y x := (projBefore_iff p y x).mpr ⟨hynan, hnan, by omega⟩
      refine List.pairwise_cons.mpr ⟨fun z hz => ?_, h⟩
      rcases List.mem_cons.mp hz with rfl | hz
      · exact hbefore
      · exact projBefore_trans (hy z hz) hbefore

/-- The entries inserted one by one, each later than all before it. -/
theorem foldl_insertByProj {p : Fin 16 → F32} {xs acc : List (Fin 16)} (hnan : ∀ x ∈ xs, f32IsNaN (p x) = false)
    (hxs : xs.Pairwise fun i j => i.val < j.val) (hacc : ∀ y ∈ acc, f32IsNaN (p y) = false ∧ ∀ x ∈ xs, y < x)
    (h : acc.Pairwise fun a b => projBefore p b a) :
    (xs.foldl (fun acc x => insertByProj p x acc) acc).Perm (xs ++ acc) ∧
      (xs.foldl (fun acc x => insertByProj p x acc) acc).Pairwise fun a b => projBefore p b a := by
  induction xs generalizing acc with
  | nil => exact ⟨.refl _, h⟩
  | cons x xs ih =>
    obtain ⟨hx, htail⟩ := List.pairwise_cons.mp hxs
    have hxnan := hnan x List.mem_cons_self
    have hsorted := insertByProj_sorted hxnan
      (fun y hy => ⟨(hacc y hy).1, (hacc y hy).2 x List.mem_cons_self⟩) h
    have hstill : ∀ y ∈ insertByProj p x acc, f32IsNaN (p y) = false ∧ ∀ z ∈ xs, y < z := fun y hy => by
      rcases List.mem_cons.mp ((insertByProj_perm p x acc).mem_iff.mp hy) with rfl | hy
      · exact ⟨hxnan, fun z hz => hx z hz⟩
      · exact ⟨(hacc y hy).1, fun z hz => (hacc y hy).2 z (List.mem_cons_of_mem _ hz)⟩
    obtain ⟨hperm, hall⟩ := ih (fun y hy => hnan y (List.mem_cons_of_mem _ hy)) htail hstill hsorted
    exact ⟨hperm.trans (((insertByProj_perm p x acc).append_left xs).trans List.perm_middle), hall⟩

/-- Settles O39: the projections of a legal set are at most 3 in magnitude, and insertion of the entries in their order
is a stable sort. -/
theorem principalAxisOrderIsSorted : Obligations.PrincipalAxisOrderIsSorted := by
  refine ⟨fun cs hlegal => finite_proj hlegal, fun cs v hnan => ?_⟩
  obtain ⟨hperm, hsorted⟩ := foldl_insertByProj (acc := []) hnan cs.entries_sorted (fun _ hy => absurd hy List.not_mem_nil)
    List.Pairwise.nil
  rw [List.append_nil] at hperm
  rw [sortByProjection]
  exact ⟨(List.reverse_perm _).trans hperm, List.pairwise_reverse.mpr hsorted⟩

end Sys2Proof.Machine

/-!
The invariant of the colour set (R31): a built set meets every clause, and a step leaves the set, builds it or resets it.
-/
namespace Sys2Proof.Machine

/-! ### The weights of a built set -/

/-- A weight in range: finite, not negative, at most 16.0 (R31). -/
def LegalWeight (w : F32) : Prop := f32IsFinite w = true ∧ flt w f0 = false ∧ flt f16 w = false

theorem legalWeight_of_bounds {w : F32} (hfin : f32IsFinite w = true) (h0 : 0 ≤ f32Val w)
    (h16 : f32Val w ≤ 16 * 2 ^ 149) : LegalWeight w := by
  have hnan := not_nan_of_finite hfin
  refine ⟨hfin, (flt_eq_false_iff hnan (by decide)).mpr ?_, (flt_eq_false_iff (by decide) hnan).mpr ?_⟩
  · rwa [f32Val_f0]
  · rwa [f32Val_f16]

theorem length_carriers_le (pt : Bool) (pix : Vector Pixel 16) (c : Rgb8) : (carriers pt pix.toList c).length ≤ 16 := by
  rw [carriers]
  exact (List.length_filter_le _ _).trans (Nat.le_of_eq (by simp))

theorem tally_n_le (pt : Bool) (pix : Vector Pixel 16) (c : Rgb8) : (tally pt pix.toList c).n ≤ 16 := by
  rw [tally]
  exact length_carriers_le pt pix c

theorem tally_asum_le (pt : Bool) (pix : Vector Pixel 16) (c : Rgb8) : (tally pt pix.toList c).asum ≤ 4080 := by
  have hlen := length_carriers_le pt pix c
  have hbyte : ∀ a ∈ (carriers pt pix.toList c).map fun p => p.a.toNat, a ≤ 255 := by
    intro a ha
    obtain ⟨p, -, rfl⟩ := List.mem_map.mp ha
    have hlt : p.a.toNat < 256 := p.a.isLt
    omega
  have hsum := List.sum_le_card_nsmul _ 255 hbyte
  rw [List.length_map, smul_eq_mul] at hsum
  rw [tally]
  exact hsum.trans (by omega)

/-- A count of at most 16 pixels, or the sum of their alphas over 255, is in range (R174). -/
theorem legalWeight_weight {x : SetEntry} (hn : x.n ≤ 16) (hasum : x.asum ≤ 4080) (wa : Bool) :
    LegalWeight (x.weight wa) := by
  rw [SetEntry.weight]
  cases wa with
  | false =>
    obtain ⟨hfin, hval⟩ := i2f_exact (n := (x.n : Int)) (by omega)
    rw [if_neg Bool.false_ne_true]
    exact legalWeight_of_bounds hfin (by omega) (by omega)
  | true =>
    obtain ⟨hfin, hval⟩ := i2f_exact (n := (x.asum : Int)) (by omega)
    have hdiv := f32Val_f255
    have hround := isRounded_fdiv_of_pos hfin (show f32IsFinite f255 = true by decide) (by rw [hdiv]; decide)
    have hsixteen : IsF32 (16 * 2 ^ 149) := isF32_ofInt (n := 16) (by decide)
    obtain ⟨hwfin, h0, h16⟩ := hround.between (by rw [hdiv]; decide) isF32_zero hsixteen (by omega) (by omega)
    rw [if_pos rfl]
    exact legalWeight_of_bounds hwfin h0 h16

theorem legalWeight_f0 : LegalWeight f0 :=
  legalWeight_of_bounds finite_f0 (Int.le_of_eq f32Val_f0.symm) (by rw [f32Val_f0]; decide)

/-! ### A built set -/

/-- CSBUILD meets every clause of R31. -/
theorem buildSet_legal (pt wa : Bool) (pix : Vector Pixel 16) : (buildSet pt wa pix).Legal := by
  have hnodup : (blockColours pt pix).Nodup := nodup_coloursOf pt pix.toList
  have honto (j : Fin 16) (hj : j.val < (buildSet pt wa pix).count.val) :
      ∃ i : Fin 16, (buildSet pt wa pix).remap[i] = some j := by
    rw [buildSet_count] at hj
    exact exists_buildSet_remap_eq_some pt wa pix j hj
  have hlt (i j : Fin 16) (hij : (buildSet pt wa pix).remap[i] = some j) : j.val < (buildSet pt wa pix).count.val := by
    rw [buildSet_count]
    exact (List.getElem?_eq_some_iff.mp ((buildSet_remap_eq_some_iff pt wa pix i j).mp hij).2).1
  refine ⟨buildSet_transp pt wa pix, honto, fun i j hi hj heq => ?_, fun j => ?_, fun j hj => ?_, .inl ⟨hlt, ?_⟩⟩
  · rw [buildSet_count] at hi hj
    rw [buildSet_rgb, buildSet_rgb, List.getElem?_eq_getElem hi, List.getElem?_eq_getElem hj] at heq
    exact Fin.ext (hnodup.getElem_inj_iff.mp heq)
  · rw [buildSet_w]
    cases (blockColours pt pix)[j.val]? with
    | none => exact legalWeight_f0
    | some c => exact legalWeight_weight (tally_n_le pt pix c) (tally_asum_le pt pix c) wa
  · rw [buildSet_count] at hj
    rw [buildSet_rgb, buildSet_w, List.getElem?_eq_none hj]
    exact ⟨rfl, rfl⟩
  · constructor
    · intro hempty i
      cases hi : (buildSet pt wa pix).remap[i] with
      | none => rfl
      | some j =>
        have hcount := hlt i j hi
        omega
    · intro hnone
      by_contra hcount
      obtain ⟨i, hi⟩ := honto 0 (Nat.pos_of_ne_zero hcount)
      rw [hnone i] at hi
      cases hi

/-! ### What a command and a step do to the colour set -/

theorem Engine.fitDispatch_cs (lv : Levels) (fit : FitQuality) (met : Metric) (pt : Bool) (ro : Nat) (e : Engine) :
    (e.fitDispatch lv fit met pt ro).cs = e.cs := by
  rw [Engine.fitDispatch]
  split
  · exact Engine.fitSingle_cs lv met e
  · split
    · exact Engine.fitRange_cs lv met e
    · exact Engine.fitCluster_cs lv met pt ro e

theorem Engine.colourPart_cs (lv : Levels) (fit : FitQuality) (met : Metric) (pt wa : Bool) (ro : Nat) (off : Half)
    (e : Engine) : (e.colourPart lv fit met pt wa ro off).cs = buildSet pt wa e.pix := by
  rw [Engine.colourPart, Engine.colourEnc_cs, Engine.fitDispatch_cs, Engine.csBuild_cs]

/-- COMPRESS of a colour format builds the set; BC4 and BC5 leave it (R342, R349). -/
theorem Engine.compressBlock_cs_cases (f : Format) (fit : FitQuality) (met : Metric) (pt wa : Bool) (ro : Nat)
    (e : Engine) : (e.compressBlock f fit met pt wa ro).cs = e.cs ∨
      ∃ pt' wa' pix, (e.compressBlock f fit met pt wa ro).cs = buildSet pt' wa' pix := by
  cases f with
  | bc1 => exact .inr ⟨_, _, _, by
      rw [Engine.compressBlock, Engine.setLen_cs, Engine.clearUpper_cs, Engine.colourPart_cs]⟩
  | bc2 => exact .inr ⟨_, _, _, by rw [Engine.compressBlock, Engine.setLen_cs, Engine.colourPart_cs]⟩
  | bc3 => exact .inr ⟨_, _, _, by rw [Engine.compressBlock, Engine.setLen_cs, Engine.colourPart_cs]⟩
  | bc4 => exact .inl (Engine.compressBlock_channels (.inl rfl) fit met pt wa ro e).1
  | bc5 => exact .inl (Engine.compressBlock_channels (.inr rfl) fit met pt wa ro e).1

theorem Engine.decompressBlock_cs (f : Format) (e : Engine) : (e.decompressBlock f).cs = e.cs := by
  cases f with
  | bc1 => rw [Engine.decompressBlock, Engine.colourDec_cs]
  | bc2 => rw [Engine.decompressBlock, Engine.alphaDec4_cs, Engine.colourDec_cs]
  | bc3 => rw [Engine.decompressBlock, Engine.alphaDec8_cs, Engine.colourDec_cs]
  | bc4 => rw [Engine.decompressBlock, Engine.alphaDec8_cs, Engine.fillOpaqueBlack_cs]
  | bc5 => rw [Engine.decompressBlock, Engine.alphaDec8_cs, Engine.alphaDec8_cs, Engine.fillOpaqueBlack_cs]

/-- What the effect of a command leaves as the colour set: the same one, a built one, or that of reset. -/
theorem commandEffect_cs_cases (i : Instr) (e : Engine) : (commandEffect i e).cs = e.cs ∨
    (∃ pt wa pix, (commandEffect i e).cs = buildSet pt wa pix) ∨ (commandEffect i e).cs = ColourSet.reset := by
  cases i with
  | nop => exact .inl rfl
  | clrerr => exact .inl rfl
  | sreset => exact .inr (.inr rfl)
  | compress fmt fit met pt wa ro =>
    cases fmt with
    | reserved n => exact .inl rfl
    | supported f =>
      rw [commandEffect]
      exact (Engine.compressBlock_cs_cases f fit met pt wa ro e).imp_right .inl
  | decompress fmt =>
    cases fmt with
    | reserved n => exact .inl rfl
    | supported f => exact .inl (Engine.decompressBlock_cs f e)
  | csbuild pt wa => exact .inr (.inl ⟨pt, wa, e.pix, Engine.csBuild_cs pt wa e⟩)
  | fitsingle lv met => exact .inl (Engine.fitSingle_cs lv met e)
  | fitrange lv met => exact .inl (Engine.fitRange_cs lv met e)
  | fitcluster lv met pt ro => exact .inl (Engine.fitCluster_cs lv met pt ro e)
  | cenc off => exact .inl (Engine.colourEnc_cs off e)
  | cdec off m3 => exact .inl (Engine.colourDec_cs off m3 e)
  | aenc4 off => exact .inl (Engine.alphaEnc4_cs off e)
  | adec4 off => exact .inl (Engine.alphaDec4_cs off e)
  | afit ch => exact .inl (Engine.alphaFitCh_cs ch e)
  | aenc8 off => exact .inl (Engine.alphaEnc8_cs off e)
  | adec8 off ch => exact .inl (Engine.alphaDec8_cs off ch e)

theorem commandEffect_cs_legal (i : Instr) {e : Engine} (h : e.cs.Legal) : (commandEffect i e).cs.Legal := by
  rcases commandEffect_cs_cases i e with heq | ⟨pt, wa, pix, heq⟩ | heq
  · rwa [heq]
  · rw [heq]
    exact buildSet_legal pt wa pix
  · rw [heq]
    exact ColourSet.reset_legal

theorem exec_cs_legal {i : Instr} {s t : State} (hlegal : s.eng.cs.Legal) (h : exec i s = .next t) : t.eng.cs.Legal := by
  rcases exec_effect_cases h with ⟨k, -, rfl⟩ | ⟨-, rfl⟩ | ⟨-, -, rfl⟩
  · exact hlegal
  · exact ColourSet.reset_legal
  · rw [State.completeWith_cs]
    exact commandEffect_cs_legal i hlegal

/-- A host write reaches no register of the colour set (R21). -/
theorem Engine.writeReg_cs (e : Engine) (r : Reg) (v : Word) : (e.writeReg r v).cs = e.cs := by
  cases r <;> rfl

/-- Settles O32: a step keeps the set, builds one, which is legal, or resets it, which is legal by the clause for
reset. -/
theorem colourSetStaysLegal : Obligations.ColourSetStaysLegal := by
  intro s t hlegal h
  rcases step_cases s with ⟨-, hs⟩ | ⟨rest, a, hs⟩ | ⟨r, v, rest, -, -, hs⟩ | ⟨rest, -, hs⟩ |
    ⟨w, x, rest, -, -, hs⟩ | ⟨w, i, rest, -, -, hs⟩
  · cases hs.symm.trans h
    exact hlegal
  · cases hs.symm.trans h
    exact hlegal
  · cases hs.symm.trans h
    rw [Engine.writeReg_cs]
    exact hlegal
  · cases hs.symm.trans h
    exact ColourSet.reset_legal
  · cases hs.symm.trans h
    exact hlegal
  · exact exec_cs_legal (s := s.answered rest .ok) hlegal (hs.symm.trans h)

end Sys2Proof.Machine
